-- ==== Sys2Proof/Word.lean ====
section
/-! DEFINITION. The word types of the machine: bytes, instruction words, register contents, register numbers, and
the two register widths XLEN. -/

namespace Sys2Proof

/-- One byte of memory (R21). -/
abbrev Byte := BitVec 8

/-- The contents of an integer register or of the program counter. The container has 64 bits; on the 32-bit variant a
value lives in the low 32 bits and the rest is zero (log entry 2). -/
abbrev Word := BitVec 64

/-- One instruction (R53). -/
abbrev InstrWord := BitVec 32

/-- The number of an integer register, a 5-bit field of an instruction (R10). -/
abbrev Reg := Fin 32

/-- The two variants in scope, told apart by the width of a register and of an address (R3). -/
inductive Xlen where
  | rv32
  | rv64
  deriving DecidableEq, Repr

/-- The width in bits (R3). -/
def Xlen.bits : Xlen → Nat
  | .rv32 => 32
  | .rv64 => 64

end Sys2Proof
end

