-- ==== Sys2Proof/Syntax.lean ====
section
/-! DEFINITION. The instructions: one constructor per row of the opcode table (R61, R106 to R108). -/

namespace Sys2Proof

/-- The seven instructions. `aq` and `rl` are bits 26 and 25 (R60). -/
inductive Instr where
  /-- `lr.w rd, (rs1)` (R85). -/
  | lrW (rd rs1 : Reg) (aq rl : Bool)
  /-- `lr.d rd, (rs1)` (R86). -/
  | lrD (rd rs1 : Reg) (aq rl : Bool)
  /-- `sc.w rd, rs2, (rs1)` (R87). -/
  | scW (rd rs2 rs1 : Reg) (aq rl : Bool)
  /-- `sc.d rd, rs2, (rs1)` (R88). -/
  | scD (rd rs2 rs1 : Reg) (aq rl : Bool)
  /-- `addi rd, rs1, imm` with a signed 12-bit immediate (R106). -/
  | addi (rd rs1 : Reg) (imm : BitVec 12)
  /-- `bne rs1, rs2, off` with a signed 13-bit byte offset whose bit 0 is zero (R107). -/
  | bne (rs1 rs2 : Reg) (off : BitVec 13)
  /-- `jalr rd, imm(rs1)` with a signed 12-bit immediate (R108). -/
  | jalr (rd rs1 : Reg) (imm : BitVec 12)
  deriving DecidableEq, Repr

end Sys2Proof
end

