-- ==== Sys2Proof/WellFormed.lean ====
section
/-! DEFINITION. Which instructions exist on a variant and can be encoded. -/

namespace Sys2Proof

/-- LR.D and SC.D exist only with XLEN 64 (R65). A branch offset is a multiple of 2, since its bit 0 is not encoded
(R107). Register numbers and immediates are in range by their types. -/
def Instr.wf (x : Xlen) : Instr → Bool
  | .lrW _ _ _ _ => true
  | .lrD _ _ _ _ => x == .rv64
  | .scW _ _ _ _ _ => true
  | .scD _ _ _ _ _ => x == .rv64
  | .addi _ _ _ => true
  | .bne _ _ off => off.getLsbD 0 == false
  | .jalr _ _ _ => true

end Sys2Proof
end

