-- ==== Sys2Proof/Decode.lean ====
section
/-! DEFINITION. The opcode table (R61), the decoder, total on every word and rejecting by name (R63 to R66), the byte
order of instructions (R26), and the encoder written from the same table. -/

namespace Sys2Proof

/-! ### The opcode table -/

/-- One row of the opcode table: a word `w` is the instruction exactly when `w &&& mask = pattern` (R61). -/
structure OpcodeRow where
  mnemonic : String
  pattern  : InstrWord
  mask     : InstrWord
  deriving DecidableEq, Repr

/-- The row of LR.W (R61). -/
def rowLrW : OpcodeRow := ⟨"LR.W", 0x1000202F, 0xF9F0707F⟩
/-- The row of LR.D (R61). -/
def rowLrD : OpcodeRow := ⟨"LR.D", 0x1000302F, 0xF9F0707F⟩
/-- The row of SC.W (R61). -/
def rowScW : OpcodeRow := ⟨"SC.W", 0x1800202F, 0xF800707F⟩
/-- The row of SC.D (R61). -/
def rowScD : OpcodeRow := ⟨"SC.D", 0x1800302F, 0xF800707F⟩
/-- The row of ADDI (R106). -/
def rowAddi : OpcodeRow := ⟨"ADDI", 0x00000013, 0x0000707F⟩
/-- The row of BNE (R107). -/
def rowBne : OpcodeRow := ⟨"BNE", 0x00001063, 0x0000707F⟩
/-- The row of JALR (R108). -/
def rowJalr : OpcodeRow := ⟨"JALR", 0x00000067, 0x0000707F⟩

/-- The seven rows. -/
def opcodeTable : List OpcodeRow := [rowLrW, rowLrD, rowScW, rowScD, rowAddi, rowBne, rowJalr]

/-- The word is one of the row's. -/
def OpcodeRow.hits (r : OpcodeRow) (w : InstrWord) : Bool := w &&& r.mask == r.pattern

/-- No word is of both rows: their patterns differ in a bit that both masks fix. -/
def OpcodeRow.disjoint (r q : OpcodeRow) : Bool := (r.pattern ^^^ q.pattern) &&& (r.mask &&& q.mask) != 0

/-- The row an instruction stands in. -/
def Instr.row : Instr → OpcodeRow
  | .lrW _ _ _ _ => rowLrW
  | .lrD _ _ _ _ => rowLrD
  | .scW _ _ _ _ _ => rowScW
  | .scD _ _ _ _ _ => rowScD
  | .addi _ _ _ => rowAddi
  | .bne _ _ _ => rowBne
  | .jalr _ _ _ => rowJalr

/-! ### Fields (R54, R106, R107) -/

/-- Bits 11 to 7. -/
def fieldRd (w : InstrWord) : Reg := (w.extractLsb' 7 5).toFin
/-- Bits 19 to 15. -/
def fieldRs1 (w : InstrWord) : Reg := (w.extractLsb' 15 5).toFin
/-- Bits 24 to 20. -/
def fieldRs2 (w : InstrWord) : Reg := (w.extractLsb' 20 5).toFin
/-- Bit 26. -/
def fieldAq (w : InstrWord) : Bool := w.getLsbD 26
/-- Bit 25. -/
def fieldRl (w : InstrWord) : Bool := w.getLsbD 25
/-- The immediate of ADDI and JALR, bits 31 to 20 (R106). -/
def fieldImmI (w : InstrWord) : BitVec 12 := w.extractLsb' 20 12
/-- The offset of BNE: bit 31, bit 7, bits 30 to 25, bits 11 to 8, and a zero (R107). -/
def fieldImmB (w : InstrWord) : BitVec 13 :=
  w.extractLsb' 31 1 ++ (w.extractLsb' 7 1 ++ (w.extractLsb' 25 6 ++ (w.extractLsb' 8 4 ++ 0#1)))

/-- The AMO opcode with the `funct5` of LR or of SC, whatever the other fields hold (R63, R64): the opcode in bits 6 to 0 and
`0001` in bits 31 to 28. -/
def isLrScSpace (w : InstrWord) : Bool := w &&& 0xF000007F == 0x1000002F

/-! ### The decoder -/

/-- Why bytes are no instruction. -/
inductive DecodeError where
  /-- The encodings near LR and SC that the spec calls illegal (R63, R64, R65). -/
  | illegal (w : InstrWord)
  /-- Every other word that matches no row (R66). -/
  | notInScope (w : InstrWord)
  /-- Fewer than four bytes. -/
  | tooShort
  deriving DecidableEq, Repr

/-- The decoder (R61, R63 to R66). -/
def decodeWord (x : Xlen) (w : InstrWord) : Except DecodeError Instr :=
  if rowLrW.hits w then .ok (.lrW (fieldRd w) (fieldRs1 w) (fieldAq w) (fieldRl w))
  else if rowLrD.hits w then
    (match x with
     | .rv64 => .ok (.lrD (fieldRd w) (fieldRs1 w) (fieldAq w) (fieldRl w))
     | .rv32 => .error (.illegal w))
  else if rowScW.hits w then .ok (.scW (fieldRd w) (fieldRs2 w) (fieldRs1 w) (fieldAq w) (fieldRl w))
  else if rowScD.hits w then
    (match x with
     | .rv64 => .ok (.scD (fieldRd w) (fieldRs2 w) (fieldRs1 w) (fieldAq w) (fieldRl w))
     | .rv32 => .error (.illegal w))
  else if rowAddi.hits w then .ok (.addi (fieldRd w) (fieldRs1 w) (fieldImmI w))
  else if rowBne.hits w then .ok (.bne (fieldRs1 w) (fieldRs2 w) (fieldImmB w))
  else if rowJalr.hits w then .ok (.jalr (fieldRd w) (fieldRs1 w) (fieldImmI w))
  else if isLrScSpace w then .error (.illegal w)
  else .error (.notInScope w)

/-! ### Bytes (R26) -/

/-- The instruction word of four bytes, the lowest address first: instruction bits 7 to 0 lie at the lowest address. -/
def instrWordOfBytes (b0 b1 b2 b3 : Byte) : InstrWord := b3 ++ (b2 ++ (b1 ++ b0))

/-- The four bytes of an instruction word, the lowest address first. -/
def bytesOfInstrWord (w : InstrWord) : List Byte :=
  [w.extractLsb' 0 8, w.extractLsb' 8 8, w.extractLsb' 16 8, w.extractLsb' 24 8]

/-- Decode the instruction at the head of a list of bytes, and give the bytes after it. -/
def decode (x : Xlen) : List Byte → Except DecodeError (Instr × List Byte)
  | b0 :: b1 :: b2 :: b3 :: rest =>
    match decodeWord x (instrWordOfBytes b0 b1 b2 b3) with
    | .ok i => .ok (i, rest)
    | .error e => .error e
  | _ => .error .tooShort

/-- The instruction words of a byte image, as entries of the program text from an address on (R22, R26). Bytes short of a
whole word at the end are left out. -/
def textOfBytes (a : Nat) : List Byte → List (Nat × InstrWord)
  | b0 :: b1 :: b2 :: b3 :: rest => (a, instrWordOfBytes b0 b1 b2 b3) :: textOfBytes (a + 4) rest
  | _ => []

/-- The word the table's bit numbering gives: the low `nbits` bits of `w`, zeros above. -/
def tableWord (nbits w : Nat) : InstrWord := BitVec.ofNat 32 (w % 2 ^ nbits)

/-- The instruction the decoder reads, on the 64-bit variant, from an instruction whose bits are `w`, numbered as the
opcode table numbers them; the word is laid out in bytes as the hardware stores it and given to the decoder. -/
def decodeTableWord (nbits w : Nat) : Option Instr :=
  match decode .rv64 (bytesOfInstrWord (tableWord nbits w)) with
  | .ok (i, _) => some i
  | .error _ => none

/-! ### The encoder (R54, R61, R106 to R108) -/

/-- A one-bit field. -/
def bit (b : Bool) : BitVec 1 := BitVec.ofBool b

/-- A register field. -/
def regField (r : Reg) : BitVec 5 := BitVec.ofFin r

/-- The format of LR and SC: funct5, aq, rl, rs2, rs1, funct3, rd, opcode (R54). -/
def encodeAmo (funct5 : BitVec 5) (aq rl : Bool) (rs2 rs1 : Reg) (funct3 : BitVec 3) (rd : Reg) : InstrWord :=
  funct5 ++ (bit aq ++ (bit rl ++ (regField rs2 ++ (regField rs1 ++ (funct3 ++ (regField rd ++ 0b0101111#7))))))

/-- The I-type format of ADDI and JALR: imm, rs1, funct3, rd, opcode (R106). -/
def encodeI (imm : BitVec 12) (rs1 : Reg) (funct3 : BitVec 3) (rd : Reg) (opcode : BitVec 7) : InstrWord :=
  imm ++ (regField rs1 ++ (funct3 ++ (regField rd ++ opcode)))

/-- The B-type format of BNE (R107). -/
def encodeB (off : BitVec 13) (rs2 rs1 : Reg) (funct3 : BitVec 3) (opcode : BitVec 7) : InstrWord :=
  off.extractLsb' 12 1 ++ (off.extractLsb' 5 6 ++ (regField rs2 ++ (regField rs1 ++ (funct3 ++
    (off.extractLsb' 1 4 ++ (off.extractLsb' 11 1 ++ opcode))))))

/-- The word of an instruction. -/
def encode : Instr → InstrWord
  | .lrW rd rs1 aq rl => encodeAmo 0b00010#5 aq rl 0 rs1 0b010#3 rd
  | .lrD rd rs1 aq rl => encodeAmo 0b00010#5 aq rl 0 rs1 0b011#3 rd
  | .scW rd rs2 rs1 aq rl => encodeAmo 0b00011#5 aq rl rs2 rs1 0b010#3 rd
  | .scD rd rs2 rs1 aq rl => encodeAmo 0b00011#5 aq rl rs2 rs1 0b011#3 rd
  | .addi rd rs1 imm => encodeI imm rs1 0b000#3 rd 0b0010011#7
  | .bne rs1 rs2 off => encodeB off rs2 rs1 0b001#3 0b1100011#7
  | .jalr rd rs1 imm => encodeI imm rs1 0b000#3 rd 0b1100111#7

end Sys2Proof
end

