-- ==== Sys2Proof/Config.lean ====
section
/-! DEFINITION. What an implementation or a platform fixes (the parameter table R6), and the free values: everything
the spec leaves to a draw of one step, gathered in one record whose source has no body. -/

namespace Sys2Proof

/-- A contiguous range of byte addresses. -/
structure ByteRange where
  lo  : Nat
  len : Nat
  deriving DecidableEq, Repr, Inhabited

/-- Which exception a misaligned LR or SC raises (R28, D4). -/
inductive MisalignedExc where
  | addressMisaligned
  | accessFault
  deriving DecidableEq, Repr, Inhabited

/-- How an LR's bytes are found and how foreign writes act (log entry 15). -/
inductive MemOrder where
  /-- Steps are atomic, act on memory directly and clear reservations as R90 says (R52). -/
  | interleaved
  /-- An LR's bytes come from an oracle, and which SC may have succeeded is judged on the finished history (R44, R90). -/
  | judged
  deriving DecidableEq, Repr

/-- A region of the address map (R34): LR and SC are allowed in it when `lrscOk`; it has the LR/SC eventuality property
when `eventuality` (R35). -/
structure Region where
  bytes       : ByteRange
  lrscOk      : Bool
  eventuality : Bool
  deriving DecidableEq, Repr

/-- The program text: a finite map from addresses to instruction words (R22). -/
abbrev Text := List (Nat × InstrWord)

/-- The parameters fixed for the whole run (R6). NHARTS is the number of harts of the state, ENTRY the start value of
each pc, Mem0 the start value of memory; HasC is false (R68). -/
structure Params where
  xlen       : Xlen
  devices    : Nat
  misaligned : MisalignedExc
  memOrder   : MemOrder
  regions    : List Region
  text       : Text
  /-- The address at which a hart's run ends; `none` where the launch names no end (R132). -/
  exit       : Option Word
  deriving DecidableEq, Repr

/-- Everything the spec leaves to a draw in one step (log entry 9). -/
structure Choice where
  /-- An SC that may succeed fails anyway (R77). -/
  spurious   : Bool
  /-- The failure code of an SC, brought to a nonzero value of the result width where it is used (R79). -/
  failCode   : Word
  /-- The bytes the reservation set holds beside those the LR reads (R74). -/
  extraSet   : List ByteRange
  /-- The reservation is lost in an exception of LR or SC (R72). -/
  trapLoses  : Bool
  /-- The harts that lose a reservation whose set a device write meets outside the LR's bytes (R90). -/
  deviceLoses : List Nat
  /-- The oracle's answer to an LR's read, little-endian (R44). -/
  oracle     : Word
  /-- Where a device writes (R126). -/
  deviceAddr : Nat
  /-- What a device writes, lowest address first (R126). -/
  deviceBytes : List Byte
  /-- Which agent moves next (R9); reduced to the agents there are where it is used. -/
  nextAgent  : Nat
  deriving DecidableEq, Repr, Inhabited

/-- The free choices of a run, one record a step. No body: nothing can be proved of a value of it (log entry 9). -/
opaque Config.choice : Nat → Choice

/-- The implementation's answer to R28 in the machine after reset. No body (log entry 11). -/
opaque Config.misalignedExc : MisalignedExc

/-- The parameters are those of the reference simulator (R52): steps are atomic and act on memory, and a misaligned LR or SC
raises address-misaligned. -/
def Params.isReference (p : Params) : Bool :=
  p.memOrder == .interleaved && p.misaligned == .addressMisaligned

/-- The choices of a step of the reference simulator (R52): no spurious failure, failure code 1, the smallest reservation set.
Which agent moves next, what devices write and what R52 says nothing of are as drawn. -/
def Choice.isReference (c : Choice) : Bool := !c.spurious && c.failCode == 1 && c.extraSet.isEmpty

/-- One such choice, for tests: it lets the first agent move and has devices write nothing. -/
def Choice.reference : Choice where
  spurious    := false
  failCode    := 1
  extraSet    := []
  trapLoses   := false
  deviceLoses := []
  oracle      := 0
  deviceAddr  := 0
  deviceBytes := []
  nextAgent   := 0

end Sys2Proof
end

