-- ==== Sys2Proof/Machine/State.lean ====
section
/-! DEFINITION. The state of the machine, as plain data: the table of `10_state.md` section 1, the parameters of R6, and
the model's own fields for the choices of a step. -/

namespace Sys2Proof.Machine

/-- The kind of an access, as an exception reports it (R111, R112). -/
inductive AccessKind where
  | load
  | storeAMO
  deriving DecidableEq, Repr

/-- The synchronous exceptions (R113). Each ends the hart's run (R116): safe, since no handler's behaviour is assumed; what the
fault leaves behind is `State.kept`. -/
inductive Fault where
  /-- Raised by LR and SC at an address not naturally aligned, when the implementation chose this exception (R72). Safe. -/
  | addressMisaligned (kind : AccessKind) (a : Word)
  /-- Raised by LR and SC at bytes outside the regions that allow them, or at a misaligned address when the implementation
  chose this exception (R72, R73). Safe. -/
  | accessFault (kind : AccessKind) (a : Word)
  /-- Raised by decoding a word the spec calls illegal, and by LR.D and SC.D on the 32-bit variant (R63 to R65). Safe. -/
  | illegalInstruction (w : InstrWord)
  /-- Raised by a fetch at a pc that is no multiple of 4, and by a taken BNE or a JALR to such a target (R113). Safe. -/
  | instructionAddressMisaligned (t : Word)
  /-- Raised by a fetch at a pc outside the program text (R115). Safe. -/
  | instructionAccessFault (pc : Word)
  deriving DecidableEq, Repr

/-- What the model gives no meaning (R116). A refused run supports no claim: safe. -/
inductive Refusal where
  /-- Raised by `exec` for an instruction without a meaning yet; no arm does. Safe. -/
  | notModelled (mnemonic : String)
  /-- Raised by the fetch of a word that matches no row and is not illegal (R66). Safe. -/
  | notInScope (w : InstrWord)
  /-- Raised by an LR or SC whose bytes meet the program text (R50). Safe. -/
  | textAccess
  deriving DecidableEq, Repr

/-- A hart's reservation (R16). The set is the union of its ranges. -/
structure Reservation where
  set    : List ByteRange
  lrAddr : Nat
  lrSize : Nat
  deriving DecidableEq, Repr

/-- Whether a hart goes on (R116, R132). A hart at the exit address is still `running` here: it has finished by its pc. -/
inductive Status where
  | running
  | faulted (f : Fault)
  | refused (r : Refusal)
  deriving DecidableEq, Repr

/-- One hart: its registers (R10), program counter (R14), reservation (R16) and whether it goes on. -/
structure Hart where
  x      : Vector Word 32
  pc     : Word
  res    : Option Reservation
  status : Status
  deriving DecidableEq, Repr

/-- Memory: the bytes that differ from what an unlisted address reads as, addresses strictly rising (`Memory.wf`). -/
abbrev Memory := List Host.Cell

/-- What the machine records (R23). -/
inductive Event where
  /-- An LR read: the bytes it returned and the reservation set it registered. -/
  | lr (hart addr size : Nat) (aq rl : Bool) (bytes : List Byte) (set : List ByteRange)
  /-- An SC: whether it succeeded, and the bytes it wrote, none where it failed. -/
  | sc (hart addr size : Nat) (aq rl ok : Bool) (bytes : List Byte)
  /-- A write by a device. -/
  | deviceWrite (device addr : Nat) (bytes : List Byte)
  deriving DecidableEq, Repr

/-- Which agent moves in the next step (R9): the hart in `State.hart`, or a device. -/
inductive Turn where
  | hart
  | device (d : Nat)
  deriving DecidableEq, Repr

/-- The machine. A hart's number is its position in `before ++ hart :: after`; `hart` is the one that moves when the turn is
a hart's. -/
structure State where
  /-- The parameters of the run (R6, R22, R34). -/
  params : Params
  /-- The harts with lower numbers than the one that moves. -/
  before : List Hart
  /-- The hart that moves. -/
  hart   : Hart
  /-- The harts with higher numbers. -/
  after  : List Hart
  /-- The memory all agents share (R21). -/
  mem    : Memory
  /-- The history (R23), oldest event first. -/
  hist   : List Event
  /-- The agent whose step is next (R9). -/
  turn   : Turn
  /-- Choices fixed in advance for the coming steps, the next one first (log entry 9). -/
  script : List Choice
  /-- The number of steps so far: the index of the free choice of the next step (log entry 9). -/
  count  : Nat
  deriving DecidableEq, Repr

/-- What an address reads as that nothing has written (log entry 4). -/
def Memory.unlisted : Byte := 0

/-- A hart at the start of a run (R24, R129): its pc at its entry, no reservation; its registers are 0 (log entry 3). -/
def Hart.start (entry : Word) : Hart where
  x      := Vector.replicate 32 0
  pc     := entry
  res    := none
  status := .running

/-- The machine at the start of a run (R24, R129, R131): the parameters, the entry address of hart 0, those of the other
harts, and the launch memory. -/
def State.start (p : Params) (entry : Word) (others : List Word) (mem0 : Memory) : State where
  params := p
  before := []
  hart   := Hart.start entry
  after  := others.map Hart.start
  mem    := mem0
  hist   := []
  turn   := .hart
  script := []
  count  := 0

/-- The parameters of the machine after reset, where the spec leaves them open (log entries 1, 5, 6, 7, 8, 11, 15). -/
def resetParams : Params where
  xlen       := .rv64
  devices    := 0
  misaligned := Config.misalignedExc
  memOrder   := .interleaved
  regions    := [⟨⟨0, 2 ^ 64⟩, true, false⟩]
  text       := []
  exit       := none

/-- The machine right after reset: one hart, no program loaded, memory with nothing listed. -/
def State.reset : State := State.start resetParams 0x1000 [] []

end Sys2Proof.Machine
end

