-- ==== Sys2Proof/Machine/Memory.lean ====
section
/-! DEFINITION. Memory: its canonical form, reading and writing one byte, and the little-endian assembly of wider accesses
(R25), in one place. Also ranges and sets of byte addresses. -/

namespace Sys2Proof.Machine

/-! ### One byte -/

/-- The canonical form: addresses strictly rising, and no entry equal to what an unlisted address reads as. -/
abbrev Memory.wf (m : Memory) : Prop :=
  m.Pairwise (fun c d => c.1 < d.1) ∧ ∀ c ∈ m, c.2 ≠ Memory.unlisted

/-- The byte at an address (R21). -/
def Memory.readByte : Memory → Nat → Byte
  | [], _ => Memory.unlisted
  | (k, v) :: rest, a => if k = a then v else Memory.readByte rest a

/-- Put a cell before the first cell with a higher address. -/
def Memory.place (c : Host.Cell) : Memory → Memory
  | [] => [c]
  | d :: rest => if c.1 < d.1 then c :: d :: rest else d :: Memory.place c rest

/-- Write one byte, keeping the canonical form. -/
def Memory.writeByte (m : Memory) (a : Nat) (b : Byte) : Memory :=
  let others := m.filter (fun c => c.1 != a)
  if b = Memory.unlisted then others else Memory.place (a, b) others

/-! ### Several bytes -/

/-- The `n` bytes from an address up, lowest address first. -/
def Memory.readBytes (m : Memory) : Nat → Nat → List Byte
  | _, 0 => []
  | a, n + 1 => m.readByte a :: m.readBytes (a + 1) n

/-- Write bytes from an address up, lowest address first. -/
def Memory.writeBytes (m : Memory) : Nat → List Byte → Memory
  | _, [] => m
  | a, b :: rest => Memory.writeBytes (m.writeByte a b) (a + 1) rest

/-- The little-endian value of up to eight bytes: the first byte is bits 7 to 0 (R25). -/
def leValue : List Byte → Word
  | [] => 0
  | b :: rest => (leValue rest <<< 8) ||| b.setWidth 64

/-- The low `n` bytes of a value, bits 7 to 0 first (R25). -/
def leBytes : Nat → Word → List Byte
  | 0, _ => []
  | n + 1, v => v.setWidth 8 :: leBytes n (v >>> 8)

/-! ### Sets of byte addresses -/

/-- The address is in the range. -/
def inRange (r : ByteRange) (a : Nat) : Bool := decide (r.lo ≤ a) && decide (a < r.lo + r.len)

/-- The address is in the set the ranges make up. -/
def inSet (set : List ByteRange) (a : Nat) : Bool := set.any (fun r => inRange r a)

/-- Every byte of `Bytes(a, n)` is in the set (R8). -/
def coversBytes (set : List ByteRange) (a n : Nat) : Bool := (List.range n).all (fun k => inSet set (a + k))

/-- Some byte of `Bytes(a, n)` is in the set. -/
def meetsBytes (set : List ByteRange) (a n : Nat) : Bool := (List.range n).any (fun k => inSet set (a + k))

end Sys2Proof.Machine
end

