-- ==== Sys2Proof/Machine/Ops.lean ====
section
/-! DEFINITION. The named operations over registers, program counter, reservation, memory and history that the meanings of
the instructions are made of, and raising an exception. -/

namespace Sys2Proof.Machine

/-! ### Widths -/

/-- The low XLEN bits of a value, the rest zero: arithmetic on XLEN-bit values is modulo `2^XLEN` (R7). -/
def truncTo : Xlen → Word → Word
  | .rv32, v => (v.setWidth 32).setWidth 64
  | .rv64, v => v

/-- `sext_XLEN` of a value (R7). -/
def sextTo {n : Nat} (x : Xlen) (v : BitVec n) : Word := truncTo x (v.signExtend 64)

/-- The width of the machine's registers (R3). -/
def State.xlen (s : State) : Xlen := s.params.xlen

/-! ### The choices of this step -/

/-- The choices of this step: the next of the script, and a free one where the script is at its end (log entry 9). -/
def State.choice (s : State) : Choice :=
  match s.script with
  | c :: _ => c
  | [] => Config.choice s.count

/-! ### Harts -/

/-- The number of the hart that moves. -/
def State.self (s : State) : Nat := s.before.length

/-- All harts, in the order of their numbers. -/
def State.harts (s : State) : List Hart := s.before ++ s.hart :: s.after

/-! ### Registers of the hart that moves -/

/-- `x[i]`: register 0 reads as zero (R8, R11). -/
def State.readReg (s : State) (r : Reg) : Word :=
  if r = 0 then 0 else truncTo s.xlen s.hart.x[r]

/-- `x[i] <- v`: a write to register 0 is discarded (R8, R11). -/
def State.writeReg (s : State) (r : Reg) (v : Word) : State :=
  if r = 0 then s
  else { s with hart := { s.hart with x := s.hart.x.set r (truncTo s.xlen v) } }

/-- `pc` (R14). -/
def State.pc (s : State) : Word := truncTo s.xlen s.hart.pc

/-- `pc <- t` (R14). -/
def State.setPc (s : State) (t : Word) : State :=
  { s with hart := { s.hart with pc := truncTo s.xlen t } }

/-- The address of the instruction after this one, modulo `2^XLEN` (R15). -/
def State.nextPc (s : State) : Word := truncTo s.xlen (s.pc + 4)

/-- `pc <- pc + 4` (R15). -/
def State.advancePc (s : State) : State := s.setPc (s.pc + 4)

/-! ### The reservation of the hart that moves -/

/-- `res[h] <- r` (R16). -/
def State.setRes (s : State) (r : Option Reservation) : State :=
  { s with hart := { s.hart with res := r } }

/-- The reservation an LR of `n` bytes at `a` registers: its set holds the bytes read, and whatever else is drawn (R74). -/
def State.newReservation (s : State) (a n : Nat) : Reservation where
  set    := ⟨a, n⟩ :: s.choice.extraSet
  lrAddr := a
  lrSize := n

/-- An SC of `n` bytes at `a` may succeed: the hart holds a reservation whose set contains the bytes (R75, R77). -/
def State.maySucceed (s : State) (a n : Nat) : Bool :=
  match s.hart.res with
  | some r => coversBytes r.set a n
  | none => false

/-- An SC of `n` bytes at `a` succeeds: it may, and the draw does not fail it (R77). -/
def State.scSucceeds (s : State) (a n : Nat) : Bool := s.maySucceed a n && !s.choice.spurious

/-! ### Memory and history -/

/-- Append an event (R23). -/
def State.record (s : State) (e : Event) : State := { s with hist := s.hist ++ [e] }

/-- The bytes an LR of `n` bytes at `a` returns, lowest address first: those of memory, or the oracle's where the history is
judged afterwards (R44, R52). -/
def State.lrBytes (s : State) (a n : Nat) : List Byte :=
  match s.params.memOrder with
  | .interleaved => s.mem.readBytes a n
  | .judged => leBytes n s.choice.oracle

/-- What a store by another hart to the `n` bytes at `a` does to a hart: it loses a reservation whose set it meets (R80, R90). -/
def Hart.afterForeignStore (t : Hart) (a n : Nat) : Hart :=
  match t.res with
  | some r => if meetsBytes r.set a n then { t with res := none } else t
  | none => t

/-- Store bytes as the hart that moves. Every other hart's reservation is treated as R90 says, where writes are performed one
at a time; where histories are judged, R90 is a condition on the history. -/
def State.store (s : State) (a : Nat) (bytes : List Byte) : State :=
  match s.params.memOrder with
  | .interleaved =>
    { s with
      mem := s.mem.writeBytes a bytes
      before := s.before.map (fun t => t.afterForeignStore a bytes.length)
      after := s.after.map (fun t => t.afterForeignStore a bytes.length) }
  | .judged => { s with mem := s.mem.writeBytes a bytes }

/-! ### Exceptions (R116 to R118) -/

/-- `raise E`: the instruction does not complete and the step's outcome is the exception (R8, R116). There is no handler and
control goes nowhere (R121). What the exception leaves behind is `State.kept`. -/
def State.raise (_s : State) (f : Fault) : Host.Outcome State Fault Refusal := .fault f

/-- The code of an exception (R113, R114). No register holds it, and no rule depends on it. -/
def exceptionCode : Fault → Nat
  | .instructionAddressMisaligned _ => 0
  | .instructionAccessFault _ => 1
  | .illegalInstruction _ => 2
  | .addressMisaligned .load _ => 4
  | .accessFault .load _ => 5
  | .addressMisaligned .storeAMO _ => 6
  | .accessFault .storeAMO _ => 7

/-- The exceptions of LR and SC, after which the reservation is a draw between its old value and none (R72). -/
def losesReservation : Fault → Bool
  | .addressMisaligned _ _ => true
  | .accessFault _ _ => true
  | .illegalInstruction _ => false
  | .instructionAddressMisaligned _ => false
  | .instructionAccessFault _ => false

/-- The state a fault of the hart that moves leaves (R116): as before the instruction, the pc that of the faulting
instruction (R117), but for the reservation, a draw after an exception of LR or SC (R72). The hart stops. -/
def State.kept (s : State) (f : Fault) : State :=
  { s with hart := { s.hart with
      res := if losesReservation f && s.choice.trapLoses then none else s.hart.res
      status := .faulted f } }

/-- The state a refusal leaves: as before, the hart marked (R132). -/
def State.keptRefused (s : State) (r : Refusal) : State :=
  { s with hart := { s.hart with status := .refused r } }

/-- Apply a function to the next state of an outcome. -/
def mapNext (f : State → State) : Host.Outcome State Fault Refusal → Host.Outcome State Fault Refusal
  | .next t => .next (f t)
  | .fault e => .fault e
  | .refused r => .refused r

end Sys2Proof.Machine
end

