-- ==== Sys2Proof/Machine/Agents.lean ====
section
/-! DEFINITION. The agents other than the hart that moves: a device's write (R81, R90, R126), and which agent moves next (R9). -/

namespace Sys2Proof.Machine

/-! ### A device's write -/

/-- The byte at `a` exists: it lies in some region (R34). -/
def State.mapped (s : State) (a : Nat) : Bool := s.params.regions.any (fun r => inRange r.bytes a)

/-- The leading bytes of a write that fall in regions: a device writes bytes of the regions only (R126, log entry 22). -/
def State.clipWrite (s : State) : Nat → List Byte → List Byte
  | _, [] => []
  | a, b :: rest => if s.mapped a then b :: s.clipWrite (a + 1) rest else []

/-- What a device's write to the `n` bytes at `a` does to a hart: it loses a reservation whose LR bytes the write meets, and
where the write meets only the rest of the set, it loses it or not as drawn (R81, R90). -/
def Hart.afterDeviceWrite (t : Hart) (a n : Nat) (drawn : Bool) : Hart :=
  match t.res with
  | some r =>
    if meetsBytes [⟨r.lrAddr, r.lrSize⟩] a n then { t with res := none }
    else if meetsBytes r.set a n && drawn then { t with res := none }
    else t
  | none => t

/-- The same for a list of harts whose numbers go up from `k`, the harts that lose drawn reservations given by number. -/
def afterDeviceWriteFrom (a n : Nat) (loses : List Nat) : Nat → List Hart → List Hart
  | _, [] => []
  | k, t :: rest => t.afterDeviceWrite a n (loses.contains k) :: afterDeviceWriteFrom a n loses (k + 1) rest

/-- A device writes bytes to memory. Reservations are treated as R90 says where writes are performed one at a time. -/
def State.deviceStore (s : State) (d a : Nat) (bytes : List Byte) (loses : List Nat) : State :=
  let t := { s with mem := s.mem.writeBytes a bytes, hist := s.hist ++ [.deviceWrite d a bytes] }
  match s.params.memOrder with
  | .interleaved =>
    { t with
      before := afterDeviceWriteFrom a bytes.length loses 0 s.before
      hart := s.hart.afterDeviceWrite a bytes.length (loses.contains s.self)
      after := afterDeviceWriteFrom a bytes.length loses (s.self + 1) s.after }
  | .judged => t

/-- The step of a device: one write, what and where drawn (R9, R126); a write of no bytes is none. -/
def State.deviceStep (s : State) (d : Nat) : State :=
  match s.clipWrite s.choice.deviceAddr s.choice.deviceBytes with
  | [] => s
  | b :: rest => s.deviceStore d s.choice.deviceAddr (b :: rest) s.choice.deviceLoses

/-! ### Which agent moves next -/

/-- Make hart number `k` the one that moves; no hart of that number leaves all as it is. -/
def State.focus (s : State) (k : Nat) : State :=
  match s.harts.drop k with
  | [] => s
  | t :: rest => { s with before := s.harts.take k, hart := t, after := rest }

/-- Give the turn to agent number `k`: harts first, then devices. -/
def State.giveTurn (s : State) (k : Nat) : State :=
  if k < s.harts.length then { s.focus k with turn := .hart }
  else { s with turn := .device (k - s.harts.length) }

/-- The agent drawn to move next, among those there are; a lone hart needs no draw (R9, log entry 10). -/
def State.nextTurn (s : State) : Nat :=
  if s.harts.length + s.params.devices = 1 then 0
  else s.choice.nextAgent % (s.harts.length + s.params.devices)

/-- The end of a step: its choices are used up, and the agent drawn gets the turn. -/
def State.endStep (s : State) : State :=
  { s with script := s.script.tail, count := s.count + 1 }.giveTurn s.nextTurn

end Sys2Proof.Machine
end

