-- ==== Sys2Proof/Machine/Flags.lean ====
section
/-! DEFINITION. The hardware has no flags and no condition codes (R18). What stands in their place: the code an SC leaves in
its destination register (R78, R79), and the comparison BNE makes itself (R107). -/

namespace Sys2Proof.Machine

/-- A nonzero value drawn from all nonzero values of its width: a drawn zero stands for 1 (R79, log entry 23). -/
def nonzero {w : Nat} (v : BitVec w) : BitVec w := if v = 0 then 1 else v

/-- The failure code of an SC of `n` bytes: for SC.W any nonzero 32-bit value, sign-extended to XLEN bits; for SC.D any
nonzero 64-bit value (R79). -/
def State.failureCode (s : State) (n : Nat) : Word :=
  if n = 4 then sextTo s.xlen (nonzero (s.choice.failCode.setWidth 32)) else nonzero s.choice.failCode

/-- What an SC of `n` bytes writes to `rd`: zero on success, the failure code otherwise (R78, R79). -/
def State.scCode (s : State) (n : Nat) (ok : Bool) : Word := if ok then 0 else s.failureCode n

/-- The condition of BNE, on all XLEN bits (R107). -/
def State.regsDiffer (s : State) (rs1 rs2 : Reg) : Bool := s.readReg rs1 != s.readReg rs2

end Sys2Proof.Machine
end

