-- ==== Sys2Proof/Machine/Operands.lean ====
section
/-! DEFINITION. The operands of the instructions: the effective address of LR and SC with its three checks (R71 to R73), the
values that go to and from memory, and the targets of BNE and JALR. -/

namespace Sys2Proof.Machine

/-! ### Checks of LR and SC -/

/-- The address is naturally aligned to the size of the operand (R27). -/
def aligned (a : Word) (n : Nat) : Bool := a.toNat % n == 0

/-- The exception a misaligned LR or SC raises (R28, R72). -/
def State.misalignedFault (s : State) (kind : AccessKind) (a : Word) : Fault :=
  match s.params.misaligned with
  | .addressMisaligned => .addressMisaligned kind a
  | .accessFault => .accessFault kind a

/-- Some byte of `Bytes(a, n)` is a byte of the program text; an instruction word takes the four bytes from its address
up (R26, R50). -/
def State.meetsText (s : State) (a n : Nat) : Bool :=
  s.params.text.any (fun e => decide (a < e.1 + 4) && decide (e.1 < a + n))

/-- The byte at `a` lies in a region that allows LR and SC (R33). -/
def State.lrscOk (s : State) (a : Nat) : Bool :=
  s.params.regions.any (fun r => r.lrscOk && inRange r.bytes a)

/-- `Accessible(a, n)`: every byte lies in a region that allows LR and SC (R73). -/
def State.accessible (s : State) (a n : Nat) : Bool := (List.range n).all (fun k => s.lrscOk (a + k))

/-- The checks of LR and SC, alignment first, then the program text, then the regions (R72, R73, R120, log entry 14); what is
done when all hold is the last argument. -/
def State.withAccess (s : State) (kind : AccessKind) (a : Word) (n : Nat)
    (go : Host.Outcome State Fault Refusal) : Host.Outcome State Fault Refusal :=
  if !aligned a n then s.raise (s.misalignedFault kind a)
  else if s.meetsText a.toNat n then .refused .textAccess
  else if !s.accessible a.toNat n then s.raise (.accessFault kind a)
  else go

/-- An LR or SC of `n` bytes at `a` passes all three checks. -/
def State.admits (s : State) (a : Word) (n : Nat) : Bool :=
  aligned a n && !s.meetsText a.toNat n && s.accessible a.toNat n

/-! ### Values -/

/-- The value LR places in `rd`: a word is sign-extended to XLEN bits, a doubleword is taken whole (R85, R86). -/
def loadedValue (x : Xlen) (n : Nat) (bytes : List Byte) : Word :=
  if n = 4 then sextTo x ((leValue bytes).setWidth 32) else leValue bytes

/-- The bytes an SC of `n` bytes stores: the low `8n` bits of `x[rs2]`, lowest address first (R78). -/
def State.storedBytes (s : State) (n : Nat) (rs2 : Reg) : List Byte := leBytes n (s.readReg rs2)

/-! ### Targets of control transfers -/

/-- The target of BNE: the branch's own address and the offset, modulo `2^XLEN` (R107). -/
def State.branchTarget (s : State) (off : BitVec 13) : Word := truncTo s.xlen (s.pc + sextTo s.xlen off)

/-- The target of JALR: base and immediate, modulo `2^XLEN`, bit 0 cleared (R108). -/
def State.jumpTarget (s : State) (rs1 : Reg) (imm : BitVec 12) : Word :=
  truncTo s.xlen (s.readReg rs1 + sextTo s.xlen imm) &&& ~~~1#64

end Sys2Proof.Machine
end

