-- ==== Sys2Proof/Machine/Auxiliary.lean ====
section
/-! DEFINITION. The auxiliary base instructions ADDI, BNE and JALR (R106 to R108). -/

namespace Sys2Proof.Machine

/-- ADDI (R106): the sum is modulo `2^XLEN`, and nothing traps. -/
def execAddi (rd rs1 : Reg) (imm : BitVec 12) (s : State) : Host.Outcome State Fault Refusal :=
  .next ((s.writeReg rd (s.readReg rs1 + sextTo s.xlen imm)).advancePc)

/-- BNE (R107): the target is checked only when the branch is taken. -/
def execBne (rs1 rs2 : Reg) (off : BitVec 13) (s : State) : Host.Outcome State Fault Refusal :=
  if s.regsDiffer rs1 rs2 then
    if aligned (s.branchTarget off) 4 then .next (s.setPc (s.branchTarget off))
    else s.raise (.instructionAddressMisaligned (s.branchTarget off))
  else .next s.advancePc

/-- JALR (R108): the target is read before `rd` is written. -/
def execJalr (rd rs1 : Reg) (imm : BitVec 12) (s : State) : Host.Outcome State Fault Refusal :=
  if aligned (s.jumpTarget rs1 imm) 4 then .next ((s.writeReg rd s.nextPc).setPc (s.jumpTarget rs1 imm))
  else s.raise (.instructionAddressMisaligned (s.jumpTarget rs1 imm))

end Sys2Proof.Machine
end

