-- ==== Sys2Proof/Machine/LoadReserved.lean ====
section
/-! DEFINITION. LR.W and LR.D (R85, R86). -/

namespace Sys2Proof.Machine

/-- What an LR of `n` bytes at `a` does once the checks hold: it reads, registers the reservation (one step, R74), writes the
destination and goes on. The read is recorded (R23). -/
def State.lrDone (s : State) (n : Nat) (a : Word) (rd : Reg) (aq rl : Bool) : State :=
  (((s.record (.lr s.self a.toNat n aq rl (s.lrBytes a.toNat n) (s.newReservation a.toNat n).set)).writeReg rd
    (loadedValue s.xlen n (s.lrBytes a.toNat n))).setRes (some (s.newReservation a.toNat n))).advancePc

/-- A load-reserved of `n` bytes: the address is the whole of `x[rs1]` (R71). `aq` and `rl` change no result (R47). -/
def State.loadReserved (s : State) (n : Nat) (rd rs1 : Reg) (aq rl : Bool) : Host.Outcome State Fault Refusal :=
  s.withAccess .load (s.readReg rs1) n (.next (s.lrDone n (s.readReg rs1) rd aq rl))

/-- LR.W (R85). -/
def execLrW (rd rs1 : Reg) (aq rl : Bool) (s : State) : Host.Outcome State Fault Refusal :=
  s.loadReserved 4 rd rs1 aq rl

/-- LR.D (R86); on the 32-bit variant its word is illegal (R65, log entry 20). -/
def execLrD (rd rs1 : Reg) (aq rl : Bool) (s : State) : Host.Outcome State Fault Refusal :=
  match s.xlen with
  | .rv64 => s.loadReserved 8 rd rs1 aq rl
  | .rv32 => s.raise (.illegalInstruction (encode (.lrD rd rs1 aq rl)))

end Sys2Proof.Machine
end

