-- ==== Sys2Proof/Machine/StoreConditional.lean ====
section
/-! DEFINITION. SC.W and SC.D (R87, R88). -/

namespace Sys2Proof.Machine

/-- What an SC of `n` bytes at `a` does once the checks hold: on success it stores; in both cases it writes the code to the
destination, clears the reservation (R83) and goes on. The SC is recorded (R23). -/
def State.scDone (s : State) (n : Nat) (a : Word) (rd rs2 : Reg) (aq rl : Bool) : State :=
  let ok := s.scSucceeds a.toNat n
  let bytes := if ok then s.storedBytes n rs2 else []
  (((((if ok then s.store a.toNat bytes else s).record
    (.sc s.self a.toNat n aq rl ok bytes)).writeReg rd (s.scCode n ok)).setRes none).advancePc)

/-- A store-conditional of `n` bytes: the address is the whole of `x[rs1]` (R71); source registers are read before `rd` is
written (R89). `aq` and `rl` change no result (R47). -/
def State.storeConditional (s : State) (n : Nat) (rd rs2 rs1 : Reg) (aq rl : Bool) :
    Host.Outcome State Fault Refusal :=
  s.withAccess .storeAMO (s.readReg rs1) n (.next (s.scDone n (s.readReg rs1) rd rs2 aq rl))

/-- SC.W (R87). -/
def execScW (rd rs2 rs1 : Reg) (aq rl : Bool) (s : State) : Host.Outcome State Fault Refusal :=
  s.storeConditional 4 rd rs2 rs1 aq rl

/-- SC.D (R88); on the 32-bit variant its word is illegal (R65, log entry 20). -/
def execScD (rd rs2 rs1 : Reg) (aq rl : Bool) (s : State) : Host.Outcome State Fault Refusal :=
  match s.xlen with
  | .rv64 => s.storeConditional 8 rd rs2 rs1 aq rl
  | .rv32 => s.raise (.illegalInstruction (encode (.scD rd rs2 rs1 aq rl)))

end Sys2Proof.Machine
end

