-- ==== Sys2Proof/Machine/Fetch.lean ====
section
/-! DEFINITION. Fetching and decoding the instruction of the hart that moves, in the order of the checks of R115, and loading
a word of program text. -/

namespace Sys2Proof.Machine

/-- What a fetch finds. -/
inductive Fetched where
  | instr (w : InstrWord) (i : Instr)
  | fault (f : Fault)
  | refused (r : Refusal)
  deriving DecidableEq, Repr

/-- The word of the program text at an address (R22). -/
def textAt : Text → Nat → Option InstrWord
  | [], _ => none
  | (k, w) :: rest, a => if k = a then some w else textAt rest a

/-- Decode a word, as R115 says: illegal words fault and the others that match no row are refused (R66). The last case
cannot arise, since a word has its four bytes. -/
def fetchedOf (x : Xlen) (w : InstrWord) : Fetched :=
  match decodeWord x w with
  | .ok i => .instr w i
  | .error (.illegal v) => .fault (.illegalInstruction v)
  | .error (.notInScope v) => .refused (.notInScope v)
  | .error .tooShort => .refused (.notInScope w)

/-- Fetch and decode: pc alignment, then the program text, then decoding (R115, R120). -/
def State.fetch (s : State) : Fetched :=
  if s.pc.toNat % 4 ≠ 0 then .fault (.instructionAddressMisaligned s.pc)
  else
    match textAt s.params.text s.pc.toNat with
    | none => .fault (.instructionAccessFault s.pc)
    | some w => fetchedOf s.xlen w

/-- The hart has finished: its pc is the exit address (R132). -/
def State.atExit (s : State) : Bool := s.params.exit == some s.pc

/-- The hart that moves takes steps: it is neither stopped (R116) nor finished (R132). -/
def State.canMove (s : State) : Bool := s.hart.status == .running && !s.atExit

/-- Put a word at an address of the program text, in the order of addresses, in place of any there. -/
def placeText (a : Nat) (w : InstrWord) : Text → Text
  | [] => [(a, w)]
  | (k, v) :: rest =>
    if a < k then (a, w) :: (k, v) :: rest
    else if a = k then (a, w) :: rest
    else (k, v) :: placeText a w rest

/-- The machine with a word of program text where the hart that moves fetches next, and with what the fetch needs beside it:
the turn is the hart's, the hart runs, its pc is a multiple of 4, and its run does not end there. -/
def State.placeFetchWord (s : State) (w : InstrWord) : State :=
  let pc := s.pc &&& ~~~3#64
  { s with
    turn := .hart
    hart := { s.hart with pc := pc, status := .running }
    params := { s.params with
      text := placeText pc.toNat w s.params.text
      exit := if s.params.exit = some pc then none else s.params.exit } }

end Sys2Proof.Machine
end

