-- ==== Sys2Proof/Machine/Step.lean ====
section
/-! DEFINITION. One step of the machine (R9): one hart executes one instruction, or one device performs one write. -/

namespace Sys2Proof.Machine

/-- The step of the hart that moves: fetch, decode, execute, and hand on the turn (R115, R116). A hart that has stopped or
finished takes no step (R116, R132): only the turn is handed on (log entry 21). -/
def hartStep (s : State) : Host.Outcome State Fault Refusal :=
  if s.canMove then
    match s.fetch with
    | .instr _ i => mapNext State.endStep (exec i s)
    | .fault f => s.raise f
    | .refused r => .refused r
  else .next s.endStep

/-- One step of the agent whose turn it is. -/
def step (s : State) : Host.Outcome State Fault Refusal :=
  match s.turn with
  | .hart => hartStep s
  | .device d => .next (s.deviceStep d).endStep

/-- One step of the whole machine, past a fault or a refusal of one hart: that hart stops, and the turn is handed on, so that
the other agents go on (R116, R132, log entry 12). -/
def advance (s : State) : State :=
  match step s with
  | .next t => t
  | .fault f => (s.kept f).endStep
  | .refused r => (s.keptRefused r).endStep

/-- The machine with one instruction, its bits numbered as the opcode table numbers them, where the next step fetches. -/
def State.withFetchWord (s : State) (nbits w : Nat) : State := s.placeFetchWord (tableWord nbits w)

end Sys2Proof.Machine
end

