-- ==== Sys2Proof/Machine/Constrained.lean ====
section
/-! DEFINITION. One attempt of a constrained LR/SC loop (R91 to R96) as a check on the code a hart executes, with the
instruction classes of R109. The hardware checks none of this (R91); `Sys2Proof.Safety` says with it when a hart is in a
constrained loop, and the eventuality guarantee rests on that. -/

namespace Sys2Proof.Machine

/-! ### Instruction classes (R109) -/

/-- The classes R93 and R94 name, and the base instructions they allow without a condition. -/
inductive CodeClass where
  | load
  | store
  | jump
  | jalr
  | branch
  | fence
  | system
  | baseOther
  | notBase
  deriving DecidableEq, Repr

/-- Bits 6 to 0. -/
def majorOpcode (w : InstrWord) : BitVec 7 := w.extractLsb' 0 7

/-- Bits 31 to 25 are those of the base register-register instructions, not of multiply and divide (R109). -/
def baseFunct7 (w : InstrWord) : Bool := w.extractLsb' 25 7 == 0b0000000#7 || w.extractLsb' 25 7 == 0b0100000#7

/-- The class of a word, by its major opcode (R109). -/
def classOf (x : Xlen) (w : InstrWord) : CodeClass :=
  if majorOpcode w == 0b0000011#7 then .load
  else if majorOpcode w == 0b0100011#7 then .store
  else if majorOpcode w == 0b1101111#7 then .jump
  else if majorOpcode w == 0b1100111#7 then .jalr
  else if majorOpcode w == 0b1100011#7 then .branch
  else if majorOpcode w == 0b0001111#7 then .fence
  else if majorOpcode w == 0b1110011#7 then .system
  else if majorOpcode w == 0b0110111#7 then .baseOther
  else if majorOpcode w == 0b0010111#7 then .baseOther
  else if majorOpcode w == 0b0010011#7 then .baseOther
  else if majorOpcode w == 0b0110011#7 && baseFunct7 w then .baseOther
  else if x == .rv64 && majorOpcode w == 0b0011011#7 then .baseOther
  else if x == .rv64 && majorOpcode w == 0b0111011#7 && baseFunct7 w then .baseOther
  else .notBase

/-- The size of the word's load-reserved, if it is one. -/
def lrSizeOf (x : Xlen) (w : InstrWord) : Option Nat :=
  if rowLrW.hits w then some 4 else if x == .rv64 && rowLrD.hits w then some 8 else none

/-- The size of the word's store-conditional, if it is one. -/
def scSizeOf (x : Xlen) (w : InstrWord) : Option Nat :=
  if rowScW.hits w then some 4 else if x == .rv64 && rowScD.hits w then some 8 else none

/-! ### What a hart executes -/

/-- One executed instruction: where it stood, its word, the pc after it, `x[rs1]` before it (the address of an LR or SC), and
whether it is an SC that succeeded. -/
structure Executed where
  pc     : Word
  word   : InstrWord
  next   : Word
  addr   : Word
  stored : Bool
  deriving DecidableEq, Repr

/-- The word is an SC, and it succeeds in this step. -/
def State.storesWith (s : State) (w : InstrWord) : Bool :=
  match scSizeOf s.xlen w with
  | some n => s.scSucceeds (s.readReg (fieldRs1 w)).toNat n
  | none => false

/-- The instruction the hart that moves completes in this step, if it completes one. -/
def State.executed (s : State) : Option Executed :=
  if s.turn = .hart ∧ s.canMove = true then
    match s.fetch with
    | .instr w i =>
      (match exec i s with
       | .next t => some ⟨s.pc, w, t.pc, s.readReg (fieldRs1 w), s.storesWith w⟩
       | .fault _ => none
       | .refused _ => none)
    | .fault _ => none
    | .refused _ => none
  else none

/-- Control went to the instruction's own address or below: the displacement, read as a signed XLEN-bit number, is at most 0
(R109). A branch that is not taken goes forward. -/
def Executed.goesBack (x : Xlen) (e : Executed) : Bool :=
  match x with
  | .rv32 => decide (((e.next - e.pc).setWidth 32).toInt ≤ 0)
  | .rv64 => decide ((e.next - e.pc).toInt ≤ 0)

/-- The instruction may be executed between the LR and the SC (R93, R109). -/
def Executed.betweenOk (x : Xlen) (e : Executed) : Bool :=
  match classOf x e.word with
  | .jump => !e.goesBack x
  | .branch => !e.goesBack x
  | .baseOther => true
  | .load => false
  | .store => false
  | .jalr => false
  | .fence => false
  | .system => false
  | .notBase => false

/-- The instruction is a jump or a branch that goes back. -/
def Executed.isBackward (x : Xlen) (e : Executed) : Bool :=
  match classOf x e.word with
  | .jump => e.goesBack x
  | .branch => e.goesBack x
  | .jalr => false
  | .baseOther => false
  | .load => false
  | .store => false
  | .fence => false
  | .system => false
  | .notBase => false

/-! ### Loops -/

/-- The code of a loop: `len` instructions from `base` up, its LR among them at `lr` (R92). Code that retries may stand below
the LR. -/
structure CodeLoop where
  base : Nat
  len  : Nat
  lr   : Nat
  deriving DecidableEq, Repr

/-- The address is one of the loop's instructions. -/
def CodeLoop.holds (l : CodeLoop) (a : Word) : Bool := inRange ⟨l.base, 4 * l.len⟩ a.toNat

/-- The word at an address may stand in the loop, executed or not (R92 to R94): the LR at its place, and elsewhere an SC or a
base instruction that is no load, store, JALR, FENCE or SYSTEM. -/
def CodeLoop.wordOk (x : Xlen) (l : CodeLoop) (a : Nat) (w : InstrWord) : Bool :=
  if a = l.lr then (lrSizeOf x w).isSome
  else (scSizeOf x w).isSome || classOf x w == .baseOther || classOf x w == .branch || classOf x w == .jump

/-- At most 16 instructions, all of them words of the program text that may stand there, the LR among them, and one SC (R92). -/
def CodeLoop.placed (p : Params) (l : CodeLoop) : Bool :=
  decide (l.len ≤ 16) && inRange ⟨l.base, 4 * l.len⟩ l.lr &&
    (List.range l.len).all (fun k => (textAt p.text (l.base + 4 * k)).any (l.wordOk p.xlen (l.base + 4 * k))) &&
    (List.range l.len).countP (fun k => ((textAt p.text (l.base + 4 * k)).bind (scSizeOf p.xlen)).isSome) == 1

/-- Every one of the `n` bytes at `a` lies in a region with the eventuality property. R95 asks it of the address `a` and says nothing
of the other bytes; that all of them must lie in such regions, each in any, is the model's choice (DESIGN CHOICE, log entry 35). -/
def eventual (p : Params) (a n : Nat) : Bool :=
  (List.range n).all (fun k => p.regions.any (fun r => r.eventuality && inRange r.bytes (a + k)))

/-- The instruction may be executed in the code that retries (R94): as between the LR and the SC, or a jump or branch back
to an instruction of the loop. -/
def Executed.retryOk (x : Xlen) (l : CodeLoop) (e : Executed) : Bool :=
  e.betweenOk x || (e.isBackward x && l.holds e.next)

/-- The instruction is a branch or jump of the loop that goes out of it (R99, third event). -/
def Executed.leaves (x : Xlen) (l : CodeLoop) (e : Executed) : Bool :=
  l.holds e.pc && !l.holds e.next &&
    (match classOf x e.word with
     | .jump => true
     | .jalr => true
     | .branch => true
     | .load => false
     | .store => false
     | .fence => false
     | .system => false
     | .baseOther => false
     | .notBase => false)

/-! ### One attempt, from the LR to the next LR or out of the loop -/

/-- Where a hart is in an attempt. `seen` are the addresses executed since the LR. -/
inductive Phase where
  /-- About to execute the LR. -/
  | atLr
  /-- Between the LR, of this address and size, and the SC. -/
  | between (a : Word) (n : Nat) (seen : List Word)
  /-- Past the SC, which succeeded or not. -/
  | after (ok : Bool) (seen : List Word)
  /-- Back at the LR after a failed SC. -/
  | back
  /-- Back at the LR although the SC succeeded: not a retry in the case of failure (R92). -/
  | again
  /-- Out of the loop by a branch or jump. -/
  | left
  /-- The next attempt has begun. -/
  | ended
  /-- One of the five properties does not hold of what was executed. -/
  | broken
  deriving DecidableEq, Repr

/-- The hart is inside the loop: it has executed the LR and has not left, and the next attempt has not begun. -/
def Phase.inside : Phase → Bool
  | .atLr => false
  | .between _ _ _ => true
  | .after _ _ => true
  | .back => true
  | .again => true
  | .left => false
  | .ended => false
  | .broken => false

/-- The phase an executed instruction leads to, where it is allowed and leaves the attempt in `ph` as long as control stays in
the loop: out of the loop only by a branch or jump (R92, R99); back to the LR as given. -/
def Phase.land (x : Xlen) (l : CodeLoop) (e : Executed) (atTheLr ph : Phase) : Phase :=
  if e.next.toNat = l.lr then atTheLr
  else if l.holds e.next then ph
  else if e.leaves x l then .left
  else .broken

/-- The phase after one more executed instruction (R92 to R96). No instruction is executed twice in an attempt: code that comes
back elsewhere than to the LR is a loop of its own, which R92 and R94 leave no place for. The retry is in the case of failure
only (R92): control that comes back to the LR after an SC that succeeded leads to a phase of its own. -/
def Phase.next (p : Params) (l : CodeLoop) (ph : Phase) (e : Executed) : Phase :=
  match ph with
  | .atLr =>
    if e.pc.toNat = l.lr then
      match lrSizeOf p.xlen e.word with
      | some n =>
        if eventual p e.addr.toNat n then Phase.land p.xlen l e .broken (.between e.addr n [e.pc]) else .broken
      | none => .broken
    else .broken
  | .between a n seen =>
    if l.holds e.pc && !seen.contains e.pc then
      match scSizeOf p.xlen e.word with
      | some m =>
        if m = n ∧ e.addr = a then Phase.land p.xlen l e .broken (.after e.stored (e.pc :: seen)) else .broken
      | none => if e.betweenOk p.xlen then Phase.land p.xlen l e .broken (.between a n (e.pc :: seen)) else .broken
    else .broken
  | .after ok seen =>
    if l.holds e.pc && !seen.contains e.pc && e.retryOk p.xlen l then
      Phase.land p.xlen l e (if ok then .again else .back) (.after ok (e.pc :: seen))
    else .broken
  | .back => if e.pc.toNat = l.lr ∧ (lrSizeOf p.xlen e.word).isSome = true then .ended else .broken
  | .again => .again
  | .left => .left
  | .ended => .ended
  | .broken => .broken

/-- The phase after a list of executed instructions. -/
def phaseAfter (p : Params) (l : CodeLoop) (es : List Executed) : Phase := es.foldl (Phase.next p l) .atLr

/-- One failed attempt, from an LR back to that LR, with all that R92 to R96 ask of one attempt; `CodeLoop.isLoop` says what R92 asks of
the code over all attempts. -/
def constrainedPass (p : Params) (l : CodeLoop) (es : List Executed) : Bool :=
  l.placed p && phaseAfter p l es == .back

end Sys2Proof.Machine
end

