-- ==== Sys2Proof/Machine/BaseWords.lean ====
section
/-! DEFINITION. What the base instructions of R109 that have no row do to a hart's registers and pc. No step of the machine does
it: a fetch of their words is refused (R66). It serves to say what code of a loop can do (R92), and rests on general knowledge of
the base instruction set (log entry 34). -/

namespace Sys2Proof.Machine

/-! ### Fields and values -/

/-- Bits 14 to 12. -/
def fieldFunct3 (w : InstrWord) : BitVec 3 := w.extractLsb' 12 3

/-- The immediate of LUI and AUIPC: bits 31 to 12 in their places. -/
def fieldImmU (w : InstrWord) : BitVec 32 := w &&& 0xFFFFF000#32

/-- The offset of JAL: bit 31, bits 19 to 12, bit 20, bits 30 to 21, and a zero. -/
def fieldImmJ (w : InstrWord) : BitVec 21 :=
  w.extractLsb' 31 1 ++ (w.extractLsb' 12 8 ++ (w.extractLsb' 20 1 ++ (w.extractLsb' 21 10 ++ 0#1)))

/-- A register's value as a signed number of XLEN bits. -/
def signedOf (x : Xlen) (v : Word) : Int :=
  match x with
  | .rv32 => (v.setWidth 32).toInt
  | .rv64 => v.toInt

/-- An arithmetic shift to the right of an XLEN-bit value. -/
def shiftRightArith (x : Xlen) (v : Word) (n : Nat) : Word :=
  match x with
  | .rv32 => ((v.setWidth 32).sshiftRight n).signExtend 64
  | .rv64 => v.sshiftRight n

/-- The register computations by `funct3`; `alt` picks subtraction and the arithmetic shift. Shifts take the low bits of the second
operand, 5 or 6 of them. -/
def baseAlu (x : Xlen) (f : BitVec 3) (alt : Bool) (a b : Word) : Word :=
  if f == 0#3 then (if alt then a - b else a + b)
  else if f == 1#3 then a <<< (b.toNat % x.bits)
  else if f == 2#3 then (if signedOf x a < signedOf x b then 1 else 0)
  else if f == 3#3 then (if a.toNat < b.toNat then 1 else 0)
  else if f == 4#3 then a ^^^ b
  else if f == 5#3 then (if alt then shiftRightArith x a (b.toNat % x.bits) else a >>> (b.toNat % x.bits))
  else if f == 6#3 then a ||| b
  else a &&& b

/-- The same on the low 32 bits, with the result sign-extended (the RV64 forms on words). -/
def baseAluWord (f : BitVec 3) (alt : Bool) (a b : Word) : Word :=
  ((baseAlu .rv32 f alt (truncTo .rv32 a) (truncTo .rv32 b)).setWidth 32).signExtend 64

/-- The condition of a branch by `funct3`; two values are no branch. -/
def branchHolds (x : Xlen) (f : BitVec 3) (a b : Word) : Option Bool :=
  if f == 0#3 then some (a == b)
  else if f == 1#3 then some (a != b)
  else if f == 4#3 then some (decide (signedOf x a < signedOf x b))
  else if f == 5#3 then some (!decide (signedOf x a < signedOf x b))
  else if f == 6#3 then some (decide (a.toNat < b.toNat))
  else if f == 7#3 then some (!decide (a.toNat < b.toNat))
  else none

/-! ### Which words there are -/

/-- The bits above the shift amount of a shift by an immediate are those of the base set; other immediates are free. -/
def immediateOk (x : Xlen) (w : InstrWord) : Bool :=
  let high := match x with
    | .rv32 => w.extractLsb' 25 7 &&& 0b1111111#7
    | .rv64 => w.extractLsb' 25 7 &&& 0b1111110#7
  if fieldFunct3 w == 1#3 then high == 0#7
  else if fieldFunct3 w == 5#3 then high == 0#7 || high == 0b0100000#7
  else true

/-- A register-register computation with the alternative `funct7` is SUB or SRA. -/
def registerOk (w : InstrWord) : Bool :=
  w.extractLsb' 25 7 == 0#7 ||
    (w.extractLsb' 25 7 == 0b0100000#7 && (fieldFunct3 w == 0#3 || fieldFunct3 w == 5#3))

/-- The forms on words have only addition, subtraction and the shifts. -/
def wordFunct3 (w : InstrWord) : Bool := fieldFunct3 w == 0#3 || fieldFunct3 w == 1#3 || fieldFunct3 w == 5#3

/-! ### What they do -/

/-- Write a result and go on. -/
def State.resultDone (s : State) (w : InstrWord) (v : Word) : State := (s.writeReg (fieldRd w) v).advancePc

/-- Go to a target, if it is a multiple of 4 (R30). -/
def State.goTo (s : State) (target : Word) : Option State := if aligned target 4 then some (s.setPc target) else none

/-- The state after a base instruction of R109; none where the word is no such instruction or its target is misaligned. -/
def State.baseWord (s : State) (w : InstrWord) : Option State :=
  let a := s.readReg (fieldRs1 w)
  let b := s.readReg (fieldRs2 w)
  let imm := sextTo s.xlen (fieldImmI w)
  let arith := w.getLsbD 30 && fieldFunct3 w == 5#3
  if majorOpcode w == 0b0110111#7 then some (s.resultDone w (sextTo s.xlen (fieldImmU w)))
  else if majorOpcode w == 0b0010111#7 then some (s.resultDone w (s.pc + sextTo s.xlen (fieldImmU w)))
  else if majorOpcode w == 0b0010011#7 then
    if immediateOk s.xlen w then some (s.resultDone w (baseAlu s.xlen (fieldFunct3 w) arith a imm)) else none
  else if majorOpcode w == 0b0110011#7 then
    if registerOk w then some (s.resultDone w (baseAlu s.xlen (fieldFunct3 w) (w.getLsbD 30) a b)) else none
  else if s.xlen == .rv64 && majorOpcode w == 0b0011011#7 then
    if wordFunct3 w && immediateOk .rv32 w then some (s.resultDone w (baseAluWord (fieldFunct3 w) arith a imm)) else none
  else if s.xlen == .rv64 && majorOpcode w == 0b0111011#7 then
    if wordFunct3 w && registerOk w then some (s.resultDone w (baseAluWord (fieldFunct3 w) (w.getLsbD 30) a b)) else none
  else if majorOpcode w == 0b1101111#7 then
    (s.writeReg (fieldRd w) s.nextPc).goTo (truncTo s.xlen (s.pc + sextTo s.xlen (fieldImmJ w)))
  else if majorOpcode w == 0b1100011#7 then
    match branchHolds s.xlen (fieldFunct3 w) a b with
    | some true => s.goTo (s.branchTarget (fieldImmB w))
    | some false => some s.advancePc
    | none => none
  else none

/-! ### Runs of code -/

/-- The hart completes the next word of code: an instruction of the table as the machine does it, and a base instruction that has no
row as above. -/
def State.codeStep (s : State) : Option (Executed × State) :=
  match s.executed with
  | some e => some (e, advance s)
  | none =>
    if s.turn = .hart ∧ s.canMove = true then
      match s.fetch with
      | .refused (.notInScope w) => (s.baseWord w).map (fun t => (⟨s.pc, w, t.pc, s.readReg (fieldRs1 w), false⟩, t.endStep))
      | _ => none
    else none

/-- From `s` the hart executes these words and is then in the last state, with any draws. -/
inductive CodeRun (s : State) : List Executed → State → Prop where
  | start : CodeRun s [] s
  | step {es : List Executed} {e : Executed} {t u : State} (c : Choice) (run : CodeRun s es t)
      (next : State.codeStep { t with script := [c] } = some (e, u)) : CodeRun s (es ++ [e]) u

/-- A lone hart can execute these words from the LR of the loop on, with some registers, some memory and some draws: what the
code can do. -/
def CodeLoop.runs (p : Params) (l : CodeLoop) (es : List Executed) : Prop :=
  ∃ s t : State, s.params = p ∧ s.harts.length = 1 ∧ s.pc.toNat = l.lr ∧ CodeRun s es t

end Sys2Proof.Machine
end

