-- ==== Sys2Proof/Safety.lean ====
section
/-! DEFINITION. What claims about runs speak of: the start and the end of a run (R24, R131, R132), the invariants of a
state, what a memory consistency model must enforce on a history (R40 to R48, R75, R76), and the eventuality
guarantee as a premise over infinite executions (R99, R104). -/

namespace Sys2Proof.Machine

/-! ### The start and the end of a run -/

/-- The parameters are those of a launch the spec admits (R22, R34, R35, R132): a launch names its exit (R131). -/
abbrev launchAdmits (p : Params) : Prop :=
  p.text.Pairwise (fun c d => c.1 < d.1)
  ∧ (∀ c ∈ p.text, c.1 % 4 = 0 ∧ c.1 + 4 ≤ 2 ^ p.xlen.bits)
  ∧ p.regions.Pairwise (fun r q => r.bytes.lo + r.bytes.len ≤ q.bytes.lo ∨ q.bytes.lo + q.bytes.len ≤ r.bytes.lo)
  ∧ (∀ r ∈ p.regions, r.bytes.lo + r.bytes.len ≤ 2 ^ p.xlen.bits ∧ (r.eventuality = true → r.lrscOk = true))
  ∧ p.exit.isSome = true
  ∧ (∀ t ∈ p.exit, t.toNat % 4 = 0 ∧ t.toNat < 2 ^ p.xlen.bits ∧ textAt p.text t.toNat = none)

/-- The state is one a run may start in (R24, R131): the launch is admitted and every hart stands at an instruction. -/
abbrev State.launchOk (s : State) : Prop :=
  launchAdmits s.params
  ∧ (∀ t ∈ s.harts, t.pc.toNat % 4 = 0 ∧ textAt s.params.text t.pc.toNat ≠ none)
  ∧ s.mem.wf
  ∧ (∀ c ∈ s.mem, s.mapped c.1 = true)

/-- The run is over: every hart runs and stands at the exit address (R132). -/
def State.finished (s : State) : Bool :=
  s.harts.all (fun t => t.status == .running && s.params.exit == some (truncTo s.xlen t.pc))

/-! ### Invariants of a state -/

/-- Every register and pc fits in XLEN bits, and register 0 is zero (R10, R11, R14). -/
def Hart.fits (x : Xlen) (t : Hart) : Prop :=
  (∀ r : Reg, t.x[r].toNat < 2 ^ x.bits) ∧ t.x[(0 : Reg)] = 0 ∧ t.pc.toNat < 2 ^ x.bits

/-- All harts fit. -/
def State.fits (s : State) : Prop := ∀ t ∈ s.harts, t.fits s.xlen

/-- Every hart's pc is a multiple of 4 (R15). -/
def State.pcsAligned (s : State) : Prop := ∀ t ∈ s.harts, t.pc.toNat % 4 = 0

/-- A reservation's set holds the bytes its LR accessed (R16). -/
def Reservation.coversLr (r : Reservation) : Bool := coversBytes r.set r.lrAddr r.lrSize

/-- All reservations do. -/
def State.reservationsCoverLr (s : State) : Prop := ∀ t ∈ s.harts, ∀ r ∈ t.res, r.coversLr = true

/-- Nothing changed but what a completed instruction may write of the hart that moves (registers, pc, reservation), memory,
history and the other harts: the parameters, whose turn it is, the script and the step count, and that the hart runs. -/
def sameMachine (s t : State) : Prop :=
  t.params = s.params ∧ t.turn = s.turn ∧ t.script = s.script ∧ t.count = s.count ∧ t.hart.status = s.hart.status

/-- Every one of the `n` bytes at `a` lies in a region that allows LR and SC (R73). -/
abbrev allLrsc (p : Params) (a n : Nat) : Prop :=
  ∀ k, k < n → ∃ r ∈ p.regions, r.lrscOk = true ∧ r.bytes.lo ≤ a + k ∧ a + k < r.bytes.lo + r.bytes.len

/-- None of the `n` bytes at `a` is a byte of the program text (R50). -/
abbrev missesText (p : Params) (a n : Nat) : Prop := ∀ e ∈ p.text, ∀ k, k < n → ¬(e.1 ≤ a + k ∧ a + k < e.1 + 4)

/-- The other harts are as before. -/
def sameOthers (s t : State) : Prop := t.before = s.before ∧ t.after = s.after

/-- Every register but `rd` of the hart that moves reads as before, and register 0 too. -/
def sameRegsBut (rd : Reg) (s t : State) : Prop := ∀ q, (q ≠ rd ∨ q = 0) → t.readReg q = s.readReg q

/-- Every byte of memory reads as before. -/
def sameMem (s t : State) : Prop := ∀ b, t.mem.readByte b = s.mem.readByte b

/-! ### Histories -/

/-- What an event does to memory. -/
def Event.apply (m : Memory) : Event → Memory
  | .lr _ _ _ _ _ _ _ => m
  | .sc _ a _ _ _ _ bytes => m.writeBytes a bytes
  | .deviceWrite _ a bytes => m.writeBytes a bytes

/-- The memory a history makes of the launch memory. -/
def replay (mem0 : Memory) (hist : List Event) : Memory := hist.foldl Event.apply mem0

/-- Memory is what the history made of the launch memory. -/
def State.memFromHist (mem0 : Memory) (s : State) : Prop := s.mem = replay mem0 s.hist

/-- Every LR of the history returned the latest bytes written before it (R33, R52). -/
def readsLatest (mem0 : Memory) (hist : List Event) : Prop :=
  ∀ i h a n aq rl bytes set, hist[i]? = some (.lr h a n aq rl bytes set) →
    bytes = (replay mem0 (hist.take i)).readBytes a n

/-- The event is an LR or an SC, successful or not, of hart `h`. -/
def Event.lrScOf (h : Nat) : Event → Bool
  | .lr g _ _ _ _ _ _ => g == h
  | .sc g _ _ _ _ _ _ => g == h
  | .deviceWrite _ _ _ => false

/-- The event is a memory operation of hart `h`: a failed SC is none (R87). -/
def Event.memOpOf (h : Nat) : Event → Bool
  | .lr g _ _ _ _ _ _ => g == h
  | .sc g _ _ _ _ ok _ => g == h && ok
  | .deviceWrite _ _ _ => false

/-- The event is a store of a hart other than `h` to the set (R80). -/
def Event.foreignStoreTo (h : Nat) (set : List ByteRange) : Event → Bool
  | .lr _ _ _ _ _ _ _ => false
  | .sc g a n _ _ ok _ => g != h && ok && meetsBytes set a n
  | .deviceWrite _ _ _ => false

/-- The event is a device's write to the `n` bytes at `a` (R81). -/
def Event.deviceWriteTo (a n : Nat) : Event → Bool
  | .lr _ _ _ _ _ _ _ => false
  | .sc _ _ _ _ _ _ _ => false
  | .deviceWrite _ b bytes => meetsBytes [⟨a, n⟩] b bytes.length

/-- The event is a memory operation: a read of an LR, a successful SC, or a device's write (R87). -/
def Event.isMemOp : Event → Bool
  | .lr _ _ _ _ _ _ _ => true
  | .sc _ _ _ _ _ ok _ => ok
  | .deviceWrite _ _ _ => true

/-- The event accesses the byte at `a` of memory. -/
def Event.touches (a : Nat) : Event → Bool
  | .lr _ b n _ _ _ _ => inRange ⟨b, n⟩ a
  | .sc _ b n _ _ ok _ => ok && inRange ⟨b, n⟩ a
  | .deviceWrite _ b bytes => inRange ⟨b, bytes.length⟩ a

/-- The byte a write event puts at an address. -/
def Event.byteAt (a : Nat) : Event → Option Byte
  | .lr _ _ _ _ _ _ _ => none
  | .sc _ b _ _ _ _ bytes => if b ≤ a then bytes[a - b]? else none
  | .deviceWrite _ b bytes => if b ≤ a then bytes[a - b]? else none

/-- Place `k` of the history is a write that puts a byte at `a`. -/
def writesAt (hist : List Event) (k a : Nat) : Prop := ∃ e b, hist[k]? = some e ∧ e.byteAt a = some b

/-- Place `k` of the history is a memory operation. -/
def memOpAt (hist : List Event) (k : Nat) : Prop := ∃ e, hist[k]? = some e ∧ e.isMemOp = true

/-- What a memory consistency model judges beside the history (R44): for each observing hart `g`, whether it observes event `i`
before event `j`; and for each LR and byte address, the event that wrote the byte returned, none for the launch memory. How
the source's "observed" is represented is the model's choice (log entry 32): `Witness.Consistent` says what such an order is. -/
structure Witness where
  before : Nat → Nat → Nat → Prop
  source : Nat → Nat → Option Nat

/-- The orders of a witness are observations of the history (R32, R33, R41, R133; log entry 32). Nothing here orders one hart's
operations on different bytes: that is for the ordering bits (R40, R46). -/
structure Witness.Consistent (w : Witness) (hist : List Event) : Prop where
  /-- No event is before itself. -/
  irrefl : ∀ g i, ¬ w.before g i i
  trans : ∀ g i j k, w.before g i j → w.before g j k → w.before g i k
  /-- For each observer, the memory operations take effect in one order, each at one point (R32, R41). -/
  total : ∀ g i j, memOpAt hist i → memOpAt hist j → i ≠ j → w.before g i j ∨ w.before g j i
  /-- Every observer has an LR after the write a byte it returned came from (R41). -/
  source : ∀ (i h a n : Nat) (aq rl : Bool) (bytes : List Byte) (set : List ByteRange) (x j : Nat),
    hist[i]? = some (.lr h a n aq rl bytes set) → a ≤ x → x < a + n → w.source i x = some j →
      writesAt hist j x ∧ ∀ g, w.before g j i
  /-- An LR returns the latest bytes written before it, in the order of its own hart (R33): no write to the byte stands between
  the one it came from and the LR. -/
  latest : ∀ (i h a n : Nat) (aq rl : Bool) (bytes : List Byte) (set : List ByteRange) (x k : Nat),
    hist[i]? = some (.lr h a n aq rl bytes set) → a ≤ x → x < a + n → writesAt hist k x → w.before h k i →
      ∃ j, w.source i x = some j ∧ (k = j ∨ w.before h k j)
  /-- Memory is one (R21): all observers see the writes to one byte in the same order, so that one is the latest (R33). -/
  coherent : ∀ g g' i j x, writesAt hist i x → writesAt hist j x → w.before g i j → w.before g' i j
  /-- As seen by a hart, its own operations on one byte take effect in program order (R133); R46 leaves those on other
  addresses free. -/
  sameByte : ∀ h i j e f x, hist[i]? = some e → hist[j]? = some f → i < j → e.memOpOf h = true →
    f.memOpOf h = true → e.touches x = true → f.touches x = true → w.before h i j

/-- Some observer places event `k` between events `i` and `j`. -/
def Witness.between (w : Witness) (i k j : Nat) : Prop := ∃ g, w.before g i k ∧ w.before g k j

/-- Event `i` is an LR of hart `h`, of the given address, size and set, and no LR or SC of `h` stands between it and place `j`
(R75 items 3 and 5). -/
def latestLr (hist : List Event) (i j h a n : Nat) (set : List ByteRange) : Prop :=
  (∃ aq rl bytes, hist[i]? = some (.lr h a n aq rl bytes set)) ∧ i < j ∧
    ∀ k e, i < k → k < j → hist[k]? = some e → e.lrScOf h = false

/-- Every successful SC is justified (R40 item 1, R75, R76): it pairs with the latest LR of its hart, whose set contains the
bytes written; no other hart's store to the set, and no device's write to the LR's bytes, is observed between. -/
def scJustified (hist : List Event) (w : Witness) : Prop :=
  ∀ j h a n aq rl bytes, hist[j]? = some (.sc h a n aq rl true bytes) →
    ∃ i la ln set, latestLr hist i j h la ln set ∧ coversBytes set a n = true ∧
      ∀ k e, hist[k]? = some e → w.between i k j →
        e.foreignStoreTo h set = false ∧ e.deviceWriteTo la ln = false

/-- In the order of any observer an SC's store comes after the read of the LR it pairs with (R41). -/
def lrBeforeSc (hist : List Event) (w : Witness) : Prop :=
  ∀ i j h a n set b m aq rl bytes, latestLr hist i j h a n set → hist[j]? = some (.sc h b m aq rl true bytes) →
    ∀ g, w.before g i j

/-- With `aq` on an LR, every later memory operation of the hart is observed after it (R42). -/
def acquires (hist : List Event) (w : Witness) : Prop :=
  ∀ i k h a n rl bytes set e, hist[i]? = some (.lr h a n true rl bytes set) → i < k → hist[k]? = some e →
    e.memOpOf h = true → ∀ g, w.before g i k

/-- With `rl` on a successful SC, its store is observed after every earlier memory operation of the hart (R43). -/
def releases (hist : List Event) (w : Witness) : Prop :=
  ∀ k j h a n aq bytes e, hist[j]? = some (.sc h a n aq true true bytes) → k < j → hist[k]? = some e →
    e.memOpOf h = true → ∀ g, w.before g k j

/-- Events `i` and `j` are an LR of hart `h` with `aq` and the successful SC with both bits that pairs with it. That R45 speaks of
sequences whose SC succeeds is the model's choice (log entry 33): a failed SC is no memory operation (R87). -/
def seqPair (hist : List Event) (i j h : Nat) : Prop :=
  ∃ a n rl bytes set b m sbytes, hist[i]? = some (.lr h a n true rl bytes set) ∧ latestLr hist i j h a n set ∧
    hist[j]? = some (.sc h b m true true true sbytes)

/-- With `aq` on the LR and both bits on the SC, the sequence is observed after every earlier and before every later memory
operation of the hart (R45). -/
def sequential (hist : List Event) (w : Witness) : Prop :=
  ∀ i j h k e, seqPair hist i j h → hist[k]? = some e → e.memOpOf h = true → ∀ g,
    (k < i → w.before g k i ∧ w.before g k j) ∧ (j < k → w.before g i k ∧ w.before g j k)

/-- What the source states of ordering and atomicity, and every memory model must enforce (R40), of observations that are
orders and that the values read agree with. -/
structure OrderItems (hist : List Event) (w : Witness) : Prop where
  observed   : w.Consistent hist
  justified  : scJustified hist w
  lrFirst    : lrBeforeSc hist w
  acquire    : acquires hist w
  release    : releases hist w
  sequential : sequential hist w

/-- A memory consistency model judges a finished history with its witness (R44). -/
abbrev MemModel := List Event → Witness → Prop

/-- The model enforces what R40 lists. -/
def MemModel.admissible (M : MemModel) : Prop := ∀ hist w, M hist w → OrderItems hist w

/-- The place of the last event of a history that wrote the byte at `a`. -/
def lastWriteTo (a : Nat) (hist : List Event) : Option Nat :=
  (List.range hist.length).reverse.find? (fun k => (hist[k]?.bind (fun e => e.byteAt a)).isSome)

/-- The witness of interleaved steps: every hart observes the events in the order they were performed, and a byte read is
the last one written (R52). -/
def Witness.inOrder (hist : List Event) : Witness where
  before := fun _ i j => i < j
  source := fun i a => lastWriteTo a (hist.take i)

/-- Every byte an LR returned is the one written by the event it is said to come from, or the one of the launch memory (R44). -/
def Witness.explains (w : Witness) (mem0 : Memory) (hist : List Event) : Prop :=
  ∀ (i h a n : Nat) (aq rl : Bool) (bytes : List Byte) (set : List ByteRange) (k : Nat) (b : Byte),
    hist[i]? = some (.lr h a n aq rl bytes set) → bytes[k]? = some b →
      match w.source i (a + k) with
      | none => b = mem0.readByte (a + k)
      | some j => ∃ e, hist[j]? = some e ∧ e.byteAt (a + k) = some b

/-- The memory is what the history leaves behind: each byte is the one written last in the order of every observer, or the one of
the launch memory where nothing wrote it. -/
def Witness.finalMemory (w : Witness) (mem0 : Memory) (hist : List Event) (m : Memory) : Prop :=
  ∀ x, ((∀ k, ¬ writesAt hist k x) → m.readByte x = mem0.readByte x) ∧
    ∀ j e b, hist[j]? = some e → e.byteAt x = some b → (∀ g k, writesAt hist k x → k = j ∨ w.before g k j) →
      m.readByte x = b

/-- A run from the launch memory is one of the hardware only if the model accepts its history (R44). -/
def State.acceptedBy (s : State) (mem0 : Memory) (M : MemModel) : Prop :=
  ∃ w : Witness, w.explains mem0 s.hist ∧ M s.hist w

/-- Every reservation held is the latest LR's of its hart, and nothing since has had to clear it: no other hart's store to the
set, and no device's write to the LR's bytes (R75, R90). -/
def State.reservationsStand (s : State) : Prop :=
  ∀ h t r, s.harts[h]? = some t → t.res = some r →
    ∃ i, latestLr s.hist i s.hist.length h r.lrAddr r.lrSize r.set ∧
      ∀ k e, i < k → s.hist[k]? = some e →
        e.foreignStoreTo h r.set = false ∧ e.deviceWriteTo r.lrAddr r.lrSize = false

/-! ### Infinite executions and the eventuality guarantee -/

/-- An infinite execution with the choices of each of its steps. -/
structure Execution where
  state  : Nat → State
  choice : Nat → Choice

/-- The machine at step `n`, with that step's choices. -/
def Execution.moment (r : Execution) (n : Nat) : State := { r.state n with script := [r.choice n] }

/-- Each state is what the machine makes of the one before. -/
def Execution.valid (r : Execution) : Prop := ∀ n, r.state (n + 1) = advance (r.moment n)

/-- The execution starts in a launch the spec admits. -/
def Execution.launched (r : Execution) : Prop := (r.state 0).launchOk

/-- Hart `h` moves at step `n`. -/
def Execution.moves (r : Execution) (h n : Nat) : Prop := (r.moment n).turn = .hart ∧ (r.moment n).self = h

/-- The scheduler is weakly fair to every hart (R140): each gets the turn again and again. R140 does not say what that asks for a
hart that has finished or stopped; that it too gets the turn is the model's choice (DESIGN CHOICE, log entry 10). -/
def Execution.fair (r : Execution) : Prop := ∀ h n, h < (r.state 0).harts.length → ∃ k, r.moves h (n + k)

/-- What hart `h` executes in the `k` steps from step `n` on, in order. -/
def Execution.trace (r : Execution) (h n : Nat) : Nat → List Executed
  | 0 => []
  | k + 1 => r.trace h n k ++ (if (r.moment (n + k)).self = h then (r.moment (n + k)).executed.toList else [])

/-- The events step `n` adds to the history. -/
def Execution.added (r : Execution) (n : Nat) : List Event := (r.state (n + 1)).hist.drop (r.state n).hist.length

/-- First event of R99: at step `n` some hart executes a successful SC to the set. -/
def Execution.scTo (r : Execution) (set : List ByteRange) (n : Nat) : Prop :=
  ∃ h a m aq rl bytes, Event.sc h a m aq rl true bytes ∈ r.added n ∧ meetsBytes set a m = true

/-- Second event of R99: at step `n` some other agent writes the set. The machine has no plain stores and no AMOs, so the agent is a
device. -/
def Execution.writeTo (r : Execution) (set : List ByteRange) (n : Nat) : Prop :=
  ∃ d a bytes, Event.deviceWrite d a bytes ∈ r.added n ∧ meetsBytes set a bytes.length = true

/-- Third event of R99: at step `n` hart `h` executes a branch or jump that exits the loop. -/
def Execution.exits (r : Execution) (h : Nat) (l : CodeLoop) (n : Nat) : Prop :=
  (r.moment n).self = h ∧ ∃ e ∈ (r.moment n).executed, e.leaves (r.moment n).xlen l = true

/-- Fourth event of R99: at step `n` hart `h` traps. -/
def Execution.traps (r : Execution) (h n : Nat) : Prop :=
  r.moves h n ∧ ∃ f, step (r.moment n) = .fault f

/-- At step `n` hart `h` meets something the model has no meaning for (R116). -/
def Execution.refuses (r : Execution) (h n : Nat) : Prop :=
  r.moves h n ∧ ∃ q, step (r.moment n) = .refused q

/-- Hart `h` completes an instruction at step `n`. -/
def Execution.completes (r : Execution) (h n : Nat) : Prop :=
  (r.moment n).self = h ∧ (r.moment n).executed.isSome = true

/-- At step `n` hart `h` executes the LR of the loop. -/
def Execution.enters (r : Execution) (h : Nat) (l : CodeLoop) (n : Nat) : Prop :=
  (r.moment n).self = h ∧ ∃ e ∈ (r.moment n).executed,
    e.pc.toNat = l.lr ∧ (lrSizeOf (r.moment n).xlen e.word).isSome = true

/-- Hart `h` neither exits the loop nor traps at the steps from `n` up to `m`. -/
def Execution.stays (r : Execution) (h : Nat) (l : CodeLoop) (n m : Nat) : Prop :=
  ∀ i, n ≤ i → i < m → ¬ r.exits h l i ∧ ¬ r.traps h i

/-- Where hart `h` is, before step `n + k`, in the attempt that begins at step `n`. -/
def Execution.phase (r : Execution) (h : Nat) (l : CodeLoop) (n k : Nat) : Phase :=
  phaseAfter (r.state n).params l (r.trace h n k)

/-- The execution from step `n` on. -/
def Execution.later (r : Execution) (n : Nat) : Execution := ⟨fun i => r.state (n + i), fun i => r.choice (n + i)⟩

/-- Execution `q` is one way in which `r` could go on from step `n`, with that step as it is. -/
def Execution.continues (q r : Execution) (n : Nat) : Prop :=
  q.valid ∧ q.state 0 = r.state n ∧ q.choice 0 = r.choice n

/-- The attempt that begins with the LR of step `n` has the properties R93 to R96: however the execution goes on from that LR, its SC
succeeding or failing, what hart `h` executes in the attempt does, and control does not come back to the LR after an SC that
succeeded. -/
def Execution.attemptOk (r : Execution) (h : Nat) (l : CodeLoop) (n : Nat) : Prop :=
  ∀ q : Execution, q.continues r n → ∀ k, q.phase h l 0 k ≠ .broken ∧ q.phase h l 0 k ≠ .again

/-- The address is of the LR/SC sequence, which begins with the LR and ends with the SC (R93). -/
def CodeLoop.inSequence (p : Params) (l : CodeLoop) (a : Nat) : Bool :=
  decide (l.lr ≤ a) && (List.range l.len).any (fun k =>
    decide (a ≤ l.base + 4 * k) && ((textAt p.text (l.base + 4 * k)).bind (scSizeOf p.xlen)).isSome)

/-- The executed words are a failed attempt that comes back to the LR. -/
def CodeLoop.retries (p : Params) (l : CodeLoop) (es : List Executed) : Prop := l.runs p es ∧ phaseAfter p l es = .back

/-- The word at an address is executed after a failed SC, and goes out of the loop: an exit of the code to retry (R94, R99). -/
def CodeLoop.givesUp (p : Params) (l : CodeLoop) (a : Nat) : Prop :=
  ∃ es e seen, l.runs p (es ++ [e]) ∧ phaseAfter p l es = .after false seen ∧ e.pc.toNat = a ∧ e.leaves p.xlen l = true

/-- The word at an address is code of the LR/SC sequence, its exits included, or code to retry it in the case of failure
(R92): executed in an attempt that comes back to the LR after a failed SC, or the exit of that code. -/
def CodeLoop.serves (p : Params) (l : CodeLoop) (a : Nat) : Prop :=
  l.inSequence p a = true ∨ (∃ es, l.retries p es ∧ ∃ e ∈ es, e.pc.toNat = a) ∨ l.givesUp p a

/-- The executed words are all of the loop, an SC among them has succeeded, and control has come back to the LR. -/
def CodeLoop.repeatsSuccess (l : CodeLoop) (es : List Executed) : Prop :=
  (∀ e ∈ es, l.holds e.pc = true) ∧ (∃ e ∈ es, e.stored = true) ∧ ∃ e ∈ es.getLast?, e.next.toNat = l.lr

/-- The code is a loop of the shape of R92, whatever the registers hold: at most 16 words that may stand there, every one of them code
of the LR/SC sequence or code to retry it in the case of failure; it can retry; and after a success it does not come back to the
LR. -/
def CodeLoop.isLoop (p : Params) (l : CodeLoop) : Prop :=
  l.placed p = true ∧ (∃ es, l.retries p es) ∧ (∀ k, k < l.len → l.serves p (l.base + 4 * k)) ∧
    ∀ es, l.runs p es → ¬ l.repeatsSuccess es

/-- At step `n` hart `h` enters a constrained LR/SC loop (R91, R99): the code is such a loop (R92), and every attempt until the hart
exits or traps has the other properties (log entries 27 and 35). -/
def Execution.constrainedFrom (r : Execution) (h : Nat) (l : CodeLoop) (n : Nat) : Prop :=
  r.enters h l n ∧ l.isLoop (r.state n).params ∧ ∀ m, n ≤ m → r.enters h l m → r.stays h l n m → r.attemptOk h l m

/-- After step `m` hart `h` is inside the loop it entered at step `n`, and `set` is the reservation set of its latest LR. -/
def Execution.inside (r : Execution) (h : Nat) (l : CodeLoop) (n m : Nat) (set : List ByteRange) : Prop :=
  n ≤ m ∧ r.stays h l n (m + 1) ∧ ∃ j, n ≤ j ∧ j ≤ m ∧
    (∃ a k aq rl bytes, Event.lr h a k aq rl bytes set ∈ r.added j) ∧
    ∀ i, j < i → i ≤ m → ∀ a k aq rl bytes s, Event.lr h a k aq rl bytes s ∉ r.added i

/-- The eventuality guarantee as a named premise (R99, R104): at every point at which a hart is inside a constrained loop, one of
the four events occurs later, with the set of its latest LR. Of a hart that meets something without a meaning after it entered the
loop it says nothing, since that run supports no claim (R116; log entry 19). -/
def LrScEventuality (r : Execution) : Prop :=
  ∀ h l n m set, r.constrainedFrom h l n → r.inside h l n m set → (∀ k, ¬ r.refuses h (n + k)) →
    ∃ k, r.scTo set (m + 1 + k) ∨ r.writeTo set (m + 1 + k) ∨ r.exits h l (m + 1 + k) ∨ r.traps h (m + 1 + k)

/-- The execution is one of the reference simulator (R52). -/
def Execution.isReference (r : Execution) : Prop :=
  (r.state 0).params.isReference = true ∧ ∀ n, (r.choice n).isReference = true

end Sys2Proof.Machine
end

