-- ==== Sys2Proof/Certificates/Slice0/Obligations.lean ====
section
/-! DEFINITION. The statements for the provers. Each docstring names the rule of spec/ it formalises. -/

open Sys2Proof Sys2Proof.Machine

/-! ### Encoding -/

/-- Decoding the bytes of an instruction of the variant gives it back, with the bytes after it (R26, R54, R61, R106 to R108). -/
def Obligations.DecodeOfEncodeIsTheInstruction : Prop :=
  ∀ (x : Xlen) (i : Instr) (rest : List Byte), i.wf x = true →
    decode x (bytesOfInstrWord (encode i) ++ rest) = .ok (i, rest)

/-- R61: a word is one of LR.W, LR.D, SC.W, SC.D exactly when its masked bits are the row's; the doubleword rows only with
XLEN 64. -/
def Obligations.LrScWordsAreThoseThatMatch : Prop :=
  ∀ (x : Xlen) (w : InstrWord),
    ((∃ rd rs1 aq rl, decodeWord x w = .ok (.lrW rd rs1 aq rl)) ↔ w &&& 0xF9F0707F#32 = 0x1000202F#32) ∧
    ((∃ rd rs1 aq rl, decodeWord x w = .ok (.lrD rd rs1 aq rl)) ↔
      x = .rv64 ∧ w &&& 0xF9F0707F#32 = 0x1000302F#32) ∧
    ((∃ rd rs2 rs1 aq rl, decodeWord x w = .ok (.scW rd rs2 rs1 aq rl)) ↔ w &&& 0xF800707F#32 = 0x1800202F#32) ∧
    ((∃ rd rs2 rs1 aq rl, decodeWord x w = .ok (.scD rd rs2 rs1 aq rl)) ↔
      x = .rv64 ∧ w &&& 0xF800707F#32 = 0x1800302F#32)

/-- R54, R60: the fields of a decoded LR or SC are the bits of the word at the format's places. -/
def Obligations.LrScFieldsAreTheWordsBits : Prop :=
  ∀ (x : Xlen) (w : InstrWord) (rd rs1 rs2 : Reg) (aq rl : Bool),
    ((decodeWord x w = .ok (.lrW rd rs1 aq rl) ∨ decodeWord x w = .ok (.lrD rd rs1 aq rl)) →
      rd.val = w.toNat / 2 ^ 7 % 32 ∧ rs1.val = w.toNat / 2 ^ 15 % 32 ∧
      aq = w.toNat.testBit 26 ∧ rl = w.toNat.testBit 25) ∧
    ((decodeWord x w = .ok (.scW rd rs2 rs1 aq rl) ∨ decodeWord x w = .ok (.scD rd rs2 rs1 aq rl)) →
      rd.val = w.toNat / 2 ^ 7 % 32 ∧ rs1.val = w.toNat / 2 ^ 15 % 32 ∧ rs2.val = w.toNat / 2 ^ 20 % 32 ∧
      aq = w.toNat.testBit 26 ∧ rl = w.toNat.testBit 25)

/-- R106 to R108: which words are ADDI, BNE and JALR, and what their fields are; the offset of BNE is bit 31, bit 7, bits 30
to 25, bits 11 to 8 and a zero. -/
def Obligations.AuxiliaryWordsAndTheirFields : Prop :=
  ∀ (x : Xlen) (w : InstrWord),
    (w &&& 0x0000707F#32 = 0x00000013#32 ↔ ∃ rd rs1 imm, decodeWord x w = .ok (.addi rd rs1 imm)) ∧
    (w &&& 0x0000707F#32 = 0x00001063#32 ↔ ∃ rs1 rs2 off, decodeWord x w = .ok (.bne rs1 rs2 off)) ∧
    (w &&& 0x0000707F#32 = 0x00000067#32 ↔ ∃ rd rs1 imm, decodeWord x w = .ok (.jalr rd rs1 imm)) ∧
    (∀ rd rs1 imm, decodeWord x w = .ok (.addi rd rs1 imm) ∨ decodeWord x w = .ok (.jalr rd rs1 imm) →
      rd.val = w.toNat / 2 ^ 7 % 32 ∧ rs1.val = w.toNat / 2 ^ 15 % 32 ∧ imm.toNat = w.toNat / 2 ^ 20) ∧
    (∀ rs1 rs2 off, decodeWord x w = .ok (.bne rs1 rs2 off) →
      rs1.val = w.toNat / 2 ^ 15 % 32 ∧ rs2.val = w.toNat / 2 ^ 20 % 32 ∧
      off.toNat = w.toNat / 2 ^ 31 * 2 ^ 12 + w.toNat / 2 ^ 7 % 2 * 2 ^ 11 + w.toNat / 2 ^ 25 % 64 * 2 ^ 5 +
        w.toNat / 2 ^ 8 % 16 * 2)

/-- R63, R64: a word with the AMO opcode and the funct5 of LR whose rs2 field is not 0, or with the funct5 of LR or SC and
another width, is illegal, on both variants. -/
def Obligations.ReservedLrScWordsAreIllegal : Prop :=
  ∀ (x : Xlen) (w : InstrWord), w.toNat % 2 ^ 7 = 0b0101111 →
    (w.toNat / 2 ^ 27 = 0b00010 ∧ w.toNat / 2 ^ 20 % 32 ≠ 0) ∨
    ((w.toNat / 2 ^ 27 = 0b00010 ∨ w.toNat / 2 ^ 27 = 0b00011) ∧
      w.toNat / 2 ^ 12 % 8 ≠ 0b010 ∧ w.toNat / 2 ^ 12 % 8 ≠ 0b011) →
    decodeWord x w = .error (.illegal w) ∧ fetchedOf x w = .fault (.illegalInstruction w)

/-- R65: with XLEN 32 a word that matches the row of LR.D or of SC.D raises the illegal-instruction exception; so does the
instruction, if it is given to the machine decoded. -/
def Obligations.DoublewordFormsAreIllegalOn32Bits : Prop :=
  (∀ w : InstrWord, w &&& 0xF9F0707F#32 = 0x1000302F#32 ∨ w &&& 0xF800707F#32 = 0x1800302F#32 →
    fetchedOf .rv32 w = .fault (.illegalInstruction w)) ∧
  (∀ (s : State) rd rs2 rs1 aq rl, s.xlen = .rv32 →
    exec (.lrD rd rs1 aq rl) s = .fault (.illegalInstruction (encode (.lrD rd rs1 aq rl))) ∧
    exec (.scD rd rs2 rs1 aq rl) s = .fault (.illegalInstruction (encode (.scD rd rs2 rs1 aq rl))))

/-- R66: a word that matches no row, and has not the AMO opcode with the funct5 of LR or SC, is refused as not in scope. -/
def Obligations.EveryOtherWordIsRefused : Prop :=
  ∀ (x : Xlen) (w : InstrWord), (∀ r ∈ opcodeTable, w &&& r.mask ≠ r.pattern) →
    ¬(w.toNat % 2 ^ 7 = 0b0101111 ∧ (w.toNat / 2 ^ 27 = 0b00010 ∨ w.toNat / 2 ^ 27 = 0b00011)) →
    decodeWord x w = .error (.notInScope w) ∧ fetchedOf x w = .refused (.notInScope w)

/-- Words of the spec decode to the instructions they stand for: one of each row (95_test_vectors.md 3.1). -/
def Obligations.WordsOfTheSpecDecode : Prop :=
  decodeWord .rv32 0x140522AF#32 = .ok (.lrW 5 10 true false) ∧
  decodeWord .rv64 0x1005B32F#32 = .ok (.lrD 6 11 false false) ∧
  decodeWord .rv32 0x1AC522AF#32 = .ok (.scW 5 12 10 false true) ∧
  decodeWord .rv64 0x18D5B3AF#32 = .ok (.scD 7 13 11 false false) ∧
  decodeWord .rv32 0x00128313#32 = .ok (.addi 6 5 1) ∧
  decodeWord .rv32 0xFE039AE3#32 = .ok (.bne 7 0 (-12)) ∧
  decodeWord .rv64 0x00008067#32 = .ok (.jalr 0 1 0)

/-! ### Steps -/

/-- When the hart that moves may take a step and the program text holds, at its aligned pc, a word that decodes to `i`, the
step is `i` executed and then the end of the step (R115). -/
def Obligations.StepRunsTheDecodedInstruction : Prop :=
  ∀ (s : State) (w : InstrWord) (i : Instr), s.turn = .hart → s.canMove = true → s.pc.toNat % 4 = 0 →
    textAt s.params.text s.pc.toNat = some w → decodeWord s.xlen w = .ok i →
    step s = match exec i s with
      | .next t => .next t.endStep
      | .fault f => .fault f
      | .refused r => .refused r

/-- The end of a step leaves parameters, harts, memory and history as they are; it uses up the choices of the step, and gives the
turn to an agent there is (the harts and devices of R9). -/
def Obligations.EndOfStepOnlyHandsOnTheTurn : Prop :=
  ∀ s : State, s.endStep.params = s.params ∧ s.endStep.harts = s.harts ∧ s.endStep.mem = s.mem ∧
    s.endStep.hist = s.hist ∧ s.endStep.script = s.script.tail ∧ s.endStep.count = s.count + 1 ∧
    ∀ d, s.endStep.turn = .device d → d < s.params.devices

/-- R9, R52: any agent can be the next to move, by the choices of the step, also those of the reference simulator. -/
def Obligations.AnyAgentCanMoveNext : Prop :=
  ∀ s : State,
    (∀ k, k < s.harts.length → ∃ c : Choice, c.isReference = true ∧ ({ s with script := [c] }).endStep.turn = .hart ∧
      ({ s with script := [c] }).endStep.self = k ∧ s.harts[k]? = some ({ s with script := [c] }).endStep.hart) ∧
    (∀ d, d < s.params.devices → ∃ c : Choice, c.isReference = true ∧
      ({ s with script := [c] }).endStep.turn = .device d)

/-- R115: before executing, a hart's step checks the alignment of the pc, then the program text, then decodes. -/
def Obligations.FetchChecksInOrder : Prop :=
  ∀ s : State, s.turn = .hart → s.canMove = true →
    (s.pc.toNat % 4 ≠ 0 → step s = .fault (.instructionAddressMisaligned s.pc)) ∧
    (s.pc.toNat % 4 = 0 → textAt s.params.text s.pc.toNat = none → step s = .fault (.instructionAccessFault s.pc)) ∧
    (∀ w, s.pc.toNat % 4 = 0 → textAt s.params.text s.pc.toNat = some w →
      (decodeWord s.xlen w = .error (.illegal w) → step s = .fault (.illegalInstruction w)) ∧
      (decodeWord s.xlen w = .error (.notInScope w) → step s = .refused (.notInScope w)))

/-- A hart that has stopped (R116), or stands at the exit address (R132), takes no step: only the turn is handed on. That this
is a step of the machine is the model's choice (log entry 21). -/
def Obligations.StoppedOrFinishedHartTakesNoStep : Prop :=
  ∀ s : State, s.turn = .hart → (s.hart.status ≠ .running ∨ s.params.exit = some s.pc) → step s = .next s.endStep

/-- The model's choice (log entry 7): `State.withFetchWord` stands for the load of a program from outside the machine. A word it
places is what the next step runs, in any state. -/
def Obligations.PlacedWordIsWhatTheStepRuns : Prop :=
  ∀ (s : State) (nbits w : Nat) (i : Instr), decodeWord s.xlen (tableWord nbits w) = .ok i →
    step (s.withFetchWord nbits w) = mapNext State.endStep (exec i (s.withFetchWord nbits w))

/-! ### LR -/

/-- R85: LR.W, all of it. A misaligned address raises the implementation's exception; aligned bytes outside the text and
outside the regions for LR and SC raise the access fault; otherwise it completes: `rd` holds the sign-extended little-endian
word of memory (of the oracle's answer where histories are judged, so the value is stated for interleaved steps), the
reservation is registered, the read recorded, and the pc goes on. -/
def Obligations.LrWLoadsAndReserves : Prop :=
  ∀ (s : State) (rd rs1 : Reg) (aq rl : Bool),
    ((s.readReg rs1).toNat % 4 ≠ 0 →
      exec (.lrW rd rs1 aq rl) s = .fault (s.misalignedFault .load (s.readReg rs1))) ∧
    ((s.readReg rs1).toNat % 4 = 0 → missesText s.params (s.readReg rs1).toNat 4 →
      (∃ k, k < 4 ∧ ∀ r ∈ s.params.regions, r.lrscOk = true →
        ¬(r.bytes.lo ≤ (s.readReg rs1).toNat + k ∧ (s.readReg rs1).toNat + k < r.bytes.lo + r.bytes.len)) →
      exec (.lrW rd rs1 aq rl) s = .fault (.accessFault .load (s.readReg rs1))) ∧
    ((s.readReg rs1).toNat % 4 = 0 → missesText s.params (s.readReg rs1).toNat 4 → allLrsc s.params (s.readReg rs1).toNat 4 →
      ∃ (t : State) (b0 b1 b2 b3 : Byte), exec (.lrW rd rs1 aq rl) s = .next t ∧
        t.pc.toNat = (s.pc.toNat + 4) % 2 ^ s.xlen.bits ∧
        (∃ set, t.hart.res = some ⟨set, (s.readReg rs1).toNat, 4⟩ ∧
          coversBytes set (s.readReg rs1).toNat 4 = true ∧
          t.hist = s.hist ++ [.lr s.self (s.readReg rs1).toNat 4 aq rl [b0, b1, b2, b3] set]) ∧
        (s.params.memOrder = .interleaved → [b0, b1, b2, b3] = s.mem.readBytes (s.readReg rs1).toNat 4) ∧
        (rd ≠ 0 →
          (s.xlen = .rv64 → t.readReg rd = (b3 ++ (b2 ++ (b1 ++ b0)) : BitVec 32).signExtend 64) ∧
          (s.xlen = .rv32 → t.readReg rd = (b3 ++ (b2 ++ (b1 ++ b0)) : BitVec 32).setWidth 64)))

/-- R86: LR.D, all of it, with XLEN 64 (with XLEN 32 its word is illegal, R65). -/
def Obligations.LrDLoadsAndReserves : Prop :=
  ∀ (s : State) (rd rs1 : Reg) (aq rl : Bool), s.xlen = .rv64 →
    ((s.readReg rs1).toNat % 8 ≠ 0 →
      exec (.lrD rd rs1 aq rl) s = .fault (s.misalignedFault .load (s.readReg rs1))) ∧
    ((s.readReg rs1).toNat % 8 = 0 → missesText s.params (s.readReg rs1).toNat 8 →
      (∃ k, k < 8 ∧ ∀ r ∈ s.params.regions, r.lrscOk = true →
        ¬(r.bytes.lo ≤ (s.readReg rs1).toNat + k ∧ (s.readReg rs1).toNat + k < r.bytes.lo + r.bytes.len)) →
      exec (.lrD rd rs1 aq rl) s = .fault (.accessFault .load (s.readReg rs1))) ∧
    ((s.readReg rs1).toNat % 8 = 0 → missesText s.params (s.readReg rs1).toNat 8 → allLrsc s.params (s.readReg rs1).toNat 8 →
      ∃ (t : State) (b0 b1 b2 b3 b4 b5 b6 b7 : Byte), exec (.lrD rd rs1 aq rl) s = .next t ∧
        t.pc.toNat = (s.pc.toNat + 4) % 2 ^ 64 ∧
        (∃ set, t.hart.res = some ⟨set, (s.readReg rs1).toNat, 8⟩ ∧
          coversBytes set (s.readReg rs1).toNat 8 = true ∧
          t.hist = s.hist ++ [.lr s.self (s.readReg rs1).toNat 8 aq rl [b0, b1, b2, b3, b4, b5, b6, b7] set]) ∧
        (s.params.memOrder = .interleaved →
          [b0, b1, b2, b3, b4, b5, b6, b7] = s.mem.readBytes (s.readReg rs1).toNat 8) ∧
        (rd ≠ 0 → t.readReg rd = (b7 ++ (b6 ++ (b5 ++ (b4 ++ (b3 ++ (b2 ++ (b1 ++ b0)))))) : BitVec 64)))

/-- The frame of LR.W and LR.D: no other register, no byte of memory, nothing of another hart (R13, R31, R103). -/
def Obligations.LrChangesNothingElse : Prop :=
  ∀ (s t : State) (rd rs1 : Reg) (aq rl : Bool),
    (exec (.lrW rd rs1 aq rl) s = .next t ∨ exec (.lrD rd rs1 aq rl) s = .next t) →
    sameRegsBut rd s t ∧ sameMem s t ∧ sameOthers s t ∧ sameMachine s t

/-- R74: an LR that completes registers its own reservation, whatever the hart held before; the set holds the bytes read, and any
such set is possible. -/
def Obligations.AnyCoveringReservationSetIsPossible : Prop :=
  ∀ (s : State) (i : Instr) (rd rs1 : Reg) (aq rl : Bool) (n : Nat),
    ((n = 4 ∧ i = .lrW rd rs1 aq rl) ∨ (n = 8 ∧ i = .lrD rd rs1 aq rl ∧ s.xlen = .rv64)) →
    (∀ t, exec i s = .next t → ∃ r, t.hart.res = some r ∧ r.lrAddr = (s.readReg rs1).toNat ∧ r.lrSize = n ∧
      ∀ k, k < n → inSet r.set ((s.readReg rs1).toNat + k) = true) ∧
    ∀ wanted : List ByteRange, (s.readReg rs1).toNat % n = 0 → missesText s.params (s.readReg rs1).toNat n →
      allLrsc s.params (s.readReg rs1).toNat n → coversBytes wanted (s.readReg rs1).toNat n = true →
      ∃ (c : Choice) (t : State) (r : Reservation),
        exec i { s with script := [c] } = .next t ∧ t.hart.res = some r ∧
        r.lrAddr = (s.readReg rs1).toNat ∧ r.lrSize = n ∧ ∀ b, inSet r.set b = inSet wanted b

/-! ### SC -/

/-- R87: SC.W, all of it. A misaligned address raises the implementation's exception; aligned bytes outside the text and outside the
regions for LR and SC raise the access fault; otherwise it completes. It succeeds where the hart holds a reservation whose
set contains the four bytes and the draw does not fail it; then memory holds the low 32 bits of `rs2`, little-endian, and `rd` is
0. It fails otherwise: memory is as before and `rd` holds a nonzero code, the sign extension of a nonzero 32-bit value. In both
cases the reservation is gone, the SC recorded and the pc goes on. -/
def Obligations.ScWStoresOrFails : Prop :=
  ∀ (s : State) (rd rs2 rs1 : Reg) (aq rl : Bool),
    ((s.readReg rs1).toNat % 4 ≠ 0 →
      exec (.scW rd rs2 rs1 aq rl) s = .fault (s.misalignedFault .storeAMO (s.readReg rs1))) ∧
    ((s.readReg rs1).toNat % 4 = 0 → missesText s.params (s.readReg rs1).toNat 4 →
      (∃ k, k < 4 ∧ ∀ r ∈ s.params.regions, r.lrscOk = true →
        ¬(r.bytes.lo ≤ (s.readReg rs1).toNat + k ∧ (s.readReg rs1).toNat + k < r.bytes.lo + r.bytes.len)) →
      exec (.scW rd rs2 rs1 aq rl) s = .fault (.accessFault .storeAMO (s.readReg rs1))) ∧
    ((s.readReg rs1).toNat % 4 = 0 → missesText s.params (s.readReg rs1).toNat 4 → allLrsc s.params (s.readReg rs1).toNat 4 →
      ∃ t : State, exec (.scW rd rs2 rs1 aq rl) s = .next t ∧
        t.pc.toNat = (s.pc.toNat + 4) % 2 ^ s.xlen.bits ∧ t.hart.res = none ∧
        ((∃ r, s.hart.res = some r ∧ ∀ k, k < 4 → inSet r.set ((s.readReg rs1).toNat + k) = true) ∧
            s.choice.spurious = false →
          (∀ k, k < 4 → t.mem.readByte ((s.readReg rs1).toNat + k) =
            BitVec.ofNat 8 ((s.readReg rs2).toNat / 256 ^ k)) ∧
          (rd ≠ 0 → t.readReg rd = 0) ∧
          ∃ bytes, t.hist = s.hist ++ [.sc s.self (s.readReg rs1).toNat 4 aq rl true bytes] ∧
            bytes = t.mem.readBytes (s.readReg rs1).toNat 4) ∧
        (¬((∃ r, s.hart.res = some r ∧ ∀ k, k < 4 → inSet r.set ((s.readReg rs1).toNat + k) = true) ∧
            s.choice.spurious = false) →
          sameMem s t ∧
          (rd ≠ 0 → ∃ c : BitVec 32, c ≠ 0 ∧ (s.xlen = .rv64 → t.readReg rd = c.signExtend 64) ∧
            (s.xlen = .rv32 → t.readReg rd = c.setWidth 64)) ∧
          t.hist = s.hist ++ [.sc s.self (s.readReg rs1).toNat 4 aq rl false []]))

/-- R88: SC.D, all of it, with XLEN 64 (with XLEN 32 its word is illegal, R65). -/
def Obligations.ScDStoresOrFails : Prop :=
  ∀ (s : State) (rd rs2 rs1 : Reg) (aq rl : Bool), s.xlen = .rv64 →
    ((s.readReg rs1).toNat % 8 ≠ 0 →
      exec (.scD rd rs2 rs1 aq rl) s = .fault (s.misalignedFault .storeAMO (s.readReg rs1))) ∧
    ((s.readReg rs1).toNat % 8 = 0 → missesText s.params (s.readReg rs1).toNat 8 →
      (∃ k, k < 8 ∧ ∀ r ∈ s.params.regions, r.lrscOk = true →
        ¬(r.bytes.lo ≤ (s.readReg rs1).toNat + k ∧ (s.readReg rs1).toNat + k < r.bytes.lo + r.bytes.len)) →
      exec (.scD rd rs2 rs1 aq rl) s = .fault (.accessFault .storeAMO (s.readReg rs1))) ∧
    ((s.readReg rs1).toNat % 8 = 0 → missesText s.params (s.readReg rs1).toNat 8 → allLrsc s.params (s.readReg rs1).toNat 8 →
      ∃ t : State, exec (.scD rd rs2 rs1 aq rl) s = .next t ∧
        t.pc.toNat = (s.pc.toNat + 4) % 2 ^ 64 ∧ t.hart.res = none ∧
        ((∃ r, s.hart.res = some r ∧ ∀ k, k < 8 → inSet r.set ((s.readReg rs1).toNat + k) = true) ∧
            s.choice.spurious = false →
          (∀ k, k < 8 → t.mem.readByte ((s.readReg rs1).toNat + k) =
            BitVec.ofNat 8 ((s.readReg rs2).toNat / 256 ^ k)) ∧
          (rd ≠ 0 → t.readReg rd = 0) ∧
          ∃ bytes, t.hist = s.hist ++ [.sc s.self (s.readReg rs1).toNat 8 aq rl true bytes] ∧
            bytes = t.mem.readBytes (s.readReg rs1).toNat 8) ∧
        (¬((∃ r, s.hart.res = some r ∧ ∀ k, k < 8 → inSet r.set ((s.readReg rs1).toNat + k) = true) ∧
            s.choice.spurious = false) →
          sameMem s t ∧ (rd ≠ 0 → t.readReg rd ≠ 0) ∧
          t.hist = s.hist ++ [.sc s.self (s.readReg rs1).toNat 8 aq rl false []]))

/-- The frame of SC.W and SC.D: no other register; no byte of memory but the stored ones, and none where the SC fails; of
another hart nothing but its reservation, and nothing where the SC fails (R13, R31, R79). -/
def Obligations.ScChangesNothingElse : Prop :=
  ∀ (s t : State) (rd rs2 rs1 : Reg) (aq rl : Bool) (n : Nat),
    ((n = 4 ∧ exec (.scW rd rs2 rs1 aq rl) s = .next t) ∨ (n = 8 ∧ exec (.scD rd rs2 rs1 aq rl) s = .next t)) →
    sameRegsBut rd s t ∧ sameMachine s t ∧
    (∀ a, (s.readReg rs1).toNat = a → ∀ b, b < a ∨ a + n ≤ b → t.mem.readByte b = s.mem.readByte b) ∧
    (s.scSucceeds (s.readReg rs1).toNat n = false → sameMem s t ∧ sameOthers s t) ∧
    t.before.map (fun u => (u.x, u.pc, u.status)) = s.before.map (fun u => (u.x, u.pc, u.status)) ∧
    t.after.map (fun u => (u.x, u.pc, u.status)) = s.after.map (fun u => (u.x, u.pc, u.status))

/-- R83: a completed SC, successful or not, leaves its hart without a reservation. -/
def Obligations.EveryScClearsTheReservation : Prop :=
  ∀ (s t : State) (rd rs2 rs1 : Reg) (aq rl : Bool),
    (exec (.scW rd rs2 rs1 aq rl) s = .next t ∨ exec (.scD rd rs2 rs1 aq rl) s = .next t) → t.hart.res = none

/-- R90, the rule for harts: where writes are performed one at a time, a successful SC takes the reservation of every other hart
whose set holds a byte it writes, and leaves every other reservation; a hart without one still has none. -/
def Obligations.ScStoreTakesForeignReservations : Prop :=
  ∀ (s t : State) (rd rs2 rs1 : Reg) (aq rl : Bool) (n : Nat), s.params.memOrder = .interleaved →
    ((n = 4 ∧ exec (.scW rd rs2 rs1 aq rl) s = .next t) ∨ (n = 8 ∧ exec (.scD rd rs2 rs1 aq rl) s = .next t)) →
    s.scSucceeds (s.readReg rs1).toNat n = true →
    ∀ (k : Nat) (u : Hart), (s.before ++ s.after)[k]? = some u →
      ∃ v : Hart, (t.before ++ t.after)[k]? = some v ∧ (u.res = none → v.res = none) ∧
        ∀ r, u.res = some r →
          ((∃ b, (s.readReg rs1).toNat ≤ b ∧ b < (s.readReg rs1).toNat + n ∧ inSet r.set b = true) → v.res = none) ∧
          (¬(∃ b, (s.readReg rs1).toNat ≤ b ∧ b < (s.readReg rs1).toNat + n ∧ inSet r.set b = true) →
            v.res = some r)

/-- R76 item 1: an SC whose hart holds no reservation, or one whose set lacks a byte to be written, fails. -/
def Obligations.ScOutsideTheReservationFails : Prop :=
  ∀ (s : State) (i : Instr) (rd rs2 rs1 : Reg) (aq rl : Bool) (n : Nat),
    ((n = 4 ∧ i = .scW rd rs2 rs1 aq rl) ∨ (n = 8 ∧ i = .scD rd rs2 rs1 aq rl ∧ s.xlen = .rv64)) →
    (s.readReg rs1).toNat % n = 0 → missesText s.params (s.readReg rs1).toNat n →
    allLrsc s.params (s.readReg rs1).toNat n →
    (∀ r, s.hart.res = some r → ∃ k, k < n ∧ inSet r.set ((s.readReg rs1).toNat + k) = false) →
    ∃ t, exec i s = .next t ∧ sameMem s t ∧ (rd ≠ 0 → t.readReg rd ≠ 0)

/-- R76 item 4: an SC after another SC of the same hart, with no LR of the hart between, fails, whatever the addresses and the
outcome of the first. Directly after it, it changes no memory and leaves a nonzero code, whatever the choices; in any
execution, with any other steps of this and other agents between, it is recorded as failed, with nothing written. -/
def Obligations.SecondScFails : Prop :=
  (∀ (s t u : State) (rd rs2 rs1 rd' rs2' rs1' : Reg) (aq rl aq' rl' : Bool) (later : List Choice),
    (exec (.scW rd rs2 rs1 aq rl) s = .next t ∨ exec (.scD rd rs2 rs1 aq rl) s = .next t) →
    (exec (.scW rd' rs2' rs1' aq' rl') { t with script := later } = .next u ∨
      exec (.scD rd' rs2' rs1' aq' rl') { t with script := later } = .next u) →
    sameMem t u ∧ (rd' ≠ 0 → u.readReg rd' ≠ 0)) ∧
  ∀ (r : Execution) (h n m a size a' size' : Nat) (aq rl ok aq' rl' ok' : Bool) (bytes bytes' : List Byte),
    r.valid → n < m → Event.sc h a size aq rl ok bytes ∈ r.added n →
    (∀ k, n < k → k < m → ∀ b i p q bs set, Event.lr h b i p q bs set ∉ r.added k) →
    Event.sc h a' size' aq' rl' ok' bytes' ∈ r.added m → ok' = false ∧ bytes' = []

/-- R77: success is a draw. An SC that may succeed succeeds under some choices of the step and fails under others; one that may
not always fails. -/
def Obligations.ScThatMaySucceedMayAlsoFail : Prop :=
  ∀ (s : State) (i : Instr) (rd rs2 rs1 : Reg) (aq rl : Bool) (n : Nat),
    ((n = 4 ∧ i = .scW rd rs2 rs1 aq rl) ∨ (n = 8 ∧ i = .scD rd rs2 rs1 aq rl ∧ s.xlen = .rv64)) →
    (s.readReg rs1).toNat % n = 0 → missesText s.params (s.readReg rs1).toNat n →
    allLrsc s.params (s.readReg rs1).toNat n →
    ((∃ r, s.hart.res = some r ∧ ∀ k, k < n → inSet r.set ((s.readReg rs1).toNat + k) = true) ↔
      ∃ c t bytes, exec i { s with script := [c] } = .next t ∧
        t.hist = s.hist ++ [.sc s.self (s.readReg rs1).toNat n aq rl true bytes] ∧ t.readReg rd = 0) ∧
    (∃ c t, exec i { s with script := [c] } = .next t ∧
      t.hist = s.hist ++ [.sc s.self (s.readReg rs1).toNat n aq rl false []] ∧ sameMem s t ∧
      (rd ≠ 0 → t.readReg rd ≠ 0))

/-- R79: every nonzero value of the result width can be the failure code: for SC.W the sign extension of any nonzero 32-bit
value, for SC.D any nonzero 64-bit value. -/
def Obligations.AnyNonzeroFailureCodeIsPossible : Prop :=
  ∀ (s : State) (rd rs2 rs1 : Reg) (aq rl : Bool), rd ≠ 0 →
    ((s.readReg rs1).toNat % 4 = 0 → missesText s.params (s.readReg rs1).toNat 4 →
      allLrsc s.params (s.readReg rs1).toNat 4 → ∀ v : BitVec 32, v ≠ 0 →
      ∃ c t, exec (.scW rd rs2 rs1 aq rl) { s with script := [c] } = .next t ∧ t.readReg rd = sextTo s.xlen v) ∧
    (s.xlen = .rv64 → (s.readReg rs1).toNat % 8 = 0 → missesText s.params (s.readReg rs1).toNat 8 →
      allLrsc s.params (s.readReg rs1).toNat 8 → ∀ v : BitVec 64, v ≠ 0 →
      ∃ c t, exec (.scD rd rs2 rs1 aq rl) { s with script := [c] } = .next t ∧ t.readReg rd = v)

/-- R84: an SC pairs with the latest LR whatever its address and size. After an LR.D at `a` an SC.W at `a` or at `a + 4` and an
SC.D at `a` may succeed; after an LR.W under choices of the reference simulator an SC.D at the same address must fail. -/
def Obligations.ScPairsAcrossAddressesAndSizes : Prop :=
  ∀ (s t : State) (rd rs1 : Reg) (aq rl : Bool),
    (exec (.lrD rd rs1 aq rl) s = .next t →
      t.maySucceed (s.readReg rs1).toNat 4 = true ∧ t.maySucceed ((s.readReg rs1).toNat + 4) 4 = true ∧
      t.maySucceed (s.readReg rs1).toNat 8 = true) ∧
    (exec (.lrW rd rs1 aq rl) s = .next t → s.choice.isReference = true →
      t.maySucceed (s.readReg rs1).toNat 4 = true ∧ t.maySucceed (s.readReg rs1).toNat 8 = false)

/-- R52, R104: under any choices of the reference simulator an SC directly after an LR of the same size by the same hart to the
same address succeeds. -/
def Obligations.ReferencePairSucceeds : Prop :=
  ∀ (s t : State) (l c : Instr) (rd rs1 rd' rs2 rs1' : Reg) (aq rl aq' rl' : Bool) (n : Nat) (draw : Choice),
    ((n = 4 ∧ l = .lrW rd rs1 aq rl ∧ c = .scW rd' rs2 rs1' aq' rl') ∨
      (n = 8 ∧ l = .lrD rd rs1 aq rl ∧ c = .scD rd' rs2 rs1' aq' rl')) →
    exec l s = .next t → t.readReg rs1' = s.readReg rs1 → draw.isReference = true →
    ∃ u, exec c { t with script := [draw] } = .next u ∧ u.readReg rd' = 0 ∧
      ∀ k, k < n → u.mem.readByte ((s.readReg rs1).toNat + k) =
        BitVec.ofNat 8 ((t.readReg rs2).toNat / 256 ^ k)

/-- R47: the ordering bits change no register, no memory, no reservation and no success; only the recorded event tells them
apart. -/
def Obligations.OrderingBitsChangeNoResult : Prop :=
  ∀ (s : State) (rd rs2 rs1 : Reg) (aq rl aq' rl' : Bool),
    mapNext (fun t => { t with hist := [] }) (exec (.lrW rd rs1 aq rl) s) =
      mapNext (fun t => { t with hist := [] }) (exec (.lrW rd rs1 aq' rl') s) ∧
    mapNext (fun t => { t with hist := [] }) (exec (.scW rd rs2 rs1 aq rl) s) =
      mapNext (fun t => { t with hist := [] }) (exec (.scW rd rs2 rs1 aq' rl') s) ∧
    (s.xlen = .rv64 →
      mapNext (fun t => { t with hist := [] }) (exec (.lrD rd rs1 aq rl) s) =
        mapNext (fun t => { t with hist := [] }) (exec (.lrD rd rs1 aq' rl') s) ∧
      mapNext (fun t => { t with hist := [] }) (exec (.scD rd rs2 rs1 aq rl) s) =
        mapNext (fun t => { t with hist := [] }) (exec (.scD rd rs2 rs1 aq' rl') s))

/-! ### Exceptions -/

/-- R27, R28: a misaligned LR or SC always raises one of the two exceptions, the one the parameter names, of the load kind for
LR and of the store kind for SC. -/
def Obligations.MisalignedLrScAlwaysRaises : Prop :=
  ∀ (s : State) (i : Instr) (kind : AccessKind) (rd rs2 rs1 : Reg) (aq rl : Bool) (n : Nat),
    ((n = 4 ∧ kind = .load ∧ i = .lrW rd rs1 aq rl) ∨ (n = 8 ∧ kind = .load ∧ i = .lrD rd rs1 aq rl ∧ s.xlen = .rv64) ∨
      (n = 4 ∧ kind = .storeAMO ∧ i = .scW rd rs2 rs1 aq rl) ∨
      (n = 8 ∧ kind = .storeAMO ∧ i = .scD rd rs2 rs1 aq rl ∧ s.xlen = .rv64)) →
    (s.readReg rs1).toNat % n ≠ 0 →
    (s.params.misaligned = .addressMisaligned → exec i s = .fault (.addressMisaligned kind (s.readReg rs1))) ∧
    (s.params.misaligned = .accessFault → exec i s = .fault (.accessFault kind (s.readReg rs1)))

/-- R50: an aligned LR or SC whose bytes meet the program text is refused, wherever the regions lie. -/
def Obligations.LrScToTheTextIsRefused : Prop :=
  ∀ (s : State) (i : Instr) (rd rs2 rs1 : Reg) (aq rl : Bool) (n : Nat),
    ((n = 4 ∧ (i = .lrW rd rs1 aq rl ∨ i = .scW rd rs2 rs1 aq rl)) ∨
      (n = 8 ∧ s.xlen = .rv64 ∧ (i = .lrD rd rs1 aq rl ∨ i = .scD rd rs2 rs1 aq rl))) →
    (s.readReg rs1).toNat % n = 0 →
    (∃ e ∈ s.params.text, ∃ k, k < n ∧ e.1 ≤ (s.readReg rs1).toNat + k ∧ (s.readReg rs1).toNat + k < e.1 + 4) →
    exec i s = .refused .textAccess

/-- R116, R118: a fault leaves memory, history, the other harts, and the registers and pc of its hart as they were; the hart is
stopped; its reservation is what it was or none, and after an exception of an LR or SC both are possible (R72). -/
def Obligations.FaultLeavesAllButTheReservation : Prop :=
  ∀ (s : State) (f : Fault),
    (s.kept f).mem = s.mem ∧ (s.kept f).hist = s.hist ∧ sameOthers s (s.kept f) ∧ (s.kept f).params = s.params ∧
    (∀ q, (s.kept f).readReg q = s.readReg q) ∧ (s.kept f).pc = s.pc ∧ (s.kept f).hart.status = .faulted f ∧
    ((s.kept f).hart.res = s.hart.res ∨ (s.kept f).hart.res = none) ∧
    (∀ kind a, f = .addressMisaligned kind a ∨ f = .accessFault kind a →
      (∃ c : Choice, (State.kept { s with script := [c] } f).hart.res = s.hart.res) ∧
      (∃ c : Choice, (State.kept { s with script := [c] } f).hart.res = none)) ∧
    ((∀ kind a, f ≠ .addressMisaligned kind a ∧ f ≠ .accessFault kind a) → (s.kept f).hart.res = s.hart.res) ∧
    (step s = .fault f → (advance s).harts = (s.kept f).harts ∧ (advance s).mem = s.mem ∧ (advance s).hist = s.hist)

/-- R116: the hart stops. A hart that a fault or a refusal has stopped keeps its registers and pc and stays stopped, whatever the
machine does. That the other harts go on is the model's choice (log entry 12). -/
def Obligations.StoppedHartStaysStopped : Prop :=
  ∀ (s : State) (h : Nat) (t : Hart), s.harts[h]? = some t → t.status ≠ .running →
    ∃ u, (advance s).harts[h]? = some u ∧ u.x = t.x ∧ u.pc = t.pc ∧ u.status = t.status

/-! ### Auxiliary instructions -/

/-- R106: ADDI, all of it: the sum is modulo `2^XLEN`, and it always completes. -/
def Obligations.AddiAddsModulo : Prop :=
  ∀ (s : State) (rd rs1 : Reg) (imm : BitVec 12),
    ∃ t, exec (.addi rd rs1 imm) s = .next t ∧ t.pc.toNat = (s.pc.toNat + 4) % 2 ^ s.xlen.bits ∧
      (rd ≠ 0 → ((t.readReg rd).toNat : Int) = ((s.readReg rs1).toNat + imm.toInt) % 2 ^ s.xlen.bits)

/-- R107: BNE, all of it: taken when the registers differ, to the branch's own address and the offset, modulo `2^XLEN`; a taken
branch to an address that is no multiple of 4 raises the exception with that address. -/
def Obligations.BneBranchesWhenUnequal : Prop :=
  ∀ (s : State) (rs1 rs2 : Reg) (off : BitVec 13) (a : Word),
    (a.toNat : Int) = (s.pc.toNat + off.toInt) % 2 ^ s.xlen.bits →
    (s.readReg rs1 = s.readReg rs2 →
      ∃ t, exec (.bne rs1 rs2 off) s = .next t ∧ t.pc.toNat = (s.pc.toNat + 4) % 2 ^ s.xlen.bits) ∧
    (s.readReg rs1 ≠ s.readReg rs2 → a.toNat % 4 = 0 → ∃ t, exec (.bne rs1 rs2 off) s = .next t ∧ t.pc = a) ∧
    (s.readReg rs1 ≠ s.readReg rs2 → a.toNat % 4 ≠ 0 →
      exec (.bne rs1 rs2 off) s = .fault (.instructionAddressMisaligned a))

/-- R108: JALR, all of it: the target is the old base and the immediate, modulo `2^XLEN`, with bit 0 cleared; the link is the
address of the next instruction; a target that is no multiple of 4 raises the exception with it. -/
def Obligations.JalrJumpsAndLinks : Prop :=
  ∀ (s : State) (rd rs1 : Reg) (imm : BitVec 12) (a : Word),
    (∃ v : Nat, (v : Int) = ((s.readReg rs1).toNat + imm.toInt) % 2 ^ s.xlen.bits ∧ a.toNat = v - v % 2) →
    (a.toNat % 4 = 0 → ∃ t, exec (.jalr rd rs1 imm) s = .next t ∧ t.pc = a ∧
      (rd ≠ 0 → (t.readReg rd).toNat = (s.pc.toNat + 4) % 2 ^ s.xlen.bits)) ∧
    (a.toNat % 4 ≠ 0 → exec (.jalr rd rs1 imm) s = .fault (.instructionAddressMisaligned a))

/-- The frame of ADDI, BNE and JALR: no register but `rd` (none for BNE), no memory, no reservation, no event, no other hart. -/
def Obligations.AuxiliaryChangesNothingElse : Prop :=
  ∀ (s t : State) (rd rs1 rs2 : Reg) (imm : BitVec 12) (off : BitVec 13),
    (exec (.addi rd rs1 imm) s = .next t ∨ exec (.jalr rd rs1 imm) s = .next t →
      sameRegsBut rd s t ∧ sameMem s t ∧ sameOthers s t ∧ sameMachine s t ∧ t.hist = s.hist ∧
        t.hart.res = s.hart.res) ∧
    (exec (.bne rs1 rs2 off) s = .next t →
      (∀ q, t.readReg q = s.readReg q) ∧ sameMem s t ∧ sameOthers s t ∧ sameMachine s t ∧ t.hist = s.hist ∧
        t.hart.res = s.hart.res)

/-! ### Registers, memory, devices -/

/-- R11: register 0 reads as zero and discards writes; so it does after any instruction. -/
def Obligations.RegisterZeroIsHardwired : Prop :=
  ∀ (s : State), s.readReg 0 = 0 ∧ (∀ v, s.writeReg 0 v = s) ∧
    ∀ (i : Instr) (t : State), exec i s = .next t → t.readReg 0 = 0

/-- R25: after a doubleword is written, the word at its address is its low half and the word four bytes up its high half; the byte
at address `a + k` is bits `8k+7` to `8k`. -/
def Obligations.MemoryIsLittleEndian : Prop :=
  ∀ (m : Memory) (a : Nat) (v : Word),
    (leValue ((m.writeBytes a (leBytes 8 v)).readBytes a 4)).toNat = v.toNat % 2 ^ 32 ∧
    (leValue ((m.writeBytes a (leBytes 8 v)).readBytes (a + 4) 4)).toNat = v.toNat / 2 ^ 32 ∧
    ∀ k, k < 8 → (m.writeBytes a (leBytes 8 v)).readByte (a + k) = BitVec.ofNat 8 (v.toNat / 2 ^ (8 * k))

/-- R81, R90, the rule for devices: a device's write takes a reservation when it meets the LR's bytes; when it meets only the
rest of the set, it takes it or not as drawn; otherwise it leaves it. Registers, pc and status are as before. -/
def Obligations.DeviceWriteTakesReservations : Prop :=
  ∀ (s : State) (d a : Nat) (bytes : List Byte) (loses : List Nat) (h : Nat) (u : Hart),
    s.params.memOrder = .interleaved → s.harts[h]? = some u →
    ∃ v, (s.deviceStore d a bytes loses).harts[h]? = some v ∧ v.x = u.x ∧ v.pc = u.pc ∧ v.status = u.status ∧
      (u.res = none → v.res = none) ∧
      ∀ r, u.res = some r →
        ((∃ b, a ≤ b ∧ b < a + bytes.length ∧ r.lrAddr ≤ b ∧ b < r.lrAddr + r.lrSize) → v.res = none) ∧
        (¬(∃ b, a ≤ b ∧ b < a + bytes.length ∧ r.lrAddr ≤ b ∧ b < r.lrAddr + r.lrSize) →
          (∃ b, a ≤ b ∧ b < a + bytes.length ∧ inSet r.set b = true) →
          v.res = if h ∈ loses then none else some r) ∧
        (¬(∃ b, a ≤ b ∧ b < a + bytes.length ∧ r.lrAddr ≤ b ∧ b < r.lrAddr + r.lrSize) →
          ¬(∃ b, a ≤ b ∧ b < a + bytes.length ∧ inSet r.set b = true) → v.res = some r)

/-- R126: a device's step completes; it changes only bytes of the regions, and no hart but for its reservation. Any write of bytes
of the regions is possible, with any draw of the reservations it takes, also under choices of the reference simulator: the step is
then `State.deviceStore`. -/
def Obligations.DeviceStepWritesRegionBytesOnly : Prop :=
  ∀ (s : State) (d : Nat), s.turn = .device d →
    (∃ t, step s = .next t ∧ (∀ b, s.mapped b = false → t.mem.readByte b = s.mem.readByte b) ∧
      t.harts.map (fun u => (u.x, u.pc, u.status)) = s.harts.map (fun u => (u.x, u.pc, u.status))) ∧
    ∀ (a : Nat) (bytes : List Byte) (loses : List Nat), bytes ≠ [] →
      (∀ k, k < bytes.length → ∃ r ∈ s.params.regions, r.bytes.lo ≤ a + k ∧ a + k < r.bytes.lo + r.bytes.len) →
      ∃ (c : Choice) (t : State), c.isReference = true ∧ step { s with script := [c] } = .next t ∧
        (∀ k b, bytes[k]? = some b → t.mem.readByte (a + k) = b) ∧
        (∀ b, b < a ∨ a + bytes.length ≤ b → t.mem.readByte b = s.mem.readByte b) ∧
        t.hist = s.hist ++ [.deviceWrite d a bytes] ∧ t.harts = (s.deviceStore d a bytes loses).harts

/-! ### Invariants -/

/-- Every step keeps the canonical form of memory. -/
def Obligations.StepKeepsMemoryCanonical : Prop :=
  ∀ s t : State, s.mem.wf → step s = .next t → t.mem.wf

/-- R15: every step keeps every pc a multiple of 4. -/
def Obligations.StepKeepsEveryPcAligned : Prop :=
  ∀ s t : State, s.pcsAligned → step s = .next t → t.pcsAligned

/-- R10, R11, R14: every step keeps every register and pc within XLEN bits, and the cell of register 0 zero. -/
def Obligations.StepKeepsRegistersWithinXlen : Prop :=
  ∀ s t : State, s.fits → step s = .next t → t.fits

/-- R16: every step keeps the bytes accessed by the LR within the set of every reservation. -/
def Obligations.StepKeepsReservationsCoveringTheirLr : Prop :=
  ∀ s t : State, s.reservationsCoverLr → step s = .next t → t.reservationsCoverLr

/-- R6, R22: no step changes a parameter, the program text among them, or the number of harts. -/
def Obligations.StepKeepsParametersAndHarts : Prop :=
  ∀ s t : State, step s = .next t → t.params = s.params ∧ t.harts.length = s.harts.length

/-- R23: the machine only appends to the history, at most one event a step. -/
def Obligations.HistoryOnlyGrows : Prop :=
  ∀ s t : State, step s = .next t → t.hist = s.hist ∨ ∃ e, t.hist = s.hist ++ [e]

/-- R75, R76, R90: with interleaved steps and any number of harts and devices, every step keeps this: every reservation held
stands against all that happened since its LR, and every successful SC of the history is justified, in the order of the
events. -/
def Obligations.StepKeepsEverySuccessfulScJustified : Prop :=
  ∀ s t : State, s.params.memOrder = .interleaved → s.reservationsStand → scJustified s.hist (Witness.inOrder s.hist) →
    step s = .next t → t.reservationsStand ∧ scJustified t.hist (Witness.inOrder t.hist)

/-- R33, R52: with interleaved steps every step keeps this: memory is what the history made of the launch memory, and every LR of
the history returned the latest bytes written before it. -/
def Obligations.StepKeepsReadsLatest : Prop :=
  ∀ (mem0 : Memory) (s t : State), s.params.memOrder = .interleaved → State.memFromHist mem0 s → readsLatest mem0 s.hist →
    step s = .next t → State.memFromHist mem0 t ∧ readsLatest mem0 t.hist

/-- R44, R52: where every LR of a history returned the latest bytes written before it, the witness that says so explains the
history: each byte comes from the last event that wrote it, or from the launch memory. What the writes in the order of the history
leave is then the memory the witness gives. -/
def Obligations.LatestBytesHaveTheirSource : Prop :=
  ∀ (mem0 : Memory) (hist : List Event), readsLatest mem0 hist →
    (Witness.inOrder hist).explains mem0 hist ∧ (Witness.inOrder hist).finalMemory mem0 hist (replay mem0 hist)

/-- R40, R52: a history whose successful SCs are justified in the order of its events satisfies, observed in that order, every
item a memory model must enforce: that order is an observation, each byte an LR reads being the one written last before it. -/
def Obligations.JustifiedHistoriesMeetTheOrderItems : Prop :=
  ∀ hist : List Event, scJustified hist (Witness.inOrder hist) → OrderItems hist (Witness.inOrder hist)

/-! ### What every memory model forbids -/

/-- R76 item 2, R40: no update is lost. Where a history meets what every memory model must enforce, two harts' successful SCs do not
both write a byte that their LRs read from one and the same write (or both from the launch memory). That observations are orders
that agree with the values read is the model's choice (log entry 32). -/
def Obligations.NoUpdateIsLost : Prop :=
  ∀ (hist : List Event) (w : Witness) (h g i j i' j' a n b m a' n' b' m' x : Nat) (aq rl aq' rl' : Bool)
    (set set' : List ByteRange) (bytes bytes' : List Byte),
    OrderItems hist w → h ≠ g →
    latestLr hist i j h a n set → hist[j]? = some (.sc h b m aq rl true bytes) →
    latestLr hist i' j' g a' n' set' → hist[j']? = some (.sc g b' m' aq' rl' true bytes') →
    writesAt hist j x → writesAt hist j' x →
    (a ≤ x ∧ x < a + n) → (b ≤ x ∧ x < b + m) → (a' ≤ x ∧ x < a' + n') → (b' ≤ x ∧ x < b' + m') →
    w.source i x ≠ w.source i' x

/-- R32: an LR does not return some bytes from before a write and others from it or after it. Where a history meets what every memory
model must enforce, of two bytes of one LR that one write wrote, not one is from a write older than that one (or the launch
memory) and the other from it or from a newer one, for any observer. -/
def Obligations.ReadsAreNotTorn : Prop :=
  ∀ (hist : List Event) (w : Witness) (o i j h a n x y : Nat) (aq rl : Bool) (bytes : List Byte) (set : List ByteRange),
    OrderItems hist w → hist[i]? = some (.lr h a n aq rl bytes set) →
    (a ≤ x ∧ x < a + n) → (a ≤ y ∧ y < a + n) → writesAt hist j x → writesAt hist j y →
    (w.source i x = none ∨ ∃ s, w.source i x = some s ∧ w.before o s j) →
    ¬ ∃ t, w.source i y = some t ∧ (t = j ∨ w.before o j t)

/-- R41 to R43, R45: the reorderings the source excludes. First, a hart that has read a byte of an SC does no store, observed by it
after that read, that the SC's LR reads, or is observed after. Second, with `rl` on the SC and `aq` on the LR that reads from it, a
later LR does not miss what the SC's hart wrote before it. Third, of two sequences with `aq` on the LR and both bits on the SC,
of two harts: where an LR after the one misses what the SC of the other wrote, its hart observes that sequence and that LR before
every memory operation after the other. -/
def Obligations.OrderingForbidsReorderings : Prop :=
  ∀ (hist : List Event) (w : Witness), OrderItems hist w →
    (∀ (h g i j k l a n b m c e x : Nat) (aq rl aq' rl' p q : Bool) (set set' : List ByteRange) (bytes bytes' sbytes : List Byte),
      g ≠ h → latestLr hist i j h a n set → hist[i]? = some (.lr h a n aq rl bytes set) →
      hist[j]? = some (.sc h b m aq' rl' true sbytes) → hist[l]? = some (.lr g c e p q bytes' set') →
      (c ≤ x ∧ x < c + e) → w.source l x = some j → w.before g l k →
      ¬ w.before g k i ∧ ∀ y, a ≤ y → y < a + n → w.source i y ≠ some k) ∧
    (∀ (h g k j i l a n b m c e x y : Nat) (aq rl p q : Bool) (set set' : List ByteRange)
      (sbytes bytes bytes' : List Byte) (early : Event),
      hist[k]? = some early → early.memOpOf h = true → k < j → writesAt hist k y →
      hist[j]? = some (.sc h b m aq true true sbytes) →
      hist[i]? = some (.lr g a n true rl bytes set) → (a ≤ x ∧ x < a + n) → w.source i x = some j →
      i < l → hist[l]? = some (.lr g c e p q bytes' set') → (c ≤ y ∧ y < c + e) →
      ∃ s, w.source l y = some s ∧ ∀ o, s = k ∨ w.before o k s) ∧
    (∀ (o h g i j l i' j' k a n b m c e a' n' b' m' y : Nat) (rl rl' p q : Bool) (set set' lset : List ByteRange)
      (bytes bytes' sbytes sbytes' lbytes : List Byte) (late : Event),
      hist[i]? = some (.lr h a n true rl bytes set) → latestLr hist i j h a n set →
      hist[j]? = some (.sc h b m true true true sbytes) →
      j < l → hist[l]? = some (.lr h c e p q lbytes lset) → (c ≤ y ∧ y < c + e) →
      hist[i']? = some (.lr g a' n' true rl' bytes' set') → latestLr hist i' j' g a' n' set' →
      hist[j']? = some (.sc g b' m' true true true sbytes') → writesAt hist j' y →
      j' < k → hist[k]? = some late → late.memOpOf g = true →
      (w.source l y = none ∨ ∃ s, w.source l y = some s ∧ w.before o s j') →
      w.before h i k ∧ w.before h j k ∧ w.before h l k)

/-- The machine after reset meets every invariant. -/
def Obligations.ResetMeetsTheInvariants : Prop :=
  State.reset.mem.wf ∧ State.reset.pcsAligned ∧ State.reset.fits ∧ State.reset.reservationsCoverLr ∧
    State.reset.reservationsStand ∧ scJustified State.reset.hist (Witness.inOrder State.reset.hist) ∧
    State.memFromHist [] State.reset ∧ readsLatest [] State.reset.hist ∧ State.reset.params.memOrder = .interleaved

/-- R24, R129: at the start of a run every hart stands at its entry without a reservation and register 0 is zero, memory is the
launch memory and the history is empty. The other registers hold 0, which is the model's choice (log entry 3). -/
def Obligations.StartOfARun : Prop :=
  ∀ (p : Params) (entry : Word) (others : List Word) (mem0 : Memory),
    (State.start p entry others mem0).mem = mem0 ∧ (State.start p entry others mem0).hist = [] ∧
    (State.start p entry others mem0).params = p ∧
    (State.start p entry others mem0).harts.map (fun t => t.pc) = entry :: others ∧
    ∀ t ∈ (State.start p entry others mem0).harts, t.res = none ∧ t.status = .running ∧ ∀ r : Reg, t.x[r] = 0

/-! ### Constrained loops -/

/-- R91 to R96: a list of executed instructions that the check of constrained loops lets pass is one failed attempt, all of it with
the five properties: at most 16 words of text at consecutive addresses, executed or not the LR, one SC and base instructions that
are no load, store, JALR, FENCE or SYSTEM; none executed twice; first the LR, last one that goes back to it; an SC of the same size
to the same address, which fails, all their bytes in regions with the eventuality property (of the bytes past the address the
model's choice, log entry 35); between them only what R93 allows, and after the SC only what R94 allows. -/
def Obligations.ConstrainedPassHasTheFiveProperties : Prop :=
  ∀ (p : Params) (l : CodeLoop) (es : List Executed), constrainedPass p l es = true →
    l.len ≤ 16 ∧
    (∀ k, k < l.len → ∃ w, textAt p.text (l.base + 4 * k) = some w ∧
      if l.base + 4 * k = l.lr then (lrSizeOf p.xlen w).isSome = true
      else (scSizeOf p.xlen w).isSome = true ∨ classOf p.xlen w = .baseOther ∨ classOf p.xlen w = .branch ∨
        classOf p.xlen w = .jump) ∧
    (∀ k k' w w', k < l.len → k' < l.len → textAt p.text (l.base + 4 * k) = some w →
      textAt p.text (l.base + 4 * k') = some w' → (scSizeOf p.xlen w).isSome = true → (scSizeOf p.xlen w').isSome = true →
      k = k') ∧
    (∀ e ∈ es, l.base ≤ e.pc.toNat ∧ e.pc.toNat < l.base + 4 * l.len) ∧ (es.map (fun e => e.pc)).Nodup ∧
    (∃ e ∈ es.getLast?, e.next.toNat = l.lr) ∧
    ∃ (between retry : List Executed) (lr sc : Executed) (n : Nat),
      es = lr :: between ++ sc :: retry ∧
      lr.pc.toNat = l.lr ∧ lrSizeOf p.xlen lr.word = some n ∧
      scSizeOf p.xlen sc.word = some n ∧ sc.addr = lr.addr ∧ sc.stored = false ∧
      (∀ k, k < n → ∃ r ∈ p.regions, r.eventuality = true ∧ r.bytes.lo ≤ lr.addr.toNat + k ∧
        lr.addr.toNat + k < r.bytes.lo + r.bytes.len) ∧
      (∀ e ∈ between, e.betweenOk p.xlen = true) ∧ (∀ e ∈ retry, e.retryOk p.xlen l = true)

/-- R101: a consequence of the eventuality guarantee. Of some harts that execute constrained loops, one exits its loop, if as long as
none has done so each goes on without a trap, no device writes the reservation set of one of them, and no other hart stores to
it (its stores are successful SCs, R80). -/
def Obligations.SomeHartLeavesItsLoop : Prop :=
  ∀ (r : Execution) (looping : List Nat) (l : Nat → CodeLoop) (start : Nat → Nat) (now : Nat),
    r.valid → LrScEventuality r → looping ≠ [] →
    (∀ h ∈ looping, start h ≤ now ∧ r.constrainedFrom h (l h) (start h) ∧ r.stays h (l h) (start h) (now + 1)) →
    (∀ n, now < n → (∀ h ∈ looping, r.stays h (l h) (start h) n) → ∀ h ∈ looping,
      ¬ r.traps h n ∧ (∃ k, r.completes h (n + k)) ∧
      ∀ m set, now ≤ m → m < n → r.inside h (l h) (start h) m set →
        ¬ r.writeTo set n ∧
        ∀ g a size aq rl bytes, Event.sc g a size aq rl true bytes ∈ r.added n → meetsBytes set a size = true → g ∈ looping) →
    ∃ h ∈ looping, ∃ n, now < n ∧ r.exits h (l h) n

/-- R104: under the reference simulator, with a single hart and no devices, the premise holds. -/
def Obligations.LoneReferenceHartMakesProgress : Prop :=
  ∀ r : Execution, r.valid → r.launched → r.isReference → (r.state 0).harts.length = 1 → (r.state 0).params.devices = 0 →
    LrScEventuality r
end

