-- ==== Sys2Proof/Laws/Decode.lean ====
section
/-! SUPPORT. Everything the decoder can answer, that no two rows share a word, and what numbers the fields are. -/

namespace Sys2Proof

theorem OpcodeRow.hits_iff (r : OpcodeRow) (w : InstrWord) : r.hits w = true ↔ w &&& r.mask = r.pattern := by
  simp [OpcodeRow.hits]

/-- A word of one row is of no row disjoint from it. -/
theorem OpcodeRow.hits_false_of_disjoint {r q : OpcodeRow} {w : InstrWord} (hr : r.hits w = true)
    (hd : r.disjoint q = true) : q.hits w = false := by
  rw [Bool.eq_false_iff]
  intro hq
  simp only [OpcodeRow.hits, beq_iff_eq] at hr hq
  simp only [OpcodeRow.disjoint, bne_iff_ne, ne_eq] at hd
  apply hd
  rw [← hr, ← hq]
  ext k hk
  simp
  cases w[k] <;> cases r.mask[k] <;> cases q.mask[k] <;> simp

/-- No word is of two rows (R61). -/
theorem opcodeTable_hits_unique {r q : OpcodeRow} {w : InstrWord} (hr : r ∈ opcodeTable) (hq : q ∈ opcodeTable)
    (hne : r ≠ q) (h : r.hits w = true) : q.hits w = false :=
  OpcodeRow.hits_false_of_disjoint h
    ((by decide : ∀ r ∈ opcodeTable, ∀ q ∈ opcodeTable, r ≠ q → r.disjoint q = true) r hr q hq hne)

/-- Everything the decoder can answer (R61, R63 to R66). -/
theorem decodeWord_cases (x : Xlen) (w : InstrWord) :
    (rowLrW.hits w = true ∧ decodeWord x w = .ok (.lrW (fieldRd w) (fieldRs1 w) (fieldAq w) (fieldRl w))) ∨
    (rowLrD.hits w = true ∧ decodeWord x w =
      if x = .rv64 then .ok (.lrD (fieldRd w) (fieldRs1 w) (fieldAq w) (fieldRl w)) else .error (.illegal w)) ∨
    (rowScW.hits w = true ∧
      decodeWord x w = .ok (.scW (fieldRd w) (fieldRs2 w) (fieldRs1 w) (fieldAq w) (fieldRl w))) ∨
    (rowScD.hits w = true ∧ decodeWord x w =
      if x = .rv64 then .ok (.scD (fieldRd w) (fieldRs2 w) (fieldRs1 w) (fieldAq w) (fieldRl w))
      else .error (.illegal w)) ∨
    (rowAddi.hits w = true ∧ decodeWord x w = .ok (.addi (fieldRd w) (fieldRs1 w) (fieldImmI w))) ∨
    (rowBne.hits w = true ∧ decodeWord x w = .ok (.bne (fieldRs1 w) (fieldRs2 w) (fieldImmB w))) ∨
    (rowJalr.hits w = true ∧ decodeWord x w = .ok (.jalr (fieldRd w) (fieldRs1 w) (fieldImmI w))) ∨
    ((∀ r ∈ opcodeTable, r.hits w = false) ∧
      decodeWord x w = if isLrScSpace w then .error (.illegal w) else .error (.notInScope w)) := by
  unfold decodeWord
  by_cases h1 : rowLrW.hits w = true
  · simp [h1]
  by_cases h2 : rowLrD.hits w = true
  · simp [h1, h2]; cases x <;> simp
  by_cases h3 : rowScW.hits w = true
  · simp [h1, h2, h3]
  by_cases h4 : rowScD.hits w = true
  · simp [h1, h2, h3, h4]; cases x <;> simp
  by_cases h5 : rowAddi.hits w = true
  · simp [h1, h2, h3, h4, h5]
  by_cases h6 : rowBne.hits w = true
  · simp [h1, h2, h3, h4, h5, h6]
  by_cases h7 : rowJalr.hits w = true
  · simp [h1, h2, h3, h4, h5, h6, h7]
  refine .inr (.inr (.inr (.inr (.inr (.inr (.inr ⟨?_, ?_⟩))))))
  · simp [opcodeTable] at *; tauto
  · simp [h1, h2, h3, h4, h5, h6, h7]

/-- The word the decoder names as without a row is the one it was given (R66). -/
theorem decodeWord_notInScope {x : Xlen} {w v : InstrWord} (h : decodeWord x w = .error (.notInScope v)) : v = w := by
  rcases decodeWord_cases x w with ⟨_, q⟩ | ⟨_, q⟩ | ⟨_, q⟩ | ⟨_, q⟩ | ⟨_, q⟩ | ⟨_, q⟩ | ⟨_, q⟩ | ⟨_, q⟩ <;> rw [q] at h
  all_goals first
    | contradiction
    | (split at h <;> cases h; rfl)
    | (split at h <;> cases h)

/-- A field is the word's bits as a number. -/
theorem extractLsb'_toNat_div (w : InstrWord) (k n : Nat) : (w.extractLsb' k n).toNat = w.toNat / 2 ^ k % 2 ^ n := by
  simp [BitVec.extractLsb'_toNat, Nat.shiftRight_eq_div_pow]

theorem fieldRd_val (w : InstrWord) : (fieldRd w).val = w.toNat / 2 ^ 7 % 32 := extractLsb'_toNat_div w 7 5
theorem fieldRs1_val (w : InstrWord) : (fieldRs1 w).val = w.toNat / 2 ^ 15 % 32 := extractLsb'_toNat_div w 15 5
theorem fieldRs2_val (w : InstrWord) : (fieldRs2 w).val = w.toNat / 2 ^ 20 % 32 := extractLsb'_toNat_div w 20 5

end Sys2Proof
end

