-- ==== Sys2Proof/Laws/Memory.lean ====
section
/-! SUPPORT. The laws of memory: a write changes the byte written and no other, every operation keeps the canonical form, and
the little-endian assembly of bytes goes there and back. -/

namespace Sys2Proof.Machine

/-! ### One byte -/

theorem Memory.readByte_place (c : Host.Cell) (m : Memory) (a : Nat) (h : ∀ d ∈ m, d.1 ≠ c.1) :
    (Memory.place c m).readByte a = if c.1 = a then c.2 else m.readByte a := by
  induction m with
  | nil => obtain ⟨k, v⟩ := c; simp [Memory.place, Memory.readByte]
  | cons d rest ih =>
    obtain ⟨k, v⟩ := c
    obtain ⟨k', v'⟩ := d
    have hd : k' ≠ k := h (k', v') (by simp)
    have ih := ih (fun e he => h e (by simp [he]))
    simp only [Memory.place]
    split
    · simp [Memory.readByte]
    · simp only [Memory.readByte, ih]
      by_cases h1 : k' = a
      · have : k ≠ a := fun h2 => hd (h1.trans h2.symm)
        simp [h1, this]
      · simp [h1]

theorem Memory.readByte_filter_ne (m : Memory) (a b : Nat) :
    Memory.readByte (m.filter (fun c => c.1 != a)) b = if b = a then Memory.unlisted else m.readByte b := by
  induction m with
  | nil => simp [Memory.readByte]
  | cons d rest ih =>
    obtain ⟨k, v⟩ := d
    by_cases hk : k = a
    · subst hk
      simp only [List.filter_cons, bne_self_eq_false, Bool.false_eq_true, if_false, ih, Memory.readByte]
      by_cases hb : b = k
      · simp [hb]
      · simp [hb, Ne.symm hb]
    · have hk' : (k != a) = true := by simp [hk]
      simp only [List.filter_cons, hk', if_true, Memory.readByte, ih]
      by_cases hkb : k = b
      · subst hkb; simp [hk]
      · simp [hkb]

/-- A byte after a write of one byte. -/
theorem Memory.readByte_writeByte (m : Memory) (a b : Nat) (v : Byte) :
    (m.writeByte a v).readByte b = if b = a then v else m.readByte b := by
  unfold Memory.writeByte
  by_cases hv : v = Memory.unlisted
  · simp only [hv, if_true, Memory.readByte_filter_ne]
  · simp only [hv, if_false]
    rw [Memory.readByte_place _ _ _ (by intro d hd; simp at hd; exact hd.2)]
    simp only [Memory.readByte_filter_ne]
    by_cases hb : b = a
    · simp [hb]
    · simp [hb, Ne.symm hb]

theorem Memory.place_mem {c d : Host.Cell} {m : Memory} : d ∈ Memory.place c m ↔ d = c ∨ d ∈ m := by
  induction m with
  | nil => simp [Memory.place]
  | cons e rest ih =>
    simp only [Memory.place]
    split
    · simp
    · simp only [List.mem_cons, ih]; tauto

theorem Memory.place_sorted (c : Host.Cell) (m : Memory) (hm : m.Pairwise (fun c d => c.1 < d.1))
    (h : ∀ d ∈ m, d.1 ≠ c.1) : (Memory.place c m).Pairwise (fun c d => c.1 < d.1) := by
  induction m with
  | nil => simp [Memory.place]
  | cons e rest ih =>
    have hrest := (List.pairwise_cons.mp hm).2
    have hhead := (List.pairwise_cons.mp hm).1
    simp only [Memory.place]
    split
    · rename_i hlt
      refine List.pairwise_cons.mpr ⟨?_, hm⟩
      intro d hd
      rcases List.mem_cons.mp hd with rfl | hd
      · exact hlt
      · exact hlt.trans (hhead d hd)
    · rename_i hlt
      refine List.pairwise_cons.mpr ⟨?_, ih hrest (fun d hd => h d (by simp [hd]))⟩
      intro d hd
      rcases Memory.place_mem.mp hd with rfl | hd
      · have := h e (by simp); omega
      · exact hhead d hd

/-- A write of one byte keeps the canonical form. -/
theorem Memory.writeByte_wf {m : Memory} (h : m.wf) (a : Nat) (v : Byte) : (m.writeByte a v).wf := by
  obtain ⟨hs, hv⟩ := h
  have hfs : (m.filter (fun c => c.1 != a)).Pairwise (fun c d => c.1 < d.1) := hs.filter _
  have hfv : ∀ c ∈ m.filter (fun c => c.1 != a), c.2 ≠ Memory.unlisted :=
    fun c hc => hv c (List.mem_of_mem_filter hc)
  unfold Memory.writeByte
  by_cases hu : v = Memory.unlisted
  · simp only [hu, if_true]; exact ⟨hfs, hfv⟩
  · simp only [hu, if_false]
    refine ⟨Memory.place_sorted _ _ hfs (by intro d hd; simp at hd; exact hd.2), ?_⟩
    intro c hc
    rcases Memory.place_mem.mp hc with rfl | hc
    · exact hu
    · exact hfv c hc

/-! ### Several bytes -/

/-- A write of bytes keeps the canonical form. -/
theorem Memory.writeBytes_wf {m : Memory} (h : m.wf) (a : Nat) (bs : List Byte) : (m.writeBytes a bs).wf := by
  induction bs generalizing m a with
  | nil => exact h
  | cons b rest ih => exact ih (Memory.writeByte_wf h a b) (a + 1)

/-- A byte after a write of bytes: the byte written there, and as before outside the bytes written. -/
theorem Memory.readByte_writeBytes (m : Memory) (a b : Nat) (bs : List Byte) :
    (m.writeBytes a bs).readByte b =
      if a ≤ b ∧ b < a + bs.length then bs.getD (b - a) 0 else m.readByte b := by
  induction bs generalizing m a with
  | nil => simp only [Memory.writeBytes, List.length_nil]; rw [if_neg (by omega)]
  | cons v rest ih =>
    simp only [Memory.writeBytes, ih, Memory.readByte_writeByte, List.length_cons]
    by_cases h1 : a + 1 ≤ b ∧ b < a + 1 + rest.length
    · obtain ⟨k, rfl⟩ : ∃ k, b = a + 1 + k := ⟨b - (a + 1), by omega⟩
      rw [if_pos h1, if_pos (by omega)]
      have : a + 1 + k - a = k + 1 := by omega
      simp [this]
    · rw [if_neg h1]
      by_cases h2 : b = a
      · subst h2; simp
      · rw [if_neg h2, if_neg (by omega)]

@[simp] theorem Memory.readBytes_length (m : Memory) (a n : Nat) : (m.readBytes a n).length = n := by
  induction n generalizing a with
  | zero => rfl
  | succ n ih => simp [Memory.readBytes, ih]

/-- Reading bytes that agree byte by byte gives the same list. -/
theorem Memory.readBytes_congr {m m' : Memory} {a n : Nat}
    (h : ∀ k, k < n → m.readByte (a + k) = m'.readByte (a + k)) : m.readBytes a n = m'.readBytes a n := by
  induction n generalizing a with
  | zero => rfl
  | succ n ih =>
    simp only [Memory.readBytes]
    refine congrArg₂ _ (by simpa using h 0 (by omega)) (ih fun k hk => ?_)
    have := h (k + 1) (by omega)
    rwa [show a + 1 + k = a + (k + 1) by omega]

/-- Reading back the bytes just written. -/
theorem Memory.readBytes_writeBytes (m : Memory) (a : Nat) (bs : List Byte) :
    (m.writeBytes a bs).readBytes a bs.length = bs := by
  induction bs generalizing m a with
  | nil => rfl
  | cons b rest ih =>
    simp only [Memory.writeBytes, List.length_cons, Memory.readBytes, ih, Memory.readByte_writeBytes]
    rw [if_neg (by omega)]
    simp [Memory.readByte_writeByte]

/-! ### Values and bytes (R25) -/

@[simp] theorem leBytes_length (n : Nat) (v : Word) : (leBytes n v).length = n := by
  induction n generalizing v with
  | zero => rfl
  | succ n ih => simp [leBytes, ih]

/-- Byte `k` of a value is its bits `8k+7` to `8k` (R25). -/
theorem leBytes_getD (n : Nat) (v : Word) (k : Nat) (h : k < n) :
    (leBytes n v).getD k 0 = BitVec.ofNat 8 (v.toNat / 256 ^ k) := by
  induction n generalizing v k with
  | zero => omega
  | succ n ih =>
    cases k with
    | zero => apply BitVec.eq_of_toNat_eq; simp [leBytes]
    | succ k =>
      simp only [leBytes, List.getD_cons_succ]
      rw [ih _ _ (by omega)]
      congr 1
      simp [Nat.shiftRight_eq_div_pow, Nat.div_div_eq_div_mul, pow_succ, mul_comm]

/-- The value of the low `n` bytes of a value is its low `8n` bits. -/
theorem leValue_leBytes_toNat (n : Nat) (v : Word) (hn : n ≤ 8) :
    (leValue (leBytes n v)).toNat = v.toNat % 2 ^ (8 * n) := by
  induction n generalizing v with
  | zero => simp [leBytes, leValue, Nat.mod_one]
  | succ n ih =>
    have ih := ih (v >>> 8) (by omega)
    have hlt : (leValue (leBytes n (v >>> 8))).toNat < 2 ^ 56 := by
      rw [ih]
      calc _ < 2 ^ (8 * n) := Nat.mod_lt _ (by positivity)
        _ ≤ 2 ^ 56 := Nat.pow_le_pow_right (by norm_num) (by omega)
    have hor : (leValue (leBytes n (v >>> 8)) <<< 8 ||| (v.setWidth 8).setWidth 64).toNat
        = (leValue (leBytes n (v >>> 8))).toNat * 256 + v.toNat % 256 := by
      rw [BitVec.toNat_or, BitVec.toNat_shiftLeft, Nat.shiftLeft_eq]
      rw [Nat.mod_eq_of_lt (by omega)]
      have h8 : ((v.setWidth 8).setWidth 64).toNat = v.toNat % 256 := by simp; omega
      rw [h8, show (2 : Nat) ^ 8 = 256 by norm_num]
      have := Nat.shiftLeft_add_eq_or_of_lt (i := 8) (b := v.toNat % 256) (Nat.mod_lt _ (by norm_num))
        (leValue (leBytes n (v >>> 8))).toNat
      rw [Nat.shiftLeft_eq] at this
      rw [show (2 : Nat) ^ 8 = 256 by norm_num] at this
      exact this.symm
    simp only [leBytes, leValue, hor, ih]
    have hs : (v >>> 8).toNat = v.toNat / 256 := by simp [Nat.shiftRight_eq_div_pow]
    rw [hs, show 8 * (n + 1) = 8 + 8 * n by ring, pow_add, Nat.mod_mul, show (2 : Nat) ^ 8 = 256 by norm_num]
    ring

/-- A doubleword stored and loaded again. -/
theorem leValue_leBytes_eight (v : Word) : leValue (leBytes 8 v) = v := by
  apply BitVec.eq_of_toNat_eq
  rw [leValue_leBytes_toNat 8 v (by omega)]
  exact Nat.mod_eq_of_lt v.isLt

/-- A word stored and loaded again. -/
theorem leValue_leBytes_four (v : Word) : (leValue (leBytes 4 v)).setWidth 32 = v.setWidth 32 := by
  apply BitVec.eq_of_toNat_eq
  simp [leValue_leBytes_toNat 4 v (by omega)]

/-! ### Sets of byte addresses -/

theorem coversBytes_iff {set : List ByteRange} {a n : Nat} :
    coversBytes set a n = true ↔ ∀ k, k < n → inSet set (a + k) = true := by
  simp [coversBytes]

theorem meetsBytes_iff {set : List ByteRange} {a n : Nat} :
    meetsBytes set a n = true ↔ ∃ k, k < n ∧ inSet set (a + k) = true := by
  simp [meetsBytes]

/-- A set whose first range is the bytes themselves holds them. -/
theorem coversBytes_self (a n : Nat) (set : List ByteRange) : coversBytes (⟨a, n⟩ :: set) a n = true := by
  rw [coversBytes_iff]; intro k hk; simp [inSet, inRange, hk]

end Sys2Proof.Machine
end

