-- ==== Sys2Proof/Laws/State.lean ====
section
/-! SUPPORT. What each named update leaves in each field of the state, and what reading a register gives after it. -/

namespace Sys2Proof.Machine

/-! ### Widths -/

theorem truncTo_toNat (x : Xlen) (v : Word) : (truncTo x v).toNat = v.toNat % 2 ^ x.bits := by
  cases x
  · simp [truncTo, Xlen.bits]; omega
  · simp only [truncTo, Xlen.bits]; omega

@[simp] theorem truncTo_truncTo (x : Xlen) (v : Word) : truncTo x (truncTo x v) = truncTo x v := by
  apply BitVec.eq_of_toNat_eq; simp [truncTo_toNat]

theorem truncTo_lt (x : Xlen) (v : Word) : (truncTo x v).toNat < 2 ^ x.bits := by
  rw [truncTo_toNat]; exact Nat.mod_lt _ (by positivity)

@[simp] theorem truncTo_zero (x : Xlen) : truncTo x 0#64 = 0#64 := by cases x <;> rfl

theorem truncTo_of_lt {x : Xlen} {v : Word} (h : v.toNat < 2 ^ x.bits) : truncTo x v = v := by
  apply BitVec.eq_of_toNat_eq; rw [truncTo_toNat, Nat.mod_eq_of_lt h]

/-! ### `State.writeReg` -/

@[simp] theorem State.writeReg_params (s : State) (r : Reg) (v : Word) : (s.writeReg r v).params = s.params := by unfold State.writeReg; split <;> rfl
@[simp] theorem State.writeReg_before (s : State) (r : Reg) (v : Word) : (s.writeReg r v).before = s.before := by unfold State.writeReg; split <;> rfl
@[simp] theorem State.writeReg_after (s : State) (r : Reg) (v : Word) : (s.writeReg r v).after = s.after := by unfold State.writeReg; split <;> rfl
@[simp] theorem State.writeReg_mem (s : State) (r : Reg) (v : Word) : (s.writeReg r v).mem = s.mem := by unfold State.writeReg; split <;> rfl
@[simp] theorem State.writeReg_hist (s : State) (r : Reg) (v : Word) : (s.writeReg r v).hist = s.hist := by unfold State.writeReg; split <;> rfl
@[simp] theorem State.writeReg_turn (s : State) (r : Reg) (v : Word) : (s.writeReg r v).turn = s.turn := by unfold State.writeReg; split <;> rfl
@[simp] theorem State.writeReg_script (s : State) (r : Reg) (v : Word) : (s.writeReg r v).script = s.script := by unfold State.writeReg; split <;> rfl
@[simp] theorem State.writeReg_count (s : State) (r : Reg) (v : Word) : (s.writeReg r v).count = s.count := by unfold State.writeReg; split <;> rfl
@[simp] theorem State.writeReg_choice (s : State) (r : Reg) (v : Word) : (s.writeReg r v).choice = s.choice := by unfold State.writeReg; split <;> rfl
@[simp] theorem State.writeReg_self (s : State) (r : Reg) (v : Word) : (s.writeReg r v).self = s.self := by unfold State.writeReg; split <;> rfl
@[simp] theorem State.writeReg_xlen (s : State) (r : Reg) (v : Word) : (s.writeReg r v).xlen = s.xlen := by unfold State.writeReg; split <;> rfl
@[simp] theorem State.writeReg_hart_pc (s : State) (r : Reg) (v : Word) : (s.writeReg r v).hart.pc = s.hart.pc := by unfold State.writeReg; split <;> rfl
@[simp] theorem State.writeReg_hart_res (s : State) (r : Reg) (v : Word) : (s.writeReg r v).hart.res = s.hart.res := by unfold State.writeReg; split <;> rfl
@[simp] theorem State.writeReg_hart_status (s : State) (r : Reg) (v : Word) : (s.writeReg r v).hart.status = s.hart.status := by unfold State.writeReg; split <;> rfl

/-! ### `State.setPc` -/

@[simp] theorem State.setPc_params (s : State) (t : Word) : (s.setPc t).params = s.params := rfl
@[simp] theorem State.setPc_before (s : State) (t : Word) : (s.setPc t).before = s.before := rfl
@[simp] theorem State.setPc_after (s : State) (t : Word) : (s.setPc t).after = s.after := rfl
@[simp] theorem State.setPc_mem (s : State) (t : Word) : (s.setPc t).mem = s.mem := rfl
@[simp] theorem State.setPc_hist (s : State) (t : Word) : (s.setPc t).hist = s.hist := rfl
@[simp] theorem State.setPc_turn (s : State) (t : Word) : (s.setPc t).turn = s.turn := rfl
@[simp] theorem State.setPc_script (s : State) (t : Word) : (s.setPc t).script = s.script := rfl
@[simp] theorem State.setPc_count (s : State) (t : Word) : (s.setPc t).count = s.count := rfl
@[simp] theorem State.setPc_choice (s : State) (t : Word) : (s.setPc t).choice = s.choice := rfl
@[simp] theorem State.setPc_self (s : State) (t : Word) : (s.setPc t).self = s.self := rfl
@[simp] theorem State.setPc_xlen (s : State) (t : Word) : (s.setPc t).xlen = s.xlen := rfl
@[simp] theorem State.setPc_hart_x (s : State) (t : Word) : (s.setPc t).hart.x = s.hart.x := rfl
@[simp] theorem State.setPc_hart_res (s : State) (t : Word) : (s.setPc t).hart.res = s.hart.res := rfl
@[simp] theorem State.setPc_hart_status (s : State) (t : Word) : (s.setPc t).hart.status = s.hart.status := rfl

/-! ### `State.advancePc` -/

@[simp] theorem State.advancePc_params (s : State) : (s.advancePc).params = s.params := rfl
@[simp] theorem State.advancePc_before (s : State) : (s.advancePc).before = s.before := rfl
@[simp] theorem State.advancePc_after (s : State) : (s.advancePc).after = s.after := rfl
@[simp] theorem State.advancePc_mem (s : State) : (s.advancePc).mem = s.mem := rfl
@[simp] theorem State.advancePc_hist (s : State) : (s.advancePc).hist = s.hist := rfl
@[simp] theorem State.advancePc_turn (s : State) : (s.advancePc).turn = s.turn := rfl
@[simp] theorem State.advancePc_script (s : State) : (s.advancePc).script = s.script := rfl
@[simp] theorem State.advancePc_count (s : State) : (s.advancePc).count = s.count := rfl
@[simp] theorem State.advancePc_choice (s : State) : (s.advancePc).choice = s.choice := rfl
@[simp] theorem State.advancePc_self (s : State) : (s.advancePc).self = s.self := rfl
@[simp] theorem State.advancePc_xlen (s : State) : (s.advancePc).xlen = s.xlen := rfl
@[simp] theorem State.advancePc_hart_x (s : State) : (s.advancePc).hart.x = s.hart.x := rfl
@[simp] theorem State.advancePc_hart_res (s : State) : (s.advancePc).hart.res = s.hart.res := rfl
@[simp] theorem State.advancePc_hart_status (s : State) : (s.advancePc).hart.status = s.hart.status := rfl

/-! ### `State.setRes` -/

@[simp] theorem State.setRes_params (s : State) (o : Option Reservation) : (s.setRes o).params = s.params := rfl
@[simp] theorem State.setRes_before (s : State) (o : Option Reservation) : (s.setRes o).before = s.before := rfl
@[simp] theorem State.setRes_after (s : State) (o : Option Reservation) : (s.setRes o).after = s.after := rfl
@[simp] theorem State.setRes_mem (s : State) (o : Option Reservation) : (s.setRes o).mem = s.mem := rfl
@[simp] theorem State.setRes_hist (s : State) (o : Option Reservation) : (s.setRes o).hist = s.hist := rfl
@[simp] theorem State.setRes_turn (s : State) (o : Option Reservation) : (s.setRes o).turn = s.turn := rfl
@[simp] theorem State.setRes_script (s : State) (o : Option Reservation) : (s.setRes o).script = s.script := rfl
@[simp] theorem State.setRes_count (s : State) (o : Option Reservation) : (s.setRes o).count = s.count := rfl
@[simp] theorem State.setRes_choice (s : State) (o : Option Reservation) : (s.setRes o).choice = s.choice := rfl
@[simp] theorem State.setRes_self (s : State) (o : Option Reservation) : (s.setRes o).self = s.self := rfl
@[simp] theorem State.setRes_xlen (s : State) (o : Option Reservation) : (s.setRes o).xlen = s.xlen := rfl
@[simp] theorem State.setRes_hart_x (s : State) (o : Option Reservation) : (s.setRes o).hart.x = s.hart.x := rfl
@[simp] theorem State.setRes_hart_pc (s : State) (o : Option Reservation) : (s.setRes o).hart.pc = s.hart.pc := rfl
@[simp] theorem State.setRes_hart_status (s : State) (o : Option Reservation) : (s.setRes o).hart.status = s.hart.status := rfl

/-! ### `State.record` -/

@[simp] theorem State.record_params (s : State) (e : Event) : (s.record e).params = s.params := rfl
@[simp] theorem State.record_before (s : State) (e : Event) : (s.record e).before = s.before := rfl
@[simp] theorem State.record_after (s : State) (e : Event) : (s.record e).after = s.after := rfl
@[simp] theorem State.record_mem (s : State) (e : Event) : (s.record e).mem = s.mem := rfl
@[simp] theorem State.record_turn (s : State) (e : Event) : (s.record e).turn = s.turn := rfl
@[simp] theorem State.record_script (s : State) (e : Event) : (s.record e).script = s.script := rfl
@[simp] theorem State.record_count (s : State) (e : Event) : (s.record e).count = s.count := rfl
@[simp] theorem State.record_choice (s : State) (e : Event) : (s.record e).choice = s.choice := rfl
@[simp] theorem State.record_self (s : State) (e : Event) : (s.record e).self = s.self := rfl
@[simp] theorem State.record_xlen (s : State) (e : Event) : (s.record e).xlen = s.xlen := rfl
@[simp] theorem State.record_hart_x (s : State) (e : Event) : (s.record e).hart.x = s.hart.x := rfl
@[simp] theorem State.record_hart_pc (s : State) (e : Event) : (s.record e).hart.pc = s.hart.pc := rfl
@[simp] theorem State.record_hart_res (s : State) (e : Event) : (s.record e).hart.res = s.hart.res := rfl
@[simp] theorem State.record_hart_status (s : State) (e : Event) : (s.record e).hart.status = s.hart.status := rfl

/-! ### `State.store` -/

@[simp] theorem State.store_params (s : State) (a : Nat) (bs : List Byte) : (s.store a bs).params = s.params := by unfold State.store; split <;> rfl
@[simp] theorem State.store_hist (s : State) (a : Nat) (bs : List Byte) : (s.store a bs).hist = s.hist := by unfold State.store; split <;> rfl
@[simp] theorem State.store_turn (s : State) (a : Nat) (bs : List Byte) : (s.store a bs).turn = s.turn := by unfold State.store; split <;> rfl
@[simp] theorem State.store_script (s : State) (a : Nat) (bs : List Byte) : (s.store a bs).script = s.script := by unfold State.store; split <;> rfl
@[simp] theorem State.store_count (s : State) (a : Nat) (bs : List Byte) : (s.store a bs).count = s.count := by unfold State.store; split <;> rfl
@[simp] theorem State.store_choice (s : State) (a : Nat) (bs : List Byte) : (s.store a bs).choice = s.choice := by unfold State.store; split <;> rfl
@[simp] theorem State.store_self (s : State) (a : Nat) (bs : List Byte) : (s.store a bs).self = s.self := by unfold State.store; split <;> simp [State.self]
@[simp] theorem State.store_xlen (s : State) (a : Nat) (bs : List Byte) : (s.store a bs).xlen = s.xlen := by unfold State.store; split <;> rfl
@[simp] theorem State.store_hart_x (s : State) (a : Nat) (bs : List Byte) : (s.store a bs).hart.x = s.hart.x := by unfold State.store; split <;> rfl
@[simp] theorem State.store_hart_pc (s : State) (a : Nat) (bs : List Byte) : (s.store a bs).hart.pc = s.hart.pc := by unfold State.store; split <;> rfl
@[simp] theorem State.store_hart_res (s : State) (a : Nat) (bs : List Byte) : (s.store a bs).hart.res = s.hart.res := by unfold State.store; split <;> rfl
@[simp] theorem State.store_hart_status (s : State) (a : Nat) (bs : List Byte) : (s.store a bs).hart.status = s.hart.status := by unfold State.store; split <;> rfl

/-! ### `State.kept` -/

@[simp] theorem State.kept_params (s : State) (f : Fault) : (s.kept f).params = s.params := rfl
@[simp] theorem State.kept_before (s : State) (f : Fault) : (s.kept f).before = s.before := rfl
@[simp] theorem State.kept_after (s : State) (f : Fault) : (s.kept f).after = s.after := rfl
@[simp] theorem State.kept_mem (s : State) (f : Fault) : (s.kept f).mem = s.mem := rfl
@[simp] theorem State.kept_hist (s : State) (f : Fault) : (s.kept f).hist = s.hist := rfl
@[simp] theorem State.kept_turn (s : State) (f : Fault) : (s.kept f).turn = s.turn := rfl
@[simp] theorem State.kept_script (s : State) (f : Fault) : (s.kept f).script = s.script := rfl
@[simp] theorem State.kept_count (s : State) (f : Fault) : (s.kept f).count = s.count := rfl
@[simp] theorem State.kept_choice (s : State) (f : Fault) : (s.kept f).choice = s.choice := rfl
@[simp] theorem State.kept_self (s : State) (f : Fault) : (s.kept f).self = s.self := rfl
@[simp] theorem State.kept_xlen (s : State) (f : Fault) : (s.kept f).xlen = s.xlen := rfl
@[simp] theorem State.kept_hart_x (s : State) (f : Fault) : (s.kept f).hart.x = s.hart.x := rfl
@[simp] theorem State.kept_hart_pc (s : State) (f : Fault) : (s.kept f).hart.pc = s.hart.pc := rfl
/-! ### The field each update writes -/

@[simp] theorem State.setPc_hart_pc (s : State) (t : Word) : (s.setPc t).hart.pc = truncTo s.xlen t := rfl
@[simp] theorem State.setPc_pc (s : State) (t : Word) : (s.setPc t).pc = truncTo s.xlen t := by
  simp [State.pc]
@[simp] theorem State.advancePc_hart_pc (s : State) : s.advancePc.hart.pc = s.nextPc := rfl
@[simp] theorem State.advancePc_pc (s : State) : s.advancePc.pc = s.nextPc := by
  simp [State.pc, State.nextPc]
@[simp] theorem State.setRes_hart_res (s : State) (o : Option Reservation) : (s.setRes o).hart.res = o := rfl
@[simp] theorem State.record_hist (s : State) (e : Event) : (s.record e).hist = s.hist ++ [e] := rfl
@[simp] theorem State.store_mem (s : State) (a : Nat) (bs : List Byte) :
    (s.store a bs).mem = s.mem.writeBytes a bs := by unfold State.store; split <;> rfl
@[simp] theorem State.kept_status (s : State) (f : Fault) : (s.kept f).hart.status = .faulted f := rfl

/-! ### The pc of the hart that moves -/

@[simp] theorem State.writeReg_pc (s : State) (r : Reg) (v : Word) : (s.writeReg r v).pc = s.pc := by simp [State.pc]
@[simp] theorem State.setRes_pc (s : State) (o : Option Reservation) : (s.setRes o).pc = s.pc := rfl
@[simp] theorem State.record_pc (s : State) (e : Event) : (s.record e).pc = s.pc := rfl
@[simp] theorem State.store_pc (s : State) (a : Nat) (bs : List Byte) : (s.store a bs).pc = s.pc := by simp [State.pc]
@[simp] theorem State.kept_pc (s : State) (f : Fault) : (s.kept f).pc = s.pc := rfl
@[simp] theorem State.writeReg_nextPc (s : State) (r : Reg) (v : Word) : (s.writeReg r v).nextPc = s.nextPc := by
  simp [State.nextPc]
@[simp] theorem State.setRes_nextPc (s : State) (o : Option Reservation) : (s.setRes o).nextPc = s.nextPc := rfl
@[simp] theorem State.record_nextPc (s : State) (e : Event) : (s.record e).nextPc = s.nextPc := rfl
@[simp] theorem State.store_nextPc (s : State) (a : Nat) (bs : List Byte) : (s.store a bs).nextPc = s.nextPc := by
  simp [State.nextPc]

/-! ### Reading a register (R11) -/

@[simp] theorem State.readReg_zero (s : State) : s.readReg 0 = 0 := by simp [State.readReg]

/-- A register after a write: the value written, brought to XLEN bits; every other register, and register 0, as before. -/
@[simp] theorem State.writeReg_readReg (s : State) (r q : Reg) (v : Word) :
    (s.writeReg r v).readReg q = if q = r ∧ r ≠ 0 then truncTo s.xlen v else s.readReg q := by
  by_cases hr : r = 0
  · simp [State.writeReg, hr]
  by_cases hq : q = 0
  · simp [State.readReg, hq, Ne.symm hr]
  by_cases hqr : q = r
  · subst hqr
    simp [State.readReg, State.writeReg, hr, State.xlen]
  · have : (r : Nat) ≠ (q : Nat) := fun h => hqr (Fin.ext h.symm)
    simp only [State.readReg, State.writeReg, hr, hq, if_false, State.xlen, hqr, false_and]
    simp [Vector.getElem_set_ne, this]

@[simp] theorem State.setPc_readReg (s : State) (t : Word) (q : Reg) : (s.setPc t).readReg q = s.readReg q := rfl
@[simp] theorem State.advancePc_readReg (s : State) (q : Reg) : s.advancePc.readReg q = s.readReg q := rfl
@[simp] theorem State.setRes_readReg (s : State) (o : Option Reservation) (q : Reg) :
    (s.setRes o).readReg q = s.readReg q := rfl
@[simp] theorem State.record_readReg (s : State) (e : Event) (q : Reg) : (s.record e).readReg q = s.readReg q := rfl
@[simp] theorem State.store_readReg (s : State) (a : Nat) (bs : List Byte) (q : Reg) :
    (s.store a bs).readReg q = s.readReg q := by simp [State.readReg]
@[simp] theorem State.kept_readReg (s : State) (f : Fault) (q : Reg) : (s.kept f).readReg q = s.readReg q := rfl

theorem State.truncTo_readReg (s : State) (q : Reg) : truncTo s.xlen (s.readReg q) = s.readReg q := by
  unfold State.readReg; split <;> simp

end Sys2Proof.Machine
end

