-- ==== Sys2Proof/Laws/Ops.lean ====
section
/-! SUPPORT. One lemma for each shared operation that says all it can do, and what a completed instruction makes of the
state. -/

namespace Sys2Proof.Machine

/-! ### The checks of LR and SC -/

theorem State.admits_iff (s : State) (a : Word) (n : Nat) :
    s.admits a n = true ↔ aligned a n = true ∧ s.meetsText a.toNat n = false ∧ s.accessible a.toNat n = true := by
  simp [State.admits, and_assoc]

/-- The checks let the access through. -/
theorem State.withAccess_admits {s : State} {kind : AccessKind} {a : Word} {n : Nat}
    {go : Host.Outcome State Fault Refusal} (h : s.admits a n = true) : s.withAccess kind a n go = go := by
  obtain ⟨h1, h2, h3⟩ := (s.admits_iff a n).mp h
  simp [State.withAccess, h1, h2, h3]

/-- Everything the checks can answer (R72, R73, R50). -/
theorem State.withAccess_cases (s : State) (kind : AccessKind) (a : Word) (n : Nat)
    (go : Host.Outcome State Fault Refusal) :
    (aligned a n = false ∧ s.withAccess kind a n go = .fault (s.misalignedFault kind a)) ∨
    (aligned a n = true ∧ s.meetsText a.toNat n = true ∧ s.withAccess kind a n go = .refused .textAccess) ∨
    (aligned a n = true ∧ s.meetsText a.toNat n = false ∧ s.accessible a.toNat n = false ∧
      s.withAccess kind a n go = .fault (.accessFault kind a)) ∨
    (s.admits a n = true ∧ s.withAccess kind a n go = go) := by
  cases h1 : aligned a n <;> cases h2 : s.meetsText a.toNat n <;> cases h3 : s.accessible a.toNat n <;>
    simp [State.withAccess, State.admits, State.raise, h1, h2, h3]

/-- A next state passed the checks. -/
theorem State.withAccess_next {s t : State} {kind : AccessKind} {a : Word} {n : Nat}
    {go : Host.Outcome State Fault Refusal} (h : s.withAccess kind a n go = .next t) :
    s.admits a n = true ∧ go = .next t := by
  rcases s.withAccess_cases kind a n go with ⟨_, e⟩ | ⟨_, _, e⟩ | ⟨_, _, _, e⟩ | ⟨ha, e⟩ <;> rw [e] at h
  · cases h
  · cases h
  · cases h
  · exact ⟨ha, h⟩

/-! ### Stores and reservations -/

/-- A store to bytes of a reservation's set takes the reservation; any other leaves the hart as it is (R90). -/
theorem Hart.afterForeignStore_cases (t : Hart) (a n : Nat) :
    (∃ r, t.res = some r ∧ meetsBytes r.set a n = true ∧ t.afterForeignStore a n = { t with res := none }) ∨
    ((∀ r, t.res = some r → meetsBytes r.set a n = false) ∧ t.afterForeignStore a n = t) := by
  unfold Hart.afterForeignStore
  cases hr : t.res with
  | none => simp
  | some r => cases hm : meetsBytes r.set a n <;> simp [hm]

@[simp] theorem Hart.afterForeignStore_x (t : Hart) (a n : Nat) : (t.afterForeignStore a n).x = t.x := by
  rcases t.afterForeignStore_cases a n with ⟨_, _, _, e⟩ | ⟨_, e⟩ <;> rw [e]

@[simp] theorem Hart.afterForeignStore_pc (t : Hart) (a n : Nat) : (t.afterForeignStore a n).pc = t.pc := by
  rcases t.afterForeignStore_cases a n with ⟨_, _, _, e⟩ | ⟨_, e⟩ <;> rw [e]

@[simp] theorem Hart.afterForeignStore_status (t : Hart) (a n : Nat) :
    (t.afterForeignStore a n).status = t.status := by
  rcases t.afterForeignStore_cases a n with ⟨_, _, _, e⟩ | ⟨_, e⟩ <;> rw [e]

/-- The reservation of a hart after another's store is none or what it was. -/
theorem Hart.afterForeignStore_res {t : Hart} {a n : Nat} {r : Reservation}
    (h : (t.afterForeignStore a n).res = some r) : t.res = some r ∧ meetsBytes r.set a n = false := by
  rcases t.afterForeignStore_cases a n with ⟨q, _, _, e⟩ | ⟨hk, e⟩ <;> rw [e] at h
  · cases h
  · exact ⟨h, hk r h⟩

theorem State.store_before (s : State) (a : Nat) (bs : List Byte) (h : s.params.memOrder = .interleaved) :
    (s.store a bs).before = s.before.map (fun t => t.afterForeignStore a bs.length) := by
  simp [State.store, h]

theorem State.store_after (s : State) (a : Nat) (bs : List Byte) (h : s.params.memOrder = .interleaved) :
    (s.store a bs).after = s.after.map (fun t => t.afterForeignStore a bs.length) := by
  simp [State.store, h]

/-- A new reservation holds the bytes its LR reads (R74). -/
theorem State.newReservation_covers (s : State) (a n : Nat) : coversBytes (s.newReservation a n).set a n = true :=
  coversBytes_self a n _

/-- When an SC may succeed (R75). -/
theorem State.maySucceed_iff (s : State) (a n : Nat) :
    s.maySucceed a n = true ↔ ∃ r, s.hart.res = some r ∧ ∀ k, k < n → inSet r.set (a + k) = true := by
  unfold State.maySucceed
  cases h : s.hart.res with
  | none => simp
  | some r => simp [coversBytes_iff]

/-- When an SC succeeds (R75, R77). -/
theorem State.scSucceeds_iff (s : State) (a n : Nat) : s.scSucceeds a n = true ↔
    (∃ r, s.hart.res = some r ∧ ∀ k, k < n → inSet r.set (a + k) = true) ∧ s.choice.spurious = false := by
  simp [State.scSucceeds, State.maySucceed_iff]

/-- A successful SC stores, and its code is zero (R78). -/
theorem State.scDone_of_success {s : State} {n : Nat} {a : Word} (rd rs2 : Reg) (aq rl : Bool)
    (h : s.scSucceeds a.toNat n = true) : s.scDone n a rd rs2 aq rl =
      ((((s.store a.toNat (s.storedBytes n rs2)).record
        (.sc s.self a.toNat n aq rl true (s.storedBytes n rs2))).writeReg rd 0).setRes none).advancePc := by
  simp [State.scDone, h, State.scCode]

/-- A failed SC stores nothing, and its code is the failure code (R79). -/
theorem State.scDone_of_failure {s : State} {n : Nat} {a : Word} (rd rs2 : Reg) (aq rl : Bool)
    (h : s.scSucceeds a.toNat n = false) : s.scDone n a rd rs2 aq rl =
      (((s.record (.sc s.self a.toNat n aq rl false [])).writeReg rd (s.failureCode n)).setRes none).advancePc := by
  simp [State.scDone, h, State.scCode]

/-- The value that stands for a drawn one is nonzero (R79). -/
theorem nonzero_ne_zero {w : Nat} (hw : 0 < w) (v : BitVec w) : nonzero v ≠ 0 := by
  unfold nonzero
  split
  · intro h
    have := congrArg BitVec.toNat h
    simp at this
    omega
  · assumption

/-- A failure code reads as nonzero in either width (R79). -/
theorem State.failureCode_ne_zero (s : State) {n : Nat} (h : n = 4 ∨ s.xlen = .rv64) :
    truncTo s.xlen (s.failureCode n) ≠ 0 := by
  have h32 := nonzero_ne_zero (by omega) (s.choice.failCode.setWidth 32)
  have h64 := nonzero_ne_zero (by omega) s.choice.failCode
  unfold State.failureCode
  split
  · intro q
    apply h32
    generalize nonzero (s.choice.failCode.setWidth 32) = v at q
    apply BitVec.eq_of_toNat_eq
    have := congrArg BitVec.toNat q
    have hv := v.isLt
    cases hx : s.xlen <;> simp [hx, truncTo, sextTo, BitVec.toNat_signExtend] at this ⊢
    · split at this <;> omega
    · omega
  · rcases h with h | h
    · contradiction
    · rw [h]; exact h64
/-- After an SC, successful or not, the pc is the next instruction's. -/
@[simp] theorem State.scDone_pc (s : State) (n : Nat) (a : Word) (rd rs2 : Reg) (aq rl : Bool) :
    (s.scDone n a rd rs2 aq rl).pc = s.nextPc := by
  cases h : s.scSucceeds a.toNat n
  · rw [State.scDone_of_failure _ _ _ _ h]; simp [State.nextPc]
  · rw [State.scDone_of_success _ _ _ _ h]; simp [State.nextPc]

/-! ### What a completed instruction makes of the state -/

/-- Everything a completed instruction can do, whichever it is. -/
theorem exec_next_cases {i : Instr} {s t : State} (h : exec i s = .next t) :
    (∃ n a rd aq rl, (n = 4 ∨ n = 8) ∧ s.admits a n = true ∧ t = s.lrDone n a rd aq rl) ∨
    (∃ n a rd rs2 aq rl, (n = 4 ∨ n = 8) ∧ s.admits a n = true ∧ t = s.scDone n a rd rs2 aq rl) ∨
    (∃ rd v, t = (s.writeReg rd v).advancePc) ∨
    (∃ a, aligned a 4 = true ∧ t = s.setPc a) ∨
    t = s.advancePc ∨
    (∃ rd v a, aligned a 4 = true ∧ t = (s.writeReg rd v).setPc a) := by
  cases i with
  | lrW rd rs1 aq rl =>
    obtain ⟨ha, hg⟩ := State.withAccess_next (show State.withAccess _ _ _ _ _ = _ from h)
    exact .inl ⟨4, _, rd, aq, rl, .inl rfl, ha, by cases hg; rfl⟩
  | lrD rd rs1 aq rl =>
    simp only [exec, execLrD] at h
    split at h
    · obtain ⟨ha, hg⟩ := State.withAccess_next (show State.withAccess _ _ _ _ _ = _ from h)
      exact .inl ⟨8, _, rd, aq, rl, .inr rfl, ha, by cases hg; rfl⟩
    · cases h
  | scW rd rs2 rs1 aq rl =>
    obtain ⟨ha, hg⟩ := State.withAccess_next (show State.withAccess _ _ _ _ _ = _ from h)
    exact .inr (.inl ⟨4, _, rd, rs2, aq, rl, .inl rfl, ha, by cases hg; rfl⟩)
  | scD rd rs2 rs1 aq rl =>
    simp only [exec, execScD] at h
    split at h
    · obtain ⟨ha, hg⟩ := State.withAccess_next (show State.withAccess _ _ _ _ _ = _ from h)
      exact .inr (.inl ⟨8, _, rd, rs2, aq, rl, .inr rfl, ha, by cases hg; rfl⟩)
    · cases h
  | addi rd rs1 imm => exact .inr (.inr (.inl ⟨rd, _, by cases h; rfl⟩))
  | bne rs1 rs2 off =>
    simp only [exec, execBne] at h
    split at h
    · split at h
      · rename_i ha; exact .inr (.inr (.inr (.inl ⟨_, ha, by cases h; rfl⟩)))
      · cases h
    · exact .inr (.inr (.inr (.inr (.inl (by cases h; rfl)))))
  | jalr rd rs1 imm =>
    simp only [exec, execJalr] at h
    split at h
    · rename_i ha; exact .inr (.inr (.inr (.inr (.inr ⟨rd, _, _, ha, by cases h; rfl⟩))))
    · cases h

end Sys2Proof.Machine
end

