-- ==== Sys2Proof/Laws/Step.lean ====
section
/-! SUPPORT. What a step can do, what the end of a step leaves, and what a device's write leaves. -/

namespace Sys2Proof.Machine

/-! ### Harts by number, and the program text -/

/-- The hart that moves is the one with its number. -/
theorem State.harts_self (s : State) : s.harts[s.self]? = some s.hart := by
  simp [State.harts, State.self]

/-- Where the other harts are as before, so is every hart of another number than the one that moves. -/
theorem State.harts_ne {s t : State} (hb : t.before = s.before) (ha : t.after = s.after) {k : Nat} (hk : k ≠ s.self) :
    t.harts[k]? = s.harts[k]? := by
  simp only [State.harts, hb, ha]
  simp only [State.self] at hk
  rcases Nat.lt_or_ge k s.before.length with h | h
  · rw [List.getElem?_append_left h, List.getElem?_append_left h]
  · rw [List.getElem?_append_right h, List.getElem?_append_right h]
    obtain ⟨j, hj⟩ : ∃ j, k - s.before.length = j + 1 := ⟨k - s.before.length - 1, by omega⟩
    simp [hj]

/-- The word placed is the word at its address. -/
theorem textAt_placeText (a : Nat) (w : InstrWord) (t : Text) : textAt (placeText a w t) a = some w := by
  induction t with
  | nil => simp [placeText, textAt]
  | cons e r ih =>
    obtain ⟨k, v⟩ := e
    simp only [placeText]
    split
    · simp [textAt]
    · split
      · simp [textAt]
      · rename_i h1 h2; simp [textAt, Ne.symm h2, ih]

/-! ### Handing on the turn -/

/-- Which hart moves changes no hart. -/
@[simp] theorem State.focus_harts (s : State) (k : Nat) : (s.focus k).harts = s.harts := by
  unfold State.focus
  split
  · rfl
  · rename_i t rest h
    show s.harts.take k ++ t :: rest = s.harts
    rw [← h, List.take_append_drop]

theorem State.focus_other (s : State) (k : Nat) : (s.focus k).params = s.params ∧ (s.focus k).mem = s.mem ∧
    (s.focus k).hist = s.hist ∧ (s.focus k).script = s.script ∧ (s.focus k).count = s.count := by
  unfold State.focus; split <;> exact ⟨rfl, rfl, rfl, rfl, rfl⟩

@[simp] theorem State.giveTurn_harts (s : State) (k : Nat) : (s.giveTurn k).harts = s.harts := by
  unfold State.giveTurn
  split
  · exact s.focus_harts k
  · rfl

theorem State.giveTurn_other (s : State) (k : Nat) : (s.giveTurn k).params = s.params ∧
    (s.giveTurn k).mem = s.mem ∧ (s.giveTurn k).hist = s.hist ∧ (s.giveTurn k).script = s.script ∧
    (s.giveTurn k).count = s.count := by
  unfold State.giveTurn
  split
  · exact s.focus_other k
  · exact ⟨rfl, rfl, rfl, rfl, rfl⟩

/-- The end of a step leaves every hart as it is. -/
@[simp] theorem State.endStep_harts (s : State) : s.endStep.harts = s.harts := State.giveTurn_harts _ _
@[simp] theorem State.endStep_params (s : State) : s.endStep.params = s.params := (State.giveTurn_other _ _).1
@[simp] theorem State.endStep_mem (s : State) : s.endStep.mem = s.mem := (State.giveTurn_other _ _).2.1
@[simp] theorem State.endStep_hist (s : State) : s.endStep.hist = s.hist := (State.giveTurn_other _ _).2.2.1
@[simp] theorem State.endStep_script (s : State) : s.endStep.script = s.script.tail :=
  (State.giveTurn_other _ _).2.2.2.1
@[simp] theorem State.endStep_count (s : State) : s.endStep.count = s.count + 1 := (State.giveTurn_other _ _).2.2.2.2

/-- Hart number `k` is the one that moves once it is chosen. -/
theorem State.focus_self (s : State) (k : Nat) (h : k < s.harts.length) : (s.focus k).self = k := by
  unfold State.focus
  split
  · rename_i hd
    have := congrArg List.length hd
    rw [List.length_drop] at this
    simp at this; omega
  · show (s.harts.take k).length = k
    rw [List.length_take]; omega

/-! ### A device's write -/

theorem Hart.afterDeviceWrite_cases (t : Hart) (a n : Nat) (drawn : Bool) :
    (∃ r, t.res = some r ∧ t.afterDeviceWrite a n drawn = { t with res := none } ∧
      (meetsBytes [⟨r.lrAddr, r.lrSize⟩] a n = true ∨ (meetsBytes r.set a n = true ∧ drawn = true))) ∨
    (t.afterDeviceWrite a n drawn = t ∧ ∀ r, t.res = some r → meetsBytes [⟨r.lrAddr, r.lrSize⟩] a n = false ∧
      (meetsBytes r.set a n && drawn) = false) := by
  unfold Hart.afterDeviceWrite
  cases hr : t.res with
  | none => simp
  | some r =>
    cases h1 : meetsBytes [⟨r.lrAddr, r.lrSize⟩] a n <;> cases h2 : meetsBytes r.set a n <;> cases drawn <;>
      simp [h1, h2]

@[simp] theorem Hart.afterDeviceWrite_x (t : Hart) (a n : Nat) (d : Bool) : (t.afterDeviceWrite a n d).x = t.x := by
  rcases t.afterDeviceWrite_cases a n d with ⟨_, _, e, _⟩ | ⟨e, _⟩ <;> rw [e]

@[simp] theorem Hart.afterDeviceWrite_pc (t : Hart) (a n : Nat) (d : Bool) : (t.afterDeviceWrite a n d).pc = t.pc := by
  rcases t.afterDeviceWrite_cases a n d with ⟨_, _, e, _⟩ | ⟨e, _⟩ <;> rw [e]

@[simp] theorem Hart.afterDeviceWrite_status (t : Hart) (a n : Nat) (d : Bool) :
    (t.afterDeviceWrite a n d).status = t.status := by
  rcases t.afterDeviceWrite_cases a n d with ⟨_, _, e, _⟩ | ⟨e, _⟩ <;> rw [e]

/-- A hart that still holds a reservation after a device's write held it before, and the write missed the LR's bytes. -/
theorem Hart.afterDeviceWrite_res {t : Hart} {a n : Nat} {d : Bool} {r : Reservation}
    (h : (t.afterDeviceWrite a n d).res = some r) :
    t.res = some r ∧ meetsBytes [⟨r.lrAddr, r.lrSize⟩] a n = false := by
  rcases t.afterDeviceWrite_cases a n d with ⟨_, _, e, _⟩ | ⟨e, hk⟩ <;> rw [e] at h
  · cases h
  · exact ⟨h, (hk r h).1⟩

/-- Hart number `j` of a list of harts after a device's write. -/
theorem afterDeviceWriteFrom_getElem? (a n : Nat) (loses : List Nat) (k : Nat) (ts : List Hart) (j : Nat) :
    (afterDeviceWriteFrom a n loses k ts)[j]? =
      ts[j]?.map (fun t => t.afterDeviceWrite a n (loses.contains (k + j))) := by
  induction ts generalizing k j with
  | nil => simp [afterDeviceWriteFrom]
  | cons t rest ih =>
    cases j with
    | zero => simp [afterDeviceWriteFrom]
    | succ j =>
      simp only [afterDeviceWriteFrom, List.getElem?_cons_succ, ih]
      rw [show k + 1 + j = k + (j + 1) by omega]

@[simp] theorem afterDeviceWriteFrom_length (a n : Nat) (loses : List Nat) (k : Nat) (ts : List Hart) :
    (afterDeviceWriteFrom a n loses k ts).length = ts.length := by
  induction ts generalizing k with
  | nil => rfl
  | cons t rest ih => simp [afterDeviceWriteFrom, ih]

/-- Everything a device's step can do: nothing, or one write of bytes of the regions. -/
theorem State.deviceStep_cases (s : State) (d : Nat) :
    s.deviceStep d = s ∨ ∃ a bytes loses, bytes ≠ [] ∧ s.deviceStep d = s.deviceStore d a bytes loses := by
  unfold State.deviceStep
  split
  · exact .inl rfl
  · exact .inr ⟨_, _, _, by simp, rfl⟩

theorem State.deviceStore_other (s : State) (d a : Nat) (bytes : List Byte) (loses : List Nat) :
    (s.deviceStore d a bytes loses).params = s.params ∧
    (s.deviceStore d a bytes loses).mem = s.mem.writeBytes a bytes ∧
    (s.deviceStore d a bytes loses).hist = s.hist ++ [.deviceWrite d a bytes] := by
  unfold State.deviceStore; split <;> simp_all

/-! ### What a step can do -/

/-- Everything a step that answers a next state can have done. -/
theorem step_next_cases {s t : State} (h : step s = .next t) :
    (s.turn = .hart ∧ s.canMove = true ∧ ∃ w i u, s.fetch = .instr w i ∧ exec i s = .next u ∧ t = u.endStep) ∨
    (s.turn = .hart ∧ s.canMove = false ∧ t = s.endStep) ∨
    (∃ d, s.turn = .device d ∧ t = (s.deviceStep d).endStep) := by
  unfold step at h
  cases hturn : s.turn with
  | device d => simp only [hturn] at h; cases h; exact .inr (.inr ⟨d, rfl, rfl⟩)
  | hart =>
    simp only [hturn, hartStep] at h
    cases hc : s.canMove with
    | false => simp [hc] at h; exact .inr (.inl ⟨rfl, rfl, h.symm⟩)
    | true =>
      simp only [hc, if_true] at h
      cases hf : s.fetch with
      | fault f => simp only [hf, State.raise] at h; cases h
      | refused r => simp only [hf] at h; cases h
      | instr w i =>
        simp only [hf] at h
        cases he : exec i s with
        | fault f => simp only [he, mapNext] at h; cases h
        | refused r => simp only [he, mapNext] at h; cases h
        | next u =>
          simp only [he, mapNext] at h
          cases h
          exact .inl ⟨rfl, rfl, w, i, u, rfl, he, rfl⟩

end Sys2Proof.Machine
end

