-- ==== Sys2Proof/Laws/Executions.lean ====
section
/-! SUPPORT. What one step of the whole machine can do, in terms of the instruction the hart executed, and how the phase of an
attempt of a constrained loop goes on. -/

namespace Sys2Proof.Machine

/-! ### The instruction a step completes -/

/-- A fetched instruction is the one its word decodes to. -/
theorem State.fetch_instr {s : State} {w : InstrWord} {i : Instr} (h : s.fetch = .instr w i) :
    decodeWord s.xlen w = .ok i ∧ textAt s.params.text s.pc.toNat = some w := by
  unfold State.fetch at h
  split at h
  · cases h
  · split at h
    · cases h
    · rename_i v hv
      unfold fetchedOf at h
      split at h <;> cases h
      rename_i hd
      exact ⟨hd, hv⟩

/-- What a completed instruction does, by the kind of its word: an LR, an SC, or one that touches neither memory, history nor
a reservation. -/
theorem exec_by_word {s t : State} {w : InstrWord} {i : Instr} (hd : decodeWord s.xlen w = .ok i)
    (he : exec i s = .next t) :
    (∃ n aq rl, lrSizeOf s.xlen w = some n ∧ scSizeOf s.xlen w = none ∧ (n = 4 ∨ n = 8) ∧
      t = s.lrDone n (s.readReg (fieldRs1 w)) (fieldRd w) aq rl) ∨
    (∃ n aq rl, lrSizeOf s.xlen w = none ∧ scSizeOf s.xlen w = some n ∧ (n = 4 ∨ n = 8) ∧
      t = s.scDone n (s.readReg (fieldRs1 w)) (fieldRd w) (fieldRs2 w) aq rl) ∨
    (lrSizeOf s.xlen w = none ∧ scSizeOf s.xlen w = none ∧ t.hist = s.hist ∧ t.mem = s.mem ∧ t.hart.res = s.hart.res ∧
      t.before = s.before ∧ t.after = s.after) := by
  have other : ∀ r ∈ opcodeTable, ∀ q ∈ opcodeTable, r ≠ q → r.hits w = true → q.hits w = false :=
    fun r hr q hq hne hit => opcodeTable_hits_unique hr hq hne hit
  have plain : ∀ r ∈ opcodeTable, r ≠ rowLrW → r ≠ rowLrD → r ≠ rowScW → r ≠ rowScD → r.hits w = true →
      lrSizeOf s.xlen w = none ∧ scSizeOf s.xlen w = none := by
    intro r hr h1 h2 h3 h4 hit
    simp [lrSizeOf, scSizeOf, other r hr rowLrW (by decide) h1 hit, other r hr rowLrD (by decide) h2 hit,
      other r hr rowScW (by decide) h3 hit, other r hr rowScD (by decide) h4 hit]
  rcases decodeWord_cases s.xlen w with ⟨hit, e⟩ | ⟨hit, e⟩ | ⟨hit, e⟩ | ⟨hit, e⟩ | ⟨hit, e⟩ | ⟨hit, e⟩ | ⟨hit, e⟩ |
    ⟨_, e⟩ <;> rw [e] at hd
  · cases hd
    obtain ⟨_, hg⟩ := State.withAccess_next (show State.withAccess _ _ _ _ _ = _ from he)
    cases hg
    refine .inl ⟨4, _, _, by simp [lrSizeOf, hit], ?_, .inl rfl, rfl⟩
    simp [scSizeOf, other _ (by decide) rowScW (by decide) (by decide) hit,
      other _ (by decide) rowScD (by decide) (by decide) hit]
  · split at hd <;> cases hd
    rename_i hx
    simp only [exec, execLrD, hx] at he
    obtain ⟨_, hg⟩ := State.withAccess_next (show State.withAccess _ _ _ _ _ = _ from he)
    cases hg
    refine .inl ⟨8, _, _, ?_, ?_, .inr rfl, rfl⟩
    · simp [lrSizeOf, other _ (by decide) rowLrW (by decide) (by decide) hit, hit, hx]
    · simp [scSizeOf, other _ (by decide) rowScW (by decide) (by decide) hit,
        other _ (by decide) rowScD (by decide) (by decide) hit]
  · cases hd
    obtain ⟨_, hg⟩ := State.withAccess_next (show State.withAccess _ _ _ _ _ = _ from he)
    cases hg
    refine .inr (.inl ⟨4, _, _, ?_, by simp [scSizeOf, hit], .inl rfl, rfl⟩)
    simp [lrSizeOf, other _ (by decide) rowLrW (by decide) (by decide) hit,
      other _ (by decide) rowLrD (by decide) (by decide) hit]
  · split at hd <;> cases hd
    rename_i hx
    simp only [exec, execScD, hx] at he
    obtain ⟨_, hg⟩ := State.withAccess_next (show State.withAccess _ _ _ _ _ = _ from he)
    cases hg
    refine .inr (.inl ⟨8, _, _, ?_, ?_, .inr rfl, rfl⟩)
    · simp [lrSizeOf, other _ (by decide) rowLrW (by decide) (by decide) hit,
        other _ (by decide) rowLrD (by decide) (by decide) hit]
    · simp [scSizeOf, other _ (by decide) rowScW (by decide) (by decide) hit, hit, hx]
  · obtain ⟨h1, h2⟩ := plain _ (by decide) (by decide) (by decide) (by decide) (by decide) hit
    cases hd
    cases he
    exact .inr (.inr ⟨h1, h2, by simp, by simp, by simp, by simp, by simp⟩)
  · obtain ⟨h1, h2⟩ := plain _ (by decide) (by decide) (by decide) (by decide) (by decide) hit
    cases hd
    simp only [exec, execBne] at he
    split at he
    · split at he <;> cases he
      exact .inr (.inr ⟨h1, h2, by simp, by simp, by simp, by simp, by simp⟩)
    · cases he
      exact .inr (.inr ⟨h1, h2, by simp, by simp, by simp, by simp, by simp⟩)
  · obtain ⟨h1, h2⟩ := plain _ (by decide) (by decide) (by decide) (by decide) (by decide) hit
    cases hd
    simp only [exec, execJalr] at he
    split at he <;> cases he
    exact .inr (.inr ⟨h1, h2, by simp, by simp, by simp, by simp, by simp⟩)
  · split at hd <;> cases hd

/-- What is known of a state in which the hart completes an instruction. -/
theorem State.executed_some {s : State} {e : Executed} (h : s.executed = some e) :
    s.turn = .hart ∧ s.canMove = true ∧ ∃ w i t, s.fetch = .instr w i ∧ exec i s = .next t ∧
      e = ⟨s.pc, w, t.pc, s.readReg (fieldRs1 w), s.storesWith w⟩ := by
  unfold State.executed at h
  split at h
  · rename_i hc
    split at h
    · rename_i w i hf
      split at h <;> cases h
      rename_i t ht
      exact ⟨hc.1, hc.2, w, i, t, hf, ht, rfl⟩
    · cases h
    · cases h
  · cases h

/-- Everything one step of the whole machine can do. -/
theorem advance_cases (s : State) :
    (∃ e w i t, s.executed = some e ∧ s.turn = .hart ∧ s.canMove = true ∧ s.fetch = .instr w i ∧ exec i s = .next t ∧
      e = ⟨s.pc, w, t.pc, s.readReg (fieldRs1 w), s.storesWith w⟩ ∧ advance s = t.endStep) ∨
    (s.executed = none ∧
      ((∃ f, s.turn = .hart ∧ step s = .fault f ∧ advance s = (s.kept f).endStep) ∨
      (∃ q, s.turn = .hart ∧ step s = .refused q ∧ advance s = (s.keptRefused q).endStep) ∨
      (s.turn = .hart ∧ s.canMove = false ∧ advance s = s.endStep) ∨
      (∃ d, s.turn = .device d ∧ advance s = (s.deviceStep d).endStep))) := by
  cases hx : s.executed with
  | some e =>
    obtain ⟨h1, h2, w, i, t, hf, he, e1⟩ := State.executed_some hx
    refine .inl ⟨e, w, i, t, rfl, h1, h2, hf, he, e1, ?_⟩
    simp [advance, step, h1, hartStep, h2, hf, he, mapNext]
  | none =>
    refine .inr ⟨rfl, ?_⟩
    cases ht : s.turn with
    | device d => exact .inr (.inr (.inr ⟨d, rfl, by simp [advance, step, ht]⟩))
    | hart =>
      cases hc : s.canMove with
      | false => exact .inr (.inr (.inl ⟨rfl, rfl, by simp [advance, step, ht, hartStep, hc]⟩))
      | true =>
        simp only [State.executed, ht, hc, and_self, if_true] at hx
        have hs : step s = match s.fetch with
            | .instr _ i => mapNext State.endStep (exec i s)
            | .fault f => s.raise f
            | .refused r => .refused r := by
          rw [show step s = hartStep s by simp only [step, ht]]; exact if_pos hc
        cases hf : s.fetch with
        | fault f => exact .inl ⟨f, rfl, by simp [hs, hf, State.raise], by simp [advance, hs, hf, State.raise]⟩
        | refused q => exact .inr (.inl ⟨q, rfl, by simp [hs, hf], by simp [advance, hs, hf]⟩)
        | instr w i =>
          simp only [hf] at hx
          cases he : exec i s with
          | next t => simp [he] at hx
          | fault f => exact .inl ⟨f, rfl, by simp [hs, hf, he, mapNext], by simp [advance, hs, hf, he, mapNext]⟩
          | refused q => exact .inr (.inl ⟨q, rfl, by simp [hs, hf, he, mapNext], by simp [advance, hs, hf, he, mapNext]⟩)

/-! ### The events of a step -/

/-- The events a step of an execution adds, with the instruction executed: an LR's, an SC's, none, or a device's write. -/
theorem Execution.added_cases {r : Execution} (hv : r.valid) (n : Nat) :
    (∃ e, (r.moment n).executed = some e ∧
      ((∃ k aq rl, lrSizeOf (r.moment n).xlen e.word = some k ∧ scSizeOf (r.moment n).xlen e.word = none ∧
          (k = 4 ∨ k = 8) ∧
          r.added n = [.lr (r.moment n).self e.addr.toNat k aq rl ((r.moment n).lrBytes e.addr.toNat k)
            ((r.moment n).newReservation e.addr.toNat k).set]) ∨
        (∃ k aq rl bytes, lrSizeOf (r.moment n).xlen e.word = none ∧ scSizeOf (r.moment n).xlen e.word = some k ∧
          (k = 4 ∨ k = 8) ∧ e.stored = (r.moment n).scSucceeds e.addr.toNat k ∧ (e.stored = false → bytes = []) ∧
          r.added n = [.sc (r.moment n).self e.addr.toNat k aq rl e.stored bytes]) ∨
        (lrSizeOf (r.moment n).xlen e.word = none ∧ scSizeOf (r.moment n).xlen e.word = none ∧ r.added n = []))) ∨
    ((r.moment n).executed = none ∧ (r.added n = [] ∨ ∃ d a bytes, r.added n = [.deviceWrite d a bytes])) := by
  have hh : (r.moment n).hist = (r.state n).hist := rfl
  have grown : ∀ t : State, r.state (n + 1) = t → r.added n = t.hist.drop (r.state n).hist.length := by
    intro t ht; rw [Execution.added, ht]
  rcases advance_cases (r.moment n) with ⟨e, w, i, t, hx, _, _, hf, he, rfl, ha⟩ | ⟨hx, hrest⟩
  · refine .inl ⟨_, hx, ?_⟩
    rw [← hv n] at ha
    have hg := grown _ ha
    rw [State.endStep_hist] at hg
    rcases exec_by_word (State.fetch_instr hf).1 he with ⟨k, aq, rl, h1, h2, hk, rfl⟩ | ⟨k, aq, rl, h1, h2, hk, rfl⟩ |
      ⟨h1, h2, h3, _⟩
    · refine .inl ⟨k, aq, rl, h1, h2, hk, ?_⟩
      rw [hg, ← hh]; simp [State.lrDone]
    · refine .inr (.inl ⟨k, aq, rl, if (r.moment n).scSucceeds ((r.moment n).readReg (fieldRs1 w)).toNat k
        then (r.moment n).storedBytes k (fieldRs2 w) else [], h1, h2, hk, ?_, ?_, ?_⟩)
      · simp only [State.storesWith, h2]
      · simp only [State.storesWith, h2]; intro h; simp [h]
      · rw [hg, ← hh]
        simp only [State.storesWith, h2]
        cases hs : (r.moment n).scSucceeds ((r.moment n).readReg (fieldRs1 w)).toNat k
        · rw [State.scDone_of_failure _ _ _ _ hs]; simp
        · rw [State.scDone_of_success _ _ _ _ hs]; simp
    · refine .inr (.inr ⟨h1, h2, ?_⟩)
      rw [hg, h3, hh]; simp
  · refine .inr ⟨hx, ?_⟩
    rcases hrest with ⟨f, _, _, ha⟩ | ⟨q, _, _, ha⟩ | ⟨_, _, ha⟩ | ⟨d, _, ha⟩ <;> rw [← hv n] at ha <;>
      have hg := grown _ ha <;> rw [State.endStep_hist] at hg
    · left; rw [hg]; simp [State.kept, hh]
    · left; rw [hg]; simp [State.keptRefused, hh]
    · left; rw [hg, hh]; simp
    · rcases (r.moment n).deviceStep_cases d with e | ⟨a, bytes, loses, _, e⟩
      · left; rw [hg, e, hh]; simp
      · right; refine ⟨d, a, bytes, ?_⟩
        rw [hg, e, (State.deviceStore_other _ _ _ _ _).2.2, hh]; simp

/-- An LR event comes from an executed LR of its hart. -/
theorem Execution.executed_of_lr {r : Execution} (hv : r.valid) {n h a k : Nat} {aq rl : Bool} {bytes : List Byte}
    {set : List ByteRange} (he : Event.lr h a k aq rl bytes set ∈ r.added n) :
    (r.moment n).self = h ∧ ∃ e, (r.moment n).executed = some e ∧ lrSizeOf (r.moment n).xlen e.word = some k ∧
      e.addr.toNat = a := by
  rcases r.added_cases hv n with ⟨e, hx, ⟨_, _, _, h1, _, _, h2⟩ | ⟨_, _, _, _, _, _, _, _, _, h2⟩ | ⟨_, _, h2⟩⟩ |
    ⟨_, h2 | ⟨_, _, _, h2⟩⟩ <;> rw [h2] at he <;> simp at he
  obtain ⟨rfl, rfl, rfl, _⟩ := he
  exact ⟨rfl, e, hx, h1, rfl⟩

/-- An SC event comes from an executed SC of its hart. -/
theorem Execution.executed_of_sc {r : Execution} (hv : r.valid) {n h a k : Nat} {aq rl ok : Bool} {bytes : List Byte}
    (he : Event.sc h a k aq rl ok bytes ∈ r.added n) :
    (r.moment n).self = h ∧ ∃ e, (r.moment n).executed = some e ∧ scSizeOf (r.moment n).xlen e.word = some k ∧
      e.addr.toNat = a ∧ e.stored = ok := by
  rcases r.added_cases hv n with ⟨e, hx, ⟨_, _, _, h1, _, _, h2⟩ | ⟨_, _, _, _, _, h1, _, _, _, h2⟩ | ⟨_, _, h2⟩⟩ |
    ⟨_, h2 | ⟨_, _, _, h2⟩⟩ <;> rw [h2] at he <;> simp at he
  obtain ⟨rfl, rfl, rfl, rfl, rfl, rfl, _⟩ := he
  exact ⟨rfl, e, hx, h1, rfl, rfl⟩

/-- No step changes a parameter (R6). -/
@[simp] theorem advance_params (s : State) : (advance s).params = s.params := by
  rcases advance_cases s with ⟨_, _, _, t, _, _, _, _, he, _, ha⟩ |
    ⟨_, ⟨_, _, _, ha⟩ | ⟨_, _, _, ha⟩ | ⟨_, _, ha⟩ | ⟨d, _, ha⟩⟩ <;> rw [ha, State.endStep_params]
  · rcases exec_next_cases he with ⟨_, _, _, _, _, _, _, rfl⟩ | ⟨_, _, _, _, _, _, _, _, rfl⟩ | ⟨_, _, rfl⟩ | ⟨_, _, rfl⟩ |
      rfl | ⟨_, _, _, _, rfl⟩
    · simp [State.lrDone]
    · simp only [State.scDone]; split <;> simp
    all_goals simp
  · rfl
  · rfl
  · rcases s.deviceStep_cases d with e | ⟨_, _, _, _, e⟩ <;> rw [e]
    exact (State.deviceStore_other _ _ _ _ _).1

/-- No step of an execution changes a parameter (R6). -/
theorem Execution.params_const {r : Execution} (hv : r.valid) (n : Nat) : (r.state n).params = (r.state 0).params := by
  induction n with
  | zero => rfl
  | succ n ih => rw [← ih, hv n, advance_params]; rfl

/-! ### What code does -/

/-- A word without a row that a fetch refuses stands in the text at the pc. -/
theorem State.fetch_notInScope {s : State} {w : InstrWord} (h : s.fetch = .refused (.notInScope w)) :
    textAt s.params.text s.pc.toNat = some w := by
  unfold State.fetch at h
  split at h
  · cases h
  · split at h
    · cases h
    · rename_i v hv
      rw [hv]
      simp only [fetchedOf] at h
      split at h <;> cases h
      · rename_i hd
        rw [decodeWord_notInScope hd]
      · rfl

/-- A base instruction leaves the parameters as they are. -/
theorem State.baseWord_params {s t : State} {w : InstrWord} (h : s.baseWord w = some t) : t.params = s.params := by
  have go : ∀ {u v : State} {a : Word}, u.goTo a = some v → v.params = u.params := by
    intro u v a h
    unfold State.goTo at h
    split at h <;> cases h
    rfl
  simp only [State.baseWord] at h
  repeat' split at h
  all_goals first
    | contradiction
    | exact go h
    | exact (go h).trans (State.writeReg_params _ _ _)
    | (cases h; simp [State.resultDone])

/-- What code executes stands in the text at the pc. -/
theorem State.codeStep_some {s u : State} {e : Executed} (h : s.codeStep = some (e, u)) :
    e.pc = s.pc ∧ textAt s.params.text s.pc.toNat = some e.word ∧ u.params = s.params := by
  unfold State.codeStep at h
  split at h
  · rename_i x hx
    cases h
    obtain ⟨_, _, w, i, t, hf, _, rfl⟩ := State.executed_some hx
    exact ⟨rfl, (State.fetch_instr hf).2, advance_params s⟩
  · split at h
    · split at h
      · rename_i w hf
        obtain ⟨t, ht, h⟩ := Option.map_eq_some_iff.mp h
        cases h
        exact ⟨rfl, State.fetch_notInScope hf, (State.endStep_params t).trans (State.baseWord_params ht)⟩
      · cases h
    · cases h

/-- Every word that code executes stands in the text where it is executed. -/
theorem CodeRun.words {s t : State} {es : List Executed} (h : CodeRun s es t) :
    t.params = s.params ∧ ∀ e ∈ es, textAt s.params.text e.pc.toNat = some e.word := by
  induction h with
  | start => exact ⟨rfl, by simp⟩
  | step c _ next ih =>
    obtain ⟨h1, h2, h3⟩ := State.codeStep_some next
    refine ⟨h3.trans ih.1, fun e he => ?_⟩
    rcases List.mem_append.mp he with he | he
    · exact ih.2 e he
    · cases List.mem_singleton.mp he
      rw [h1, ← ih.1]
      exact h2

/-- An LR or SC is in none of the classes that may stand between or after (R93, R94, R109), nor is it a branch or jump. -/
theorem Executed.class_of_lrSc {x : Xlen} {e : Executed}
    (h : (lrSizeOf x e.word).isSome = true ∨ (scSizeOf x e.word).isSome = true) :
    classOf x e.word = .notBase ∧ e.betweenOk x = false ∧ (∀ l, e.retryOk x l = false) ∧ ∀ l, e.leaves x l = false := by
  have low : ∀ (m p : InstrWord), m.extractLsb' 0 7 = 0x7F#7 → p.extractLsb' 0 7 = 0x2F#7 → e.word &&& m = p →
      majorOpcode e.word = 0x2F#7 := by
    intro m p hm hp hw
    rw [← hp, ← hw, BitVec.extractLsb'_and, hm]
    exact (BitVec.and_allOnes (w := 7)).symm
  have maj : majorOpcode e.word = 0x2F#7 := by
    unfold lrSizeOf scSizeOf at h
    by_cases h1 : rowLrW.hits e.word = true
    · exact low _ _ (by decide) (by decide) ((OpcodeRow.hits_iff _ _).mp h1)
    by_cases h2 : rowLrD.hits e.word = true
    · exact low _ _ (by decide) (by decide) ((OpcodeRow.hits_iff _ _).mp h2)
    by_cases h3 : rowScW.hits e.word = true
    · exact low _ _ (by decide) (by decide) ((OpcodeRow.hits_iff _ _).mp h3)
    by_cases h4 : rowScD.hits e.word = true
    · exact low _ _ (by decide) (by decide) ((OpcodeRow.hits_iff _ _).mp h4)
    simp [h1, h2, h3, h4] at h
  have cls : classOf x e.word = .notBase := by unfold classOf; rw [maj]; simp
  simp [cls, Executed.betweenOk, Executed.retryOk, Executed.isBackward, Executed.leaves]

/-! ### The phase of an attempt -/

@[simp] theorem Execution.phase_zero (r : Execution) (h : Nat) (l : CodeLoop) (n : Nat) : r.phase h l n 0 = .atLr := rfl

/-- The phase goes on by the instruction the hart completes in the next step, if it completes one. -/
theorem Execution.phase_succ_of_executed {r : Execution} {h : Nat} (l : CodeLoop) {n k : Nat} {e : Executed}
    (hs : (r.moment (n + k)).self = h) (hx : (r.moment (n + k)).executed = some e) :
    r.phase h l n (k + 1) = Phase.next (r.state n).params l (r.phase h l n k) e := by
  simp [Execution.phase, Execution.trace, hs, hx, phaseAfter, List.foldl_append]

theorem Execution.phase_succ_of_not {r : Execution} {h : Nat} (l : CodeLoop) {n k : Nat}
    (hn : (r.moment (n + k)).self = h → (r.moment (n + k)).executed = none) :
    r.phase h l n (k + 1) = r.phase h l n k := by
  by_cases hs : (r.moment (n + k)).self = h
  · simp [Execution.phase, Execution.trace, hs, hn hs]
  · simp [Execution.phase, Execution.trace, hs]

/-- An execution from a step on is one of the ways it could go on from there. -/
theorem Execution.later_continues {r : Execution} (hv : r.valid) (n : Nat) : (r.later n).continues r n :=
  ⟨fun k => hv (n + k), rfl, rfl⟩

/-- The phases of an attempt are those of the execution from the attempt's first step on. -/
theorem Execution.phase_later (r : Execution) (h : Nat) (l : CodeLoop) (n k : Nat) :
    (r.later n).phase h l 0 k = r.phase h l n k := by
  have ht : ∀ k, (r.later n).trace h 0 k = r.trace h n k := by
    intro k
    induction k with
    | zero => rfl
    | succ k ih => simp only [Execution.trace, ih, Nat.zero_add]; rfl
  simp only [Execution.phase, ht]
  rfl

/-- What an attempt with the properties says of the execution it is an attempt of. -/
theorem Execution.attemptOk_here {r : Execution} (hv : r.valid) {h : Nat} {l : CodeLoop} {n : Nat}
    (ok : r.attemptOk h l n) (k : Nat) : r.phase h l n k ≠ .broken ∧ r.phase h l n k ≠ .again := by
  have := ok _ (r.later_continues hv n) k
  rw [r.phase_later h l n k] at this
  exact this

/-- Where control lands: at the LR, in the loop, out of it by a branch or jump, or somewhere it must not. -/
theorem Phase.land_cases (x : Xlen) (l : CodeLoop) (e : Executed) (atTheLr ph : Phase) :
    Phase.land x l e atTheLr ph = atTheLr ∨ Phase.land x l e atTheLr ph = ph ∨
    (Phase.land x l e atTheLr ph = .left ∧ e.leaves x l = true) ∨ Phase.land x l e atTheLr ph = .broken := by
  unfold Phase.land
  split
  · exact .inl rfl
  · split
    · exact .inr (.inl rfl)
    · split
      · rename_i h; exact .inr (.inr (.inl ⟨rfl, h⟩))
      · exact .inr (.inr (.inr rfl))

/-! ### A lone hart -/

/-- The end of a step of a lone hart, without devices, leaves it the turn. -/
theorem State.endStep_alone {s : State} (hb : s.before = []) (ha : s.after = []) (hd : s.params.devices = 0) :
    s.endStep = { s with script := s.script.tail, count := s.count + 1, turn := .hart } := by
  simp [State.endStep, State.nextTurn, State.harts, hb, ha, hd, State.giveTurn, State.focus]

/-- A lone hart that takes no step stays as it is. -/
theorem advance_alone_idle {s : State} (hb : s.before = []) (ha : s.after = []) (hd : s.params.devices = 0)
    (ht : s.turn = .hart) (hc : s.canMove = false) :
    advance s = { s with script := s.script.tail, count := s.count + 1 } := by
  have h : advance s = s.endStep := by simp [advance, step, ht, hartStep, hc]
  rw [h, State.endStep_alone hb ha hd, ← ht]

/-- A step in which an instruction completes, or none can, neither faults nor is refused. -/
theorem step_next_of {s : State} (h : s.executed.isSome = true ∨ s.canMove = false) : ∃ t, step s = .next t := by
  cases ht : s.turn with
  | device d => exact ⟨_, by simp only [step, ht]; rfl⟩
  | hart =>
    rcases h with h | h
    · obtain ⟨e, he⟩ := Option.isSome_iff_exists.mp h
      obtain ⟨_, hc, w, i, t, hf, hx, _⟩ := State.executed_some he
      exact ⟨_, by simp only [step, ht, hartStep, hc, if_true, hf, hx, mapNext]; rfl⟩
    · exact ⟨_, by simp only [step, ht, hartStep, h]; rfl⟩

end Sys2Proof.Machine
end

