-- ==== Sys2Proof/Laws/Histories.lean ====
section
/-! SUPPORT. Histories: which event wrote a byte last, what an event does to a byte of memory, and the LR an SC pairs with. -/

namespace Sys2Proof.Machine

/-- The LR an SC pairs with is one only (R75 item 3). -/
theorem latestLr_unique {hist : List Event} {i i' j h a n a' n' : Nat} {set set' : List ByteRange} 
    (h1 : latestLr hist i j h a n set) (h2 : latestLr hist i' j h a' n' set') :
    i = i' ∧ a = a' ∧ n = n' ∧ set = set' := by
  obtain ⟨⟨aq, rl, b, e⟩, l1, k1⟩ := h1
  obtain ⟨⟨aq', rl', b', e'⟩, l2, k2⟩ := h2
  have : i = i' := by
    rcases Nat.lt_trichotomy i i' with q | q | q
    · have := k1 i' _ q l2 e'; simp [Event.lrScOf] at this
    · exact q
    · have := k2 i _ q l1 e; simp [Event.lrScOf] at this
  subst this
  rw [e] at e'; cases e'
  exact ⟨rfl, rfl, rfl, rfl⟩

/-- A byte of memory after an event: the one the event writes there, or the one before. -/
theorem Event.readByte_apply (m : Memory) (e : Event) (x : Nat) :
    (e.apply m).readByte x = match e.byteAt x with
      | some b => b
      | none => m.readByte x := by
  cases e with
  | lr => rfl
  | sc h a n aq rl ok bytes =>
    simp only [Event.apply, Event.byteAt, Memory.readByte_writeBytes]
    by_cases h1 : a ≤ x
    · by_cases h2 : x < a + bytes.length
      · have : x - a < bytes.length := by omega
        simp [h1, h2, this]
      · have : bytes.length ≤ x - a := by omega
        simp [h1, h2, this]
    · simp [h1]
  | deviceWrite d a bytes =>
    simp only [Event.apply, Event.byteAt, Memory.readByte_writeBytes]
    by_cases h1 : a ≤ x
    · by_cases h2 : x < a + bytes.length
      · have : x - a < bytes.length := by omega
        simp [h1, h2, this]
      · have : bytes.length ≤ x - a := by omega
        simp [h1, h2, this]
    · simp [h1]

/-- What the place of the last write says: no other write to the byte comes after it. -/
theorem lastWriteTo_cases (x : Nat) (hist : List Event) :
    match lastWriteTo x hist with
    | none => ∀ k, ¬ writesAt hist k x
    | some j => writesAt hist j x ∧ ∀ k, writesAt hist k x → k ≤ j := by
  have isw : ∀ k, writesAt hist k x ↔ (hist[k]?.bind (fun e => e.byteAt x)).isSome = true := by
    intro k
    unfold writesAt
    cases hk : hist[k]? with
    | none => simp
    | some e => simp [Option.isSome_iff_exists]
  have lt : ∀ k, writesAt hist k x → k < hist.length := by
    rintro k ⟨e, b, h, _⟩; exact (List.getElem?_eq_some_iff.mp h).1
  cases h : lastWriteTo x hist with
  | none =>
    intro k hk
    simp only [lastWriteTo, List.find?_eq_none] at h
    exact h k (by simp; exact lt k hk) ((isw k).mp hk)
  | some j =>
    simp only [lastWriteTo] at h
    refine ⟨(isw j).mpr (by simpa using List.find?_some h), fun k hk => ?_⟩
    rw [List.find?_eq_some_iff_append] at h
    obtain ⟨h1, as, bs, h2, h3⟩ := h
    by_contra hlt
    have hkk := lt k hk
    have hm : k ∈ as ++ j :: bs := by rw [← h2]; simp; exact hkk
    have hp : (as ++ j :: bs).Pairwise (· > ·) := by
      rw [← h2]; rw [List.pairwise_reverse]; exact List.pairwise_lt_range
    rw [List.pairwise_append] at hp
    rcases List.mem_append.mp hm with q | q
    · have := h3 k q
      rw [(isw k)] at hk
      simp [hk] at this
    · rcases List.mem_cons.mp q with q | q
      · omega
      · have := (List.pairwise_cons.mp hp.2.1).1 k q; omega

/-- The writes of a part of a history are those of the history before its end. -/
theorem writesAt_take {hist : List Event} {k i x : Nat} :
    writesAt (hist.take i) k x ↔ writesAt hist k x ∧ k < i := by
  unfold writesAt
  constructor
  · rintro ⟨e, b, h, hb⟩
    rw [List.getElem?_take] at h; split at h
    · exact ⟨⟨e, b, h, hb⟩, by assumption⟩
    · cases h
  · rintro ⟨⟨e, b, h, hb⟩, hk⟩
    exact ⟨e, b, by rw [List.getElem?_take, if_pos hk]; exact h, hb⟩

end Sys2Proof.Machine
end

