-- ==== Sys2Proof/Laws/PerInstr.lean ====
section
/-! SUPPORT. Per instruction, as syntax: its word has the bits its row of the opcode table fixes (R61). -/

namespace Sys2Proof.Laws.OpcodeBits

/-- The word of the instruction is one of its row's. -/
def Statement (i : Instr) : Prop := i.row.hits (encode i) = true

theorem lrW (rd rs1 : Reg) (aq rl : Bool) : Statement (.lrW rd rs1 aq rl) := by
  simp only [Statement, OpcodeRow.hits, Instr.row, rowLrW, encode, encodeAmo, beq_iff_eq]
  ext k hk
  simp only [BitVec.getElem_and, BitVec.getElem_append]
  interval_cases k <;> simp [regField]

theorem lrD (rd rs1 : Reg) (aq rl : Bool) : Statement (.lrD rd rs1 aq rl) := by
  simp only [Statement, OpcodeRow.hits, Instr.row, rowLrD, encode, encodeAmo, beq_iff_eq]
  ext k hk
  simp only [BitVec.getElem_and, BitVec.getElem_append]
  interval_cases k <;> simp [regField]

theorem scW (rd rs2 rs1 : Reg) (aq rl : Bool) : Statement (.scW rd rs2 rs1 aq rl) := by
  simp only [Statement, OpcodeRow.hits, Instr.row, rowScW, encode, encodeAmo, beq_iff_eq]
  ext k hk
  simp only [BitVec.getElem_and, BitVec.getElem_append]
  interval_cases k <;> simp

theorem scD (rd rs2 rs1 : Reg) (aq rl : Bool) : Statement (.scD rd rs2 rs1 aq rl) := by
  simp only [Statement, OpcodeRow.hits, Instr.row, rowScD, encode, encodeAmo, beq_iff_eq]
  ext k hk
  simp only [BitVec.getElem_and, BitVec.getElem_append]
  interval_cases k <;> simp

theorem addi (rd rs1 : Reg) (imm : BitVec 12) : Statement (.addi rd rs1 imm) := by
  simp only [Statement, OpcodeRow.hits, Instr.row, rowAddi, encode, encodeI, beq_iff_eq]
  ext k hk
  simp only [BitVec.getElem_and, BitVec.getElem_append]
  interval_cases k <;> simp

theorem bne (rs1 rs2 : Reg) (off : BitVec 13) : Statement (.bne rs1 rs2 off) := by
  simp only [Statement, OpcodeRow.hits, Instr.row, rowBne, encode, encodeB, beq_iff_eq]
  ext k hk
  simp only [BitVec.getElem_and, BitVec.getElem_append]
  interval_cases k <;> simp

theorem jalr (rd rs1 : Reg) (imm : BitVec 12) : Statement (.jalr rd rs1 imm) := by
  simp only [Statement, OpcodeRow.hits, Instr.row, rowJalr, encode, encodeI, beq_iff_eq]
  ext k hk
  simp only [BitVec.getElem_and, BitVec.getElem_append]
  interval_cases k <;> simp

end Sys2Proof.Laws.OpcodeBits
end

