-- ==== Sys2Proof/Tests/Slice0.lean ====
section
/-! SUPPORT. The model's own tests, with the expected results of `95_test_vectors.md`, and for every obligation that has
hypotheses a state and operands that meet them. -/

namespace Sys2Proof.Tests

open Sys2Proof Sys2Proof.Machine

/-! ### Helpers -/

/-- The bytes of the compare-and-swap function in memory order (95_test_vectors.md 1.2). -/
def casBytes : List Byte :=
  [0xAF, 0x22, 0x05, 0x10, 0x63, 0x9A, 0xB2, 0x00, 0xAF, 0x22, 0xC5, 0x18, 0xE3, 0x9A, 0x02, 0xFE,
   0x13, 0x05, 0x00, 0x00, 0x67, 0x80, 0x00, 0x00, 0x13, 0x05, 0x10, 0x00, 0x67, 0x80, 0x00, 0x00]

/-- The launch of the vectors (95_test_vectors.md 2), with one device. -/
def params (x : Xlen) : Params where
  xlen       := x
  devices    := 1
  misaligned := .addressMisaligned
  memOrder   := .interleaved
  regions    := [⟨⟨0x1000, 0x1000⟩, true, true⟩, ⟨⟨0x2000, 0x1000⟩, true, true⟩, ⟨⟨0x3000, 0x1000⟩, false, false⟩]
  text       := textOfBytes 0 casBytes
  exit       := some 0x7FFC

/-- A hart with some registers set. -/
def hartWith (pc : Word) (regs : List (Reg × Word)) (res : Option Reservation) : Hart :=
  { Hart.start pc with x := regs.foldl (fun v e => v.set e.1 e.2) (Vector.replicate 32 0), res := res }

/-- One hart at address 0, the choices of the reference simulator for its step. -/
def st (x : Xlen) (regs : List (Reg × Word)) (mem : Memory) (res : Option Reservation) : State :=
  { State.start (params x) 0 [] mem with hart := hartWith 0 regs res, script := [Choice.reference] }

/-- The same at address 0x10 with one word of text there. -/
def stWord (x : Xlen) (w : InstrWord) (regs : List (Reg × Word)) : State :=
  { st x regs [] none with
    params := { params x with text := [(0x10, w)] }
    hart := hartWith 0x10 regs none }

/-- The reservation of exactly the bytes an LR read. -/
def rsv (a n : Nat) : Option Reservation := some ⟨[⟨a, n⟩], a, n⟩

/-- What holds of the next state, if there is one. -/
def onNext (o : Host.Outcome State Fault Refusal) (f : State → Bool) : Bool :=
  match o with
  | .next t => f t
  | .fault _ => false
  | .refused _ => false

/-- The outcome is that fault. -/
def faultIs (o : Host.Outcome State Fault Refusal) (f : Fault) : Bool :=
  match o with
  | .next _ => false
  | .fault g => g == f
  | .refused _ => false

/-- The outcome is that refusal. -/
def refusalIs (o : Host.Outcome State Fault Refusal) (r : Refusal) : Bool :=
  match o with
  | .next _ => false
  | .fault _ => false
  | .refused q => q == r

theorem exists_of_onNext {o : Host.Outcome State Fault Refusal} {f : State → Bool} (h : onNext o f = true) :
    ∃ t, o = .next t ∧ f t = true := by
  cases o with
  | next t => exact ⟨t, rfl, h⟩
  | fault e => cases h
  | refused r => cases h

theorem next_of_onNext {o : Host.Outcome State Fault Refusal} (h : onNext o (fun _ => true) = true) :
    ∃ t, o = .next t :=
  (exists_of_onNext h).imp fun _ ht => ht.1

/-! ### Well-formedness: each check refuses an ill-formed term -/

theorem test_wf_refuses_doublewords_on_32_bits :
    (Instr.lrD 6 11 false false).wf .rv32 = false ∧ (Instr.scD 7 13 11 false false).wf .rv32 = false ∧
    (Instr.lrD 6 11 false false).wf .rv64 = true ∧ (Instr.scD 7 13 11 false false).wf .rv64 = true := by decide

theorem test_wf_refuses_odd_offsets :
    (Instr.bne 5 11 3).wf .rv64 = false ∧ (Instr.bne 5 11 (-1)).wf .rv32 = false ∧
    (Instr.bne 5 11 4094).wf .rv32 = true ∧ (Instr.bne 5 11 (-4096)).wf .rv64 = true := by decide

/-! ### Decoding (95_test_vectors.md 3.1, V-DE and V-AX-14) -/

theorem test_rows_disjoint : opcodeTable.Pairwise (fun r q => r.disjoint q = true) := by decide

theorem test_decode_lrW :
    decodeWord .rv32 0x100522AF#32 = .ok (.lrW 5 10 false false) ∧
    decodeWord .rv64 0x140522AF#32 = .ok (.lrW 5 10 true false) ∧
    decodeWord .rv64 0x120522AF#32 = .ok (.lrW 5 10 false true) ∧
    decodeWord .rv64 0x160522AF#32 = .ok (.lrW 5 10 true true) ∧
    decodeWord .rv32 0x1000202F#32 = .ok (.lrW 0 0 false false) ∧
    decodeWord .rv32 0x100FAFAF#32 = .ok (.lrW 31 31 false false) := by decide

theorem test_decode_lrD :
    decodeWord .rv64 0x1005B32F#32 = .ok (.lrD 6 11 false false) ∧
    decodeWord .rv64 0x1407B72F#32 = .ok (.lrD 14 15 true false) ∧
    decodeWord .rv32 0x1005B32F#32 = .error (.illegal 0x1005B32F#32) := by decide

theorem test_decode_scW :
    decodeWord .rv32 0x18C522AF#32 = .ok (.scW 5 12 10 false false) ∧
    decodeWord .rv64 0x1AC522AF#32 = .ok (.scW 5 12 10 false true) ∧
    decodeWord .rv64 0x1CC522AF#32 = .ok (.scW 5 12 10 true false) ∧
    decodeWord .rv64 0x1EC522AF#32 = .ok (.scW 5 12 10 true true) ∧
    decodeWord .rv32 0x1800202F#32 = .ok (.scW 0 0 0 false false) ∧
    decodeWord .rv32 0x1FFFAFAF#32 = .ok (.scW 31 31 31 true true) := by decide

theorem test_decode_scD :
    decodeWord .rv64 0x18D5B3AF#32 = .ok (.scD 7 13 11 false false) ∧
    decodeWord .rv64 0x1AE7B72F#32 = .ok (.scD 14 14 15 false true) ∧
    decodeWord .rv64 0x1EC5332F#32 = .ok (.scD 6 12 10 true true) ∧
    decodeWord .rv32 0x18D5B3AF#32 = .error (.illegal 0x18D5B3AF#32) := by decide

theorem test_decode_auxiliary :
    decodeWord .rv32 0x00128313#32 = .ok (.addi 6 5 1) ∧
    decodeWord .rv32 0xFFF28293#32 = .ok (.addi 5 5 (-1)) ∧
    decodeWord .rv32 0x80000513#32 = .ok (.addi 10 0 (-2048)) ∧
    decodeWord .rv32 0xFE039AE3#32 = .ok (.bne 7 0 (-12)) ∧
    decodeWord .rv32 0x80B51063#32 = .ok (.bne 10 11 (-4096)) ∧
    decodeWord .rv32 0x7EB51FE3#32 = .ok (.bne 10 11 4094) ∧
    decodeWord .rv32 0x00008067#32 = .ok (.jalr 0 1 0) ∧
    decodeWord .rv32 0x00450567#32 = .ok (.jalr 10 10 4) ∧
    decodeWord .rv32 0xFFC08067#32 = .ok (.jalr 0 1 (-4)) := by decide

theorem test_decode_illegal :
    decodeWord .rv32 0x101522AF#32 = .error (.illegal 0x101522AF#32) ∧
    decodeWord .rv64 0x11F532AF#32 = .error (.illegal 0x11F532AF#32) ∧
    decodeWord .rv32 0x100502AF#32 = .error (.illegal 0x100502AF#32) ∧
    decodeWord .rv64 0x100542AF#32 = .error (.illegal 0x100542AF#32) ∧
    decodeWord .rv32 0x18C512AF#32 = .error (.illegal 0x18C512AF#32) ∧
    decodeWord .rv32 0x11F532AF#32 = .error (.illegal 0x11F532AF#32) := by decide

theorem test_decode_not_in_scope :
    decodeWord .rv64 0x08C522AF#32 = .error (.notInScope 0x08C522AF#32) ∧
    decodeWord .rv64 0x00C522AF#32 = .error (.notInScope 0x00C522AF#32) ∧
    decodeWord .rv64 0x20C522AF#32 = .error (.notInScope 0x20C522AF#32) ∧
    decodeWord .rv64 0x00052283#32 = .error (.notInScope 0x00052283#32) ∧
    decodeWord .rv64 0x00C52023#32 = .error (.notInScope 0x00C52023#32) ∧
    decodeWord .rv64 0x0FF0000F#32 = .error (.notInScope 0x0FF0000F#32) ∧
    decodeWord .rv64 0x00000073#32 = .error (.notInScope 0x00000073#32) ∧
    decodeWord .rv64 0x006282B3#32 = .error (.notInScope 0x006282B3#32) ∧
    decodeWord .rv64 0x00000000#32 = .error (.notInScope 0x00000000#32) ∧
    decodeWord .rv64 0xFFFFFFFF#32 = .error (.notInScope 0xFFFFFFFF#32) ∧
    decodeWord .rv64 0x00000001#32 = .error (.notInScope 0x00000001#32) := by decide

theorem test_bytes_of_the_function :
    (textOfBytes 0 casBytes).map (fun e => e.2) = [0x100522AF#32, 0x00B29A63#32, 0x18C522AF#32, 0xFE029AE3#32,
      0x00000513#32, 0x00008067#32, 0x00100513#32, 0x00008067#32] := by decide

theorem test_encode :
    encode (.lrW 5 10 true false) = 0x140522AF#32 ∧ encode (.lrD 6 11 false false) = 0x1005B32F#32 ∧
    encode (.scW 5 12 10 false true) = 0x1AC522AF#32 ∧ encode (.scD 6 12 10 true true) = 0x1EC5332F#32 ∧
    encode (.addi 10 0 (-2048)) = 0x80000513#32 ∧ encode (.bne 10 11 4094) = 0x7EB51FE3#32 ∧
    encode (.jalr 10 10 4) = 0x00450567#32 := by decide

/-! ### Instructions (95_test_vectors.md 3.2 to 3.6, 3.11) -/

/-- V-LW-2: on 64 bits the word is sign-extended; the reservation holds the bytes read. -/
theorem test_lrW_sign_extends :
    onNext (exec (.lrW 5 10 false false) (st .rv64 [(10, 0x1000)] [(0x1000, 0xEF), (0x1001, 0xBE), (0x1002, 0xAD), (0x1003, 0xDE)] none))
      (fun t => t.readReg 5 == 0xFFFFFFFFDEADBEEF && t.hart.res == rsv 0x1000 4 && t.pc == 4) = true := by decide

/-- V-LW-6 and V-LW-5: the address is the old `a0`, and the old reservation is replaced. -/
theorem test_lrW_into_its_address :
    onNext (exec (.lrW 10 10 false false) (st .rv32 [(10, 0x1000)] [(0x1000, 0x78), (0x1001, 0x56), (0x1002, 0x34), (0x1003, 0x12)] (rsv 0x2000 8)))
      (fun t => t.readReg 10 == 0x12345678 && t.hart.res == rsv 0x1000 4) = true := by decide

/-- V-LD-2: no extension takes place. -/
theorem test_lrD_takes_the_whole :
    onNext (exec (.lrD 6 11 false false) (st .rv64 [(11, 0x2008)] [(0x200F, 0x80)] none))
      (fun t => t.readReg 6 == 0x8000000000000000 && t.hart.res == rsv 0x2008 8) = true := by decide

/-- V-LD-3 and V-LD-4: word alignment is not enough; on 32 bits the word is illegal. -/
theorem test_lrD_faults :
    faultIs (exec (.lrD 6 11 false false) (st .rv64 [(11, 0x2004)] [] none)) (.addressMisaligned .load 0x2004) = true ∧
    faultIs (exec (.lrD 6 11 false false) (st .rv32 [(11, 0x2004)] [] none)) (.illegalInstruction 0x1005B32F) = true := by
  decide

/-- V-SC-2: the high half of `a2` is ignored, the bytes after the word stay. -/
theorem test_scW_stores_the_low_word :
    onNext (exec (.scW 5 12 10 false false)
        (st .rv64 [(10, 0x1000), (12, 0xAAAAAAAA12345678)] [(0x1000, 0xEF), (0x1004, 0x99)] (rsv 0x1000 4)))
      (fun t => t.mem == [(0x1000, 0x78), (0x1001, 0x56), (0x1002, 0x34), (0x1003, 0x12), (0x1004, 0x99)] &&
        t.readReg 5 == 0 && t.hart.res == none) = true := by decide

/-- V-SC-11: the stored value is the old `a0`, the code its new one; V-SC-3: without a reservation the SC fails. -/
theorem test_scW_aliases_and_fails :
    onNext (exec (.scW 10 10 10 false false) (st .rv32 [(10, 0x1000)] [] (rsv 0x1000 4)))
      (fun t => t.mem == [(0x1001, 0x10)] && t.readReg 10 == 0) = true ∧
    onNext (exec (.scW 5 12 10 false false) (st .rv32 [(10, 0x1000), (12, 0x12345678)] [(0x1000, 0xEF)] none))
      (fun t => t.mem == [(0x1000, 0xEF)] && t.readReg 5 == 1 && t.hart.res == none) = true := by decide

/-- V-SD-1. -/
theorem test_scD_stores :
    onNext (exec (.scD 7 13 11 false false) (st .rv64 [(11, 0x2000), (13, 0x1122334455667788)] [(0x2000, 0x08)] (rsv 0x2000 8)))
      (fun t => t.mem.readBytes 0x2000 8 == [0x88, 0x77, 0x66, 0x55, 0x44, 0x33, 0x22, 0x11] && t.readReg 7 == 0) = true := by
  decide

/-- V-SD-3: after an LR.W of the same address; V-SD-4. -/
theorem test_scD_fails_and_faults :
    onNext (exec (.scD 7 13 11 false false) (st .rv64 [(11, 0x2000), (13, 0x1122334455667788)] [] (rsv 0x2000 4)))
      (fun t => t.mem == [] && t.readReg 7 == 1 && t.hart.res == none) = true ∧
    faultIs (exec (.scD 7 13 11 false false) (st .rv64 [(11, 0x2004)] [] (rsv 0x2000 8)))
      (.addressMisaligned .storeAMO 0x2004) = true := by decide

/-- V-AX-1 and V-AX-2: the sum wraps at the register width. -/
theorem test_addi_wraps :
    onNext (step (stWord .rv32 0x00128313 [(5, 0x7FFFFFFF)])) (fun t => t.readReg 6 == 0x80000000 && t.pc == 0x14) = true ∧
    onNext (step (stWord .rv32 0xFFF28293 [])) (fun t => t.readReg 5 == 0xFFFFFFFF) = true ∧
    onNext (step (stWord .rv64 0xFFF28293 [])) (fun t => t.readReg 5 == 0xFFFFFFFFFFFFFFFF) = true := by decide

/-- V-AX-5 and V-AX-6: register 0 keeps nothing. -/
theorem test_addi_register_zero :
    onNext (step (stWord .rv32 0x7FF50513 [(10, 1)])) (fun t => t.readReg 10 == 0x800) = true ∧
    onNext (step (stWord .rv32 0x00550013 [(10, 7)]))
      (fun t => t.hart.x == (stWord .rv32 0x00550013 [(10, 7)]).hart.x && t.pc == 0x14) = true := by decide

/-- V-AX-9 and V-AX-8: all 64 bits are compared; equal registers do not branch. -/
theorem test_bne_compares_all_bits :
    onNext (step (stWord .rv64 0x00B29A63 [(5, 0x0000000100000000)])) (fun t => t.pc == 0x24) = true ∧
    onNext (step (stWord .rv32 0x00B29A63 [(5, 2), (11, 2)])) (fun t => t.pc == 0x14) = true := by decide

/-- V-AX-11 and V-AX-12: the target is checked only when the branch is taken. -/
theorem test_bne_misaligned_target :
    faultIs (step (stWord .rv32 0x00029363 [(5, 1)])) (.instructionAddressMisaligned 0x16) = true ∧
    onNext (step (stWord .rv32 0x00029363 [])) (fun t => t.pc == 0x14) = true := by decide

/-- V-AX-16 and V-AX-17: the target comes from the old value; bit 0 is cleared. -/
theorem test_jalr_target :
    onNext (step (stWord .rv32 0x00450567 [(10, 0x20)])) (fun t => t.pc == 0x24 && t.readReg 10 == 0x14) = true ∧
    onNext (step (stWord .rv32 0x00108067 [(1, 0x20)])) (fun t => t.pc == 0x20 && t.readReg 1 == 0x20) = true := by decide

/-- V-AX-18 and V-AX-19. -/
theorem test_jalr_edges :
    faultIs (step (stWord .rv32 0x00208067 [(1, 0x20)])) (.instructionAddressMisaligned 0x22) = true ∧
    onNext (step (stWord .rv32 0xFFC08067 [])) (fun t => t.pc == 0xFFFFFFFC) = true := by decide

/-! ### Checks, fetches, several agents (95_test_vectors.md 3.6 to 3.8, 3.10) -/

/-- V-AL-5, V-AL-6, V-AL-8, V-AL-10, V-AL-11. -/
theorem test_access_checks :
    faultIs (exec (.lrW 5 10 false false) (st .rv32 [(10, 0x8000)] [] none)) (.accessFault .load 0x8000) = true ∧
    faultIs (exec (.lrW 5 10 false false) (st .rv32 [(10, 0x3000)] [] none)) (.accessFault .load 0x3000) = true ∧
    faultIs (exec (.lrW 5 10 false false) (st .rv32 [(10, 0x8001)] [] none)) (.addressMisaligned .load 0x8001) = true ∧
    onNext (exec (.lrD 5 10 false false) (st .rv64 [(10, 0x1FF8)] [] none)) (fun _ => true) = true ∧
    refusalIs (exec (.lrW 5 10 false false) (st .rv32 [(10, 0x0010)] [] none)) .textAccess = true := by decide

/-- The codes of R113, in the order of its table. -/
theorem test_exception_codes :
    [Fault.addressMisaligned .load 0, .accessFault .load 0, .addressMisaligned .storeAMO 0, .accessFault .storeAMO 0,
      .illegalInstruction 0, .instructionAddressMisaligned 0, .instructionAccessFault 0].map exceptionCode =
      [4, 5, 6, 7, 2, 0, 1] := by decide

/-- V-AL-12, V-AL-13 and V-AX-20: fetches at a misaligned pc, outside the text, and at the exit address. -/
theorem test_fetch_checks :
    faultIs (step { st .rv32 [] [] none with hart := hartWith 2 [] none }) (.instructionAddressMisaligned 2) = true ∧
    faultIs (step { st .rv32 [] [] none with hart := hartWith 0x40 [] none }) (.instructionAccessFault 0x40) = true ∧
    State.finished { st .rv32 [] [] none with hart := hartWith 0x7FFC [] none } = true := by decide

/-- Two harts with the same reservation; hart 1 moves, and hart 0 and a device beside it. -/
def twoHarts (set : List ByteRange) : State :=
  { st .rv32 [(10, 0x1000), (11, 0x1004), (12, 0xBBBBBBBB)] [] (rsv 0x1000 4) with
    before := [hartWith 0 [(10, 0x1000), (12, 0xAAAAAAAA)] (some ⟨set, 0x1000, 4⟩)] }

/-- V-MH-1 and V-MH-4: a successful SC takes the other hart's reservation, a failed one does not. -/
theorem test_sc_takes_the_other_reservation :
    onNext (exec (.scW 6 12 10 false false) (twoHarts [⟨0x1000, 4⟩]))
      (fun t => t.before.all (fun u => u.res == none) && t.readReg 6 == 0) = true ∧
    onNext (exec (.scW 6 12 11 false false) (twoHarts [⟨0x1000, 4⟩]))
      (fun t => t.before.all (fun u => u.res == rsv 0x1000 4) && t.readReg 6 == 1) = true := by decide

/-- V-DEV-1 to V-DEV-4. -/
theorem test_device_writes :
    ((twoHarts [⟨0x1000, 64⟩]).deviceStore 0 0x1002 [1] []).before.map (fun u => u.res) = [none] ∧
    ((twoHarts [⟨0x1000, 64⟩]).deviceStore 0 0x1020 [1, 2, 3, 4] []).before.map (fun u => u.res.isSome) = [true] ∧
    ((twoHarts [⟨0x1000, 64⟩]).deviceStore 0 0x1020 [1, 2, 3, 4] [0]).before.map (fun u => u.res) = [none] ∧
    ((twoHarts [⟨0x1000, 64⟩]).deviceStore 0 0x1040 [1] [0]).before.map (fun u => u.res.isSome) = [true] ∧
    ((twoHarts [⟨0x1000, 64⟩]).deviceStore 0 0x0FFC [1, 2, 3, 4, 5, 6, 7, 8] []).before.map (fun u => u.res) = [none] := by
  decide

/-- One executed instruction of the loops of 95_test_vectors.md 3.10; a store does not succeed. -/
def ran (pc : Word) (word : InstrWord) (next addr : Word) : Executed := ⟨pc, word, next, addr, false⟩

/-- The launch of the vectors with other program text, from address 0 on. -/
def withText (x : Xlen) (words : List InstrWord) : Params :=
  { params x with text := (List.range words.length).zip words |>.map (fun e => (4 * e.1, e.2)) }

/-- V-CL-1, one attempt of Figure 8.1 whose SC failed. -/
def casPass : List Executed :=
  [ran 0 0x100522AF 4 0x1000, ran 4 0x00B29A63 8 0, ran 8 0x18C522AF 12 0x1000, ran 12 0xFE029AE3 0 1]

/-- V-CL-1 is constrained; V-CL-3 to V-CL-6, V-CL-8 and V-CL-9 are not. -/
theorem test_constrained_loops :
    constrainedPass (params .rv32) ⟨0, 4, 0⟩ casPass = true ∧
    constrainedPass (withText .rv32 [0x100522AF, 0x0005A303, 0x186523AF, 0xFE039AE3]) ⟨0, 4, 0⟩
      [ran 0 0x100522AF 4 0x1000, ran 4 0x0005A303 8 0, ran 8 0x186523AF 12 0x1000, ran 12 0xFE039AE3 0 1] = false ∧
    constrainedPass (withText .rv64 [0x100532AF, 0x18C5232F, 0xFE031CE3]) ⟨0, 3, 0⟩
      [ran 0 0x100532AF 4 0x1000, ran 4 0x18C5232F 8 0x1000, ran 8 0xFE031CE3 0 1] = false ∧
    constrainedPass (withText .rv32 [0x100522AF, 0x18C5A32F, 0xFE031CE3]) ⟨0, 3, 0⟩
      [ran 0 0x100522AF 4 0x1000, ran 4 0x18C5A32F 8 0x2000, ran 8 0xFE031CE3 0 1] = false ∧
    constrainedPass (withText .rv32 [0x100522AF, 0x02528333, 0x186523AF, 0xFE039AE3]) ⟨0, 4, 0⟩
      [ran 0 0x100522AF 4 0x1000, ran 4 0x02528333 8 0, ran 8 0x186523AF 12 0x1000, ran 12 0xFE039AE3 0 1] = false ∧
    constrainedPass (withText .rv32 [0x100522AF, 0x18C5232F]) ⟨0, 2, 0⟩
      [ran 0 0x100522AF 4 0x1000, ran 4 0x18C5232F 8 0x1000] = false ∧
    constrainedPass { params .rv32 with regions := [⟨⟨0x1000, 0x1000⟩, true, false⟩] } ⟨0, 4, 0⟩ casPass = false := by decide

/-- `lr.w t0, (a0)`, `n` times `addi x0, x0, 0`, `sc.w t0, a2, (a0)` and a branch back. -/
def longWords (n : Nat) : List InstrWord :=
  0x100522AF :: (List.replicate n 0x00000013 ++ [0x18C522AF, encode (.bne 5 0 (BitVec.ofInt 13 (-(4 * (n + 2)))))])

/-- One attempt of it, whose SC failed. -/
def longPass (n : Nat) : List Executed :=
  ran 0 0x100522AF 4 0x1000 :: ((List.range n).map (fun k => ran (BitVec.ofNat 64 (4 + 4 * k)) 0x00000013 (BitVec.ofNat 64 (8 + 4 * k)) 0) ++
    [ran (BitVec.ofNat 64 (4 + 4 * n)) 0x18C522AF (BitVec.ofNat 64 (8 + 4 * n)) 0x1000,
      ran (BitVec.ofNat 64 (8 + 4 * n)) (encode (.bne 5 0 (BitVec.ofInt 13 (-(4 * (n + 2)))))) 0 1])

/-- R92: 16 instructions may be a loop and 17 may not (V-CL-7); code that retries may stand below the LR, here one instruction. -/
theorem test_constrained_shapes :
    constrainedPass (withText .rv32 (longWords 13)) ⟨0, 16, 0⟩ (longPass 13) = true ∧
    constrainedPass (withText .rv32 (longWords 14)) ⟨0, 17, 0⟩ (longPass 14) = false ∧
    phaseAfter (withText .rv32 (longWords 14)) ⟨0, 17, 0⟩ (longPass 14) = .back ∧
    constrainedPass (withText .rv32 [0x00000013, 0x100522AF, 0x18C522AF, 0xFE029AE3]) ⟨0, 4, 4⟩
      [ran 4 0x100522AF 8 0x1000, ran 8 0x18C522AF 12 0x1000, ran 12 0xFE029AE3 0 1, ran 0 0x00000013 4 0] = true := by
  decide

/-- R92, R94: a retry after an SC that succeeded has a phase of its own; `bne t0, x0, 0`, which spins on itself, is no retry; an LR
after which control leaves other than by a branch or jump is no loop; `bne x0, x0, -8` leaves instead of retrying. -/
theorem test_not_constrained :
    phaseAfter (withText .rv32 [0x100522AF, 0x18C522AF, 0xFE069CE3]) ⟨0, 3, 0⟩
      [ran 0 0x100522AF 4 0x1000, ⟨4, 0x18C522AF, 8, 0x1000, true⟩, ran 8 0xFE069CE3 0 1] = .again ∧
    phaseAfter (withText .rv32 [0x100522AF, 0x18C522AF, 0x00029063]) ⟨0, 3, 0⟩
      [ran 0 0x100522AF 4 0x1000, ran 4 0x18C522AF 8 0x1000, ran 8 0x00029063 8 1, ran 8 0x00029063 8 1] = .broken ∧
    phaseAfter (withText .rv32 [0x100522AF]) ⟨0, 1, 0⟩ [ran 0 0x100522AF 4 0x1000] = .broken ∧
    phaseAfter (withText .rv32 [0x100522AF, 0x18C5232F, 0xFE001CE3]) ⟨0, 3, 0⟩
      [ran 0 0x100522AF 4 0x1000, ran 4 0x18C5232F 8 0x1000, ran 8 0xFE001CE3 12 0] = .left := by decide

/-- R92 to R94: words that may not stand in a loop, executed or not: a JALR and a second LR; nor may a second SC. -/
theorem test_window_words :
    CodeLoop.placed (params .rv32) ⟨0, 4, 0⟩ = true ∧
    CodeLoop.placed (withText .rv32 [0x100522AF, 0x18C5232F, 0x00031463, 0x00000067, 0xFE0318E3]) ⟨0, 5, 0⟩ = false ∧
    CodeLoop.placed (withText .rv32 [0x100522AF, 0x18C5232F, 0x00031463, 0x100522AF, 0xFE0318E3]) ⟨0, 5, 0⟩ = false ∧
    CodeLoop.placed (withText .rv32 [0x100522AF, 0x18C5232F, 0x00031463, 0x18C5232F, 0xFE0318E3]) ⟨0, 5, 0⟩ = false ∧
    CodeLoop.placed (withText .rv32 [0x100522AF, 0x18C5232F, 0x00031463, 0x00000013, 0xFE0318E3]) ⟨0, 5, 0⟩ = true := by
  decide

/-- The launch of the vectors is one the spec admits. -/
theorem test_launch_is_admitted : (st .rv32 [] [] none).launchOk := by
  refine ⟨⟨by decide, ?_, by decide, by decide, by decide, ?_⟩, by decide, by decide, by decide⟩
  · simp [st, params, textOfBytes, casBytes, State.start, Xlen.bits]
  · simp [st, params, State.start]; decide

/-! ### Executions with given choices -/

/-- The states a machine goes through with given choices. -/
def runFrom (s : State) (c : Nat → Choice) : Nat → State
  | 0 => s
  | n + 1 => advance { runFrom s c n with script := [c n] }

/-- An execution from a state, with given choices. -/
def executionFrom (s : State) (c : Nat → Choice) : Execution := ⟨runFrom s c, c⟩

theorem executionFrom_valid (s : State) (c : Nat → Choice) : (executionFrom s c).valid := fun _ => rfl

/-! ### Witnesses: for every obligation with hypotheses, states and operands that meet them, clause by clause -/

theorem witness_DecodeOfEncodeIsTheInstruction :
    (Instr.lrW 31 31 true true).wf .rv32 = true ∧ (Instr.lrD 0 31 true false).wf .rv64 = true ∧
    (Instr.scW 0 31 0 false true).wf .rv32 = true ∧ (Instr.scD 31 31 31 true true).wf .rv64 = true ∧
    (Instr.addi 31 0 2047).wf .rv32 = true ∧ (Instr.bne 31 31 4094).wf .rv32 = true ∧
    (Instr.bne 0 0 (-4096)).wf .rv64 = true ∧ (Instr.jalr 0 31 (-2048)).wf .rv64 = true := by decide

theorem witness_LrScFieldsAreTheWordsBits :
    decodeWord .rv32 0x100FAFAF#32 = .ok (.lrW 31 31 false false) ∧
    decodeWord .rv64 0x1407B72F#32 = .ok (.lrD 14 15 true false) ∧
    decodeWord .rv32 0x1FFFAFAF#32 = .ok (.scW 31 31 31 true true) ∧
    decodeWord .rv64 0x1AE7B72F#32 = .ok (.scD 14 14 15 false true) := by decide

theorem witness_AuxiliaryWordsAndTheirFields :
    decodeWord .rv32 0x80000513#32 = .ok (.addi 10 0 (-2048)) ∧ decodeWord .rv32 0xFFC08067#32 = .ok (.jalr 0 1 (-4)) ∧
    decodeWord .rv32 0x80B51063#32 = .ok (.bne 10 11 (-4096)) ∧
    decodeWord .rv32 0x7EB51FE3#32 = .ok (.bne 10 11 4094) := by decide

/-- V-DE-18, V-DE-19 and V-DE-20 to V-DE-22. -/
theorem witness_ReservedLrScWordsAreIllegal :
    (∀ w ∈ [0x101522AF, 0x11F532AF], w % 2 ^ 7 = 0b0101111 ∧ w / 2 ^ 27 = 0b00010 ∧ w / 2 ^ 20 % 32 ≠ 0) ∧
    (∀ w ∈ [0x100502AF, 0x100542AF, 0x18C512AF], w % 2 ^ 7 = 0b0101111 ∧ (w / 2 ^ 27 = 0b00010 ∨ w / 2 ^ 27 = 0b00011) ∧
      w / 2 ^ 12 % 8 ≠ 0b010 ∧ w / 2 ^ 12 % 8 ≠ 0b011) := by decide

theorem witness_DoublewordFormsAreIllegalOn32Bits :
    0x1005B32F#32 &&& 0xF9F0707F#32 = 0x1000302F#32 ∧ 0x18D5B3AF#32 &&& 0xF800707F#32 = 0x1800302F#32 ∧
    (st .rv32 [] [] none).xlen = .rv32 := by decide

/-- V-DE-23 and V-DE-26. -/
theorem witness_EveryOtherWordIsRefused :
    (∀ r ∈ opcodeTable, 0x08C522AF#32 &&& r.mask ≠ r.pattern) ∧ (0x08C522AF#32).toNat / 2 ^ 27 = 0b00001 ∧
    (∀ r ∈ opcodeTable, 0x00052283#32 &&& r.mask ≠ r.pattern) ∧ (0x00052283#32).toNat % 2 ^ 7 = 0b0000011 := by decide

theorem witness_StepRunsTheDecodedInstruction :
    (st .rv32 [] [] none).turn = .hart ∧ (st .rv32 [] [] none).canMove = true ∧ (st .rv32 [] [] none).pc.toNat % 4 = 0 ∧
    textAt (st .rv32 [] [] none).params.text (st .rv32 [] [] none).pc.toNat = some 0x100522AF#32 ∧
    decodeWord .rv32 0x100522AF#32 = .ok (.lrW 5 10 false false) := by decide

/-- A device gets the turn. -/
theorem witness_EndOfStepOnlyHandsOnTheTurn :
    (State.endStep { twoHarts [] with script := [{ Choice.reference with nextAgent := 2 }] }).turn = .device 0 := by decide

/-- The second hart and the device there are. -/
theorem witness_AnyAgentCanMoveNext :
    1 < (twoHarts []).harts.length ∧ 0 < (twoHarts []).params.devices := by decide

/-- One clause each: pc 2, pc outside the text, an illegal word, a word of another kind. -/
theorem witness_FetchChecksInOrder :
    (stWord .rv32 0x100502AF []).turn = .hart ∧
    (State.canMove { st .rv32 [] [] none with hart := hartWith 2 [] none } = true ∧
      (State.pc { st .rv32 [] [] none with hart := hartWith 2 [] none }).toNat % 4 ≠ 0) ∧
    (State.canMove { st .rv32 [] [] none with hart := hartWith 0x20 [] none } = true ∧
      textAt (params .rv32).text (State.pc { st .rv32 [] [] none with hart := hartWith 0x20 [] none }).toNat = none) ∧
    ((stWord .rv32 0x100502AF []).canMove = true ∧
      textAt (stWord .rv32 0x100502AF []).params.text (stWord .rv32 0x100502AF []).pc.toNat = some 0x100502AF#32 ∧
      decodeWord .rv32 0x100502AF#32 = .error (.illegal 0x100502AF#32)) ∧
    ((stWord .rv32 0x00000073 []).canMove = true ∧
      textAt (stWord .rv32 0x00000073 []).params.text (stWord .rv32 0x00000073 []).pc.toNat = some 0x00000073#32 ∧
      decodeWord .rv32 0x00000073#32 = .error (.notInScope 0x00000073#32)) := by decide

theorem witness_StoppedOrFinishedHartTakesNoStep :
    (st .rv32 [] [] none).turn = .hart ∧
    (State.keptRefused (st .rv32 [] [] none) .textAccess).hart.status ≠ .running ∧
    (params .rv32).exit = some (State.pc { st .rv32 [] [] none with hart := hartWith 0x7FFC [] none }) := by decide

theorem witness_PlacedWordIsWhatTheStepRuns :
    decodeWord State.reset.xlen (tableWord 32 0x1000202F) = .ok (.lrW 0 0 false false) ∧
    decodeWord (st .rv32 [] [] none).xlen (tableWord 32 0x7EB51FE3) = .ok (.bne 10 11 4094) := by decide

/-- The conditions of an access of `n` bytes at the address in `a0`: it completes, or it faults outside the regions. -/
def okAt (s : State) (n : Nat) : Bool :=
  decide ((s.readReg 10).toNat % n = 0 ∧ missesText s.params (s.readReg 10).toNat n ∧ allLrsc s.params (s.readReg 10).toNat n)
def outsideAt (s : State) (n : Nat) : Bool :=
  decide ((s.readReg 10).toNat % n = 0 ∧ missesText s.params (s.readReg 10).toNat n ∧
    ∃ k, k < n ∧ ∀ r ∈ s.params.regions, r.lrscOk = true →
      ¬(r.bytes.lo ≤ (s.readReg 10).toNat + k ∧ (s.readReg 10).toNat + k < r.bytes.lo + r.bytes.len))

/-- Misaligned by one; one word past the regions for LR and SC; the last word and the first word of them, on both variants. -/
theorem witness_LrWLoadsAndReserves :
    ((st .rv32 [(10, 0x1001)] [] none).readReg 10).toNat % 4 ≠ 0 ∧ outsideAt (st .rv32 [(10, 0x3000)] [] none) 4 = true ∧
    okAt (st .rv64 [(10, 0x2FFC)] [] none) 4 = true ∧ okAt (st .rv32 [(10, 0x1000)] [] none) 4 = true := by decide

theorem witness_LrDLoadsAndReserves :
    (st .rv64 [] [] none).xlen = .rv64 ∧
    ((st .rv64 [(10, 0x1FFC)] [] none).readReg 10).toNat % 8 ≠ 0 ∧ outsideAt (st .rv64 [(10, 0x3000)] [] none) 8 = true ∧
    okAt (st .rv64 [(10, 0x2FF8)] [] none) 8 = true ∧ okAt (st .rv64 [(10, 0x1000)] [] none) 8 = true := by decide

theorem witness_LrChangesNothingElse :
    (∃ t, exec (.lrW 5 10 true false) (st .rv32 [(10, 0x1000)] [] none) = .next t) ∧
    (∃ t, exec (.lrD 0 10 false true) (st .rv64 [(10, 0x1000)] [] none) = .next t) :=
  ⟨next_of_onNext (by decide), next_of_onNext (by decide)⟩

/-- The set wanted: the 64-byte block around the word, and exactly the doubleword. -/
theorem witness_AnyCoveringReservationSetIsPossible :
    (∃ t, exec (.lrW 5 10 false false) (st .rv32 [(10, 0x1000)] [] (rsv 0x2000 8)) = .next t) ∧
    okAt (st .rv32 [(10, 0x1000)] [] none) 4 = true ∧
    coversBytes [⟨0x1000, 64⟩] ((st .rv32 [(10, 0x1000)] [] none).readReg 10).toNat 4 = true ∧
    (st .rv64 [(10, 0x1000)] [] none).xlen = .rv64 ∧
    okAt (st .rv64 [(10, 0x1000)] [] none) 8 = true ∧
    coversBytes [⟨0x1004, 4⟩, ⟨0x1000, 4⟩] ((st .rv64 [(10, 0x1000)] [] none).readReg 10).toNat 8 = true :=
  ⟨next_of_onNext (by decide), by decide, by decide, by decide, by decide, by decide⟩

/-- Misaligned; outside; completing, with a reservation that covers the word, one that lacks its last byte, and a failing draw. -/
theorem witness_ScWStoresOrFails :
    ((st .rv32 [(10, 0x1002)] [] none).readReg 10).toNat % 4 ≠ 0 ∧ outsideAt (st .rv32 [(10, 0x8000)] [] none) 4 = true ∧
    okAt (st .rv64 [(10, 0x1004)] [] (rsv 0x1000 8)) 4 = true ∧
    (st .rv64 [(10, 0x1004)] [] (rsv 0x1000 8)).scSucceeds 0x1004 4 = true ∧
    okAt (st .rv32 [(10, 0x1000)] [] (rsv 0x1000 3)) 4 = true ∧
    (st .rv32 [(10, 0x1000)] [] (rsv 0x1000 3)).scSucceeds 0x1000 4 = false ∧
    State.scSucceeds { st .rv32 [(10, 0x1000)] [] (rsv 0x1000 4) with
      script := [{ Choice.reference with spurious := true }] } 0x1000 4 = false := by decide

theorem witness_ScDStoresOrFails :
    (st .rv64 [] [] none).xlen = .rv64 ∧
    ((st .rv64 [(10, 0x1004)] [] none).readReg 10).toNat % 8 ≠ 0 ∧ outsideAt (st .rv64 [(10, 0x8000)] [] none) 8 = true ∧
    okAt (st .rv64 [(10, 0x1000)] [] (rsv 0x1000 8)) 8 = true ∧
    (st .rv64 [(10, 0x1000)] [] (rsv 0x1000 8)).scSucceeds 0x1000 8 = true ∧
    (st .rv64 [(10, 0x1000)] [] (rsv 0x1000 4)).scSucceeds 0x1000 8 = false := by decide

/-- A success and a failure of each. -/
theorem witness_ScChangesNothingElse :
    (∃ t, exec (.scW 5 12 10 false false) (st .rv32 [(10, 0x1000)] [] (rsv 0x1000 4)) = .next t) ∧
    (∃ t, exec (.scD 5 12 10 false false) (st .rv64 [(10, 0x1000)] [] none) = .next t) ∧
    (st .rv64 [(10, 0x1000)] [] none).scSucceeds 0x1000 8 = false :=
  ⟨next_of_onNext (by decide), next_of_onNext (by decide), by decide⟩

theorem witness_EveryScClearsTheReservation :
    (∃ t, exec (.scW 5 12 10 false false) (st .rv32 [(10, 0x1000)] [] (rsv 0x1000 4)) = .next t) ∧
    (∃ t, exec (.scD 5 12 10 false false) (st .rv64 [(10, 0x1000)] [] (rsv 0x2000 8)) = .next t) :=
  ⟨next_of_onNext (by decide), next_of_onNext (by decide)⟩

/-- Hart 0's set meets the word stored in its last byte only; or it ends just below it; a third hart has no reservation. -/
theorem witness_ScStoreTakesForeignReservations :
    (twoHarts []).params.memOrder = .interleaved ∧
    (∃ t, exec (.scW 6 12 10 false false) (twoHarts [⟨0x1003, 1⟩]) = .next t) ∧
    (twoHarts [⟨0x1003, 1⟩]).scSucceeds 0x1000 4 = true ∧
    ((twoHarts [⟨0x1003, 1⟩]).before ++ (twoHarts [⟨0x1003, 1⟩]).after)[0]?.isSome = true ∧
    inSet [⟨0x1003, 1⟩] 0x1003 = true ∧ meetsBytes [⟨0x0FFC, 4⟩] 0x1000 4 = false ∧
    (∃ t, exec (.scW 6 12 10 false false) { twoHarts [] with after := [hartWith 0 [] none] } = .next t) ∧
    (hartWith 0 [] none).res = none :=
  ⟨by decide, next_of_onNext (by decide), by decide, by decide, by decide, by decide, next_of_onNext (by decide), rfl⟩

/-- No reservation; one that lacks the last byte. -/
theorem witness_ScOutsideTheReservationFails :
    okAt (st .rv32 [(10, 0x1000)] [] none) 4 = true ∧
    (st .rv32 [(10, 0x1000)] [] none).hart.res = none ∧
    okAt (st .rv64 [(10, 0x1000)] [] (rsv 0x1000 7)) 8 = true ∧
    (st .rv64 [(10, 0x1000)] [] (rsv 0x1000 7)).hart.res = some ⟨[⟨0x1000, 7⟩], 0x1000, 7⟩ ∧
    inSet [⟨0x1000, 7⟩] (0x1000 + 7) = false := by decide

/-- A run of `sc.w t1, a2, (a0); addi x0, x0, 0; sc.w t1, a2, (a0)` from a state with a reservation. -/
def secondScRun : Execution :=
  executionFrom { st .rv32 [(10, 0x1000), (12, 9)] [] (rsv 0x1000 4) with
    params := { withText .rv32 [0x18C5232F, 0x00000013, 0x18C5232F] with devices := 0 } } (fun _ => Choice.reference)

/-- Directly after the first, and with another instruction between. -/
theorem witness_SecondScFails :
    (∃ t u, exec (.scW 6 12 10 false false) (st .rv32 [(10, 0x1000)] [] (rsv 0x1000 4)) = .next t ∧
      exec (.scW 5 12 10 false false) { t with script := [Choice.reference] } = .next u) ∧
    secondScRun.valid ∧ Event.sc 0 0x1000 4 false false true [9, 0, 0, 0] ∈ secondScRun.added 0 ∧
    secondScRun.added 1 = [] ∧ Event.sc 0 0x1000 4 false false false [] ∈ secondScRun.added 2 := by
  refine ⟨?_, executionFrom_valid _ _, by decide, by decide, by decide⟩
  obtain ⟨t, ht, hu⟩ := exists_of_onNext
    (o := exec (.scW 6 12 10 false false) (st .rv32 [(10, 0x1000)] [] (rsv 0x1000 4)))
    (f := fun t => onNext (exec (.scW 5 12 10 false false) { t with script := [Choice.reference] }) (fun _ => true))
    (by decide)
  obtain ⟨u, hu⟩ := next_of_onNext hu
  exact ⟨t, u, ht, hu⟩

theorem witness_ScThatMaySucceedMayAlsoFail :
    okAt (st .rv32 [(10, 0x1000)] [] (rsv 0x1000 4)) 4 = true ∧
    (st .rv32 [(10, 0x1000)] [] (rsv 0x1000 4)).maySucceed 0x1000 4 = true ∧
    (st .rv64 [(10, 0x1000)] [] (rsv 0x1000 7)).xlen = .rv64 ∧
    okAt (st .rv64 [(10, 0x1000)] [] (rsv 0x1000 7)) 8 = true ∧
    (st .rv64 [(10, 0x1000)] [] (rsv 0x1000 7)).maySucceed 0x1000 8 = false := by decide

theorem witness_AnyNonzeroFailureCodeIsPossible :
    (5 : Reg) ≠ 0 ∧ (0x80000000#32) ≠ 0 ∧ (0x8000000000000000#64) ≠ 0 ∧ (st .rv64 [(10, 0x1000)] [] none).xlen = .rv64 ∧
    okAt (st .rv32 [(10, 0x1000)] [] none) 4 = true ∧
    okAt (st .rv64 [(10, 0x1000)] [] none) 8 = true := by decide

theorem witness_ScPairsAcrossAddressesAndSizes :
    (∃ t, exec (.lrD 5 10 false false) (st .rv64 [(10, 0x1000)] [] none) = .next t) ∧
    (∃ t, exec (.lrW 5 10 false false) (st .rv64 [(10, 0x1000)] [] none) = .next t) ∧
    (st .rv64 [(10, 0x1000)] [] none).choice.isReference = true :=
  ⟨next_of_onNext (by decide), next_of_onNext (by decide), by decide⟩

theorem witness_ReferencePairSucceeds :
    (∃ t, exec (.lrW 5 10 false false) (st .rv32 [(10, 0x1000)] [] none) = .next t ∧
      (t.readReg 10 == (st .rv32 [(10, 0x1000)] [] none).readReg 10) = true) ∧
    (∃ t, exec (.lrD 5 10 false false) (st .rv64 [(10, 0x1000)] [] none) = .next t ∧
      (t.readReg 10 == (st .rv64 [(10, 0x1000)] [] none).readReg 10) = true) ∧
    Choice.isReference { Choice.reference with nextAgent := 3, trapLoses := true, deviceBytes := [1] } = true :=
  ⟨exists_of_onNext (f := fun t => t.readReg 10 == (st .rv32 [(10, 0x1000)] [] none).readReg 10) (by decide),
    exists_of_onNext (f := fun t => t.readReg 10 == (st .rv64 [(10, 0x1000)] [] none).readReg 10) (by decide),
    by decide⟩

theorem witness_OrderingBitsChangeNoResult : (st .rv64 [(10, 0x1000)] [] none).xlen = .rv64 := by decide

/-- Each form at an address one short of its alignment, with each choice of the exception. -/
theorem witness_MisalignedLrScAlwaysRaises :
    ((st .rv32 [(10, 0x1003)] [] none).readReg 10).toNat % 4 ≠ 0 ∧ ((st .rv64 [(10, 0x1004)] [] none).readReg 10).toNat % 8 ≠ 0 ∧
    (st .rv64 [(10, 0x1004)] [] none).xlen = .rv64 ∧ (st .rv32 [(10, 0x1003)] [] none).params.misaligned = .addressMisaligned ∧
    Params.misaligned { params .rv32 with misaligned := .accessFault } = .accessFault := by decide

/-- The last word of the text, and a doubleword whose first byte is there. -/
theorem witness_LrScToTheTextIsRefused :
    (st .rv64 [(10, 0x001C)] [] none).xlen = .rv64 ∧ ((st .rv64 [(10, 0x001C)] [] none).readReg 10).toNat % 4 = 0 ∧
    (∃ e ∈ (st .rv64 [(10, 0x001C)] [] none).params.text, ∃ k, k < 4 ∧ e.1 ≤ 0x001C + k ∧ 0x001C + k < e.1 + 4) ∧
    ((st .rv64 [(10, 0x0018)] [] none).readReg 10).toNat % 8 = 0 ∧
    (∃ e ∈ (st .rv64 [(10, 0x0018)] [] none).params.text, ∃ k, k < 8 ∧ e.1 ≤ 0x0018 + k ∧ 0x0018 + k < e.1 + 4) :=
  ⟨by decide, by decide, ⟨(0x1C, 0x00008067#32), by decide, 0, by decide⟩, by decide,
    ⟨(0x18, 0x00100513#32), by decide, 0, by decide⟩⟩

theorem eq_fault_of_faultIs {o : Host.Outcome State Fault Refusal} {f : Fault} (h : faultIs o f = true) : o = .fault f := by
  cases o with
  | next t => cases h
  | fault g => simp only [faultIs, beq_iff_eq] at h; rw [h]
  | refused r => cases h

/-- A fault of each kind, and a step that raises one. -/
theorem witness_FaultLeavesAllButTheReservation :
    (∃ kind a, Fault.addressMisaligned .load 0x1001 = .addressMisaligned kind a) ∧
    (∀ kind a, Fault.illegalInstruction 0 ≠ .addressMisaligned kind a ∧ Fault.illegalInstruction 0 ≠ .accessFault kind a) ∧
    step (st .rv32 [(10, 0x1001)] [] none) = .fault (.addressMisaligned .load 0x1001) :=
  ⟨⟨_, _, rfl⟩, by simp, eq_fault_of_faultIs (by decide)⟩

theorem witness_StoppedHartStaysStopped :
    (State.kept (twoHarts []) (.illegalInstruction 0)).harts[1]? =
      some (State.kept (twoHarts []) (.illegalInstruction 0)).hart ∧
    (State.kept (twoHarts []) (.illegalInstruction 0)).hart.status ≠ .running := by decide

/-- Not taken; taken to the lowest and to a misaligned address, one of them past the end of the address space. -/
theorem witness_BneBranchesWhenUnequal :
    ((0x14 : Word).toNat : Int) = ((stWord .rv32 0 [(5, 1)]).pc.toNat + (4 : BitVec 13).toInt) % 2 ^ Xlen.rv32.bits ∧
    (stWord .rv32 0 [(5, 1)]).readReg 5 ≠ (stWord .rv32 0 [(5, 1)]).readReg 11 ∧
    (stWord .rv32 0 [(5, 1)]).readReg 5 = (stWord .rv32 0 [(5, 1)]).readReg 5 ∧ (0x14 : Word).toNat % 4 = 0 ∧
    ((0xFFFFF010 : Word).toNat : Int) = ((stWord .rv32 0 [(5, 1)]).pc.toNat + (-4096 : BitVec 13).toInt) % 2 ^ Xlen.rv32.bits ∧
    ((0x16 : Word).toNat : Int) = ((stWord .rv32 0 [(5, 1)]).pc.toNat + (6 : BitVec 13).toInt) % 2 ^ Xlen.rv32.bits ∧
    (0x16 : Word).toNat % 4 ≠ 0 := by decide

theorem witness_JalrJumpsAndLinks :
    (∃ v : Nat, (v : Int) = (((stWord .rv32 0 [(1, 0x20)]).readReg 1).toNat + (1 : BitVec 12).toInt) % 2 ^ Xlen.rv32.bits ∧
      (0x20 : Word).toNat = v - v % 2) ∧ (0x20 : Word).toNat % 4 = 0 ∧
    (∃ v : Nat, (v : Int) = (((stWord .rv32 0 [(1, 0)]).readReg 1).toNat + (-4 : BitVec 12).toInt) % 2 ^ Xlen.rv32.bits ∧
      (0xFFFFFFFC : Word).toNat = v - v % 2) ∧ (0xFFFFFFFC : Word).toNat % 4 = 0 ∧
    (∃ v : Nat, (v : Int) = (((stWord .rv32 0 [(1, 0x20)]).readReg 1).toNat + (2 : BitVec 12).toInt) % 2 ^ Xlen.rv32.bits ∧
      (0x22 : Word).toNat = v - v % 2) ∧ (0x22 : Word).toNat % 4 ≠ 0 :=
  ⟨⟨0x21, by decide⟩, by decide, ⟨0xFFFFFFFC, by decide⟩, by decide, ⟨0x22, by decide⟩, by decide⟩

theorem witness_AuxiliaryChangesNothingElse :
    (∃ t, exec (.addi 6 5 1) (stWord .rv32 0 []) = .next t) ∧
    (∃ t, exec (.jalr 6 5 4) (stWord .rv32 0 []) = .next t) ∧
    (∃ t, exec (.bne 5 11 6) (stWord .rv32 0 []) = .next t) :=
  ⟨next_of_onNext (by decide), next_of_onNext (by decide),
    next_of_onNext (by decide)⟩

theorem witness_RegisterZeroIsHardwired :
    ∃ t, exec (.addi 0 10 5) (stWord .rv32 0 [(10, 7)]) = .next t :=
  next_of_onNext (by decide)

/-- A write that meets the LR's bytes in their last byte; one that meets only the rest of the set, in its last byte, drawn both
ways; one just past the set. -/
theorem witness_DeviceWriteTakesReservations :
    (twoHarts [⟨0x1000, 64⟩]).params.memOrder = .interleaved ∧
    (twoHarts [⟨0x1000, 64⟩]).harts[0]? = some (hartWith 0 [(10, 0x1000), (12, 0xAAAAAAAA)] (some ⟨[⟨0x1000, 64⟩], 0x1000, 4⟩)) ∧
    inSet [⟨0x1000, 64⟩] 0x103F = true ∧ inSet [⟨0x1000, 64⟩] 0x1040 = false ∧ 0 ∈ [0] ∧ 0 ∉ [1] := by decide

/-- A device's turn, writing at the last byte of a region and past it; two bytes across two regions, all of them mapped. -/
theorem witness_DeviceStepWritesRegionBytesOnly :
    State.turn { twoHarts [] with turn := .device 0 } = .device 0 ∧ (twoHarts []).mapped 0x4000 = false ∧
    (twoHarts []).clipWrite 0x3FFF [1, 2] = [1] ∧ ([1, 2] : List Byte) ≠ [] ∧
    ∀ k, k < [1, 2].length → ∃ r ∈ (twoHarts []).params.regions,
      r.bytes.lo ≤ 0x1FFF + k ∧ 0x1FFF + k < r.bytes.lo + r.bytes.len := by decide

/-- The machine between the LR and the SC of Figure 8.1: the LR's event is in the history and its reservation is held. -/
def afterLr : State :=
  { st .rv32 [(5, 5), (10, 0x1000), (12, 9)] [(0x1000, 5)] none with
    hart := hartWith 8 [(5, 5), (10, 0x1000), (12, 9)] (rsv 0x1000 4)
    hist := [.lr 0 0x1000 4 false false [5, 0, 0, 0] [⟨0x1000, 4⟩]] }

/-- The next step of that machine is the SC, which succeeds. -/
theorem afterLr_step : ∃ t, step afterLr = .next t ∧ (t.readReg 5 == 0 && t.mem == [(0x1000, 9)]) = true :=
  exists_of_onNext (f := fun t => t.readReg 5 == 0 && t.mem == [(0x1000, 9)]) (by decide)

theorem witness_StepKeepsMemoryCanonical : afterLr.mem.wf ∧ ∃ t, step afterLr = .next t :=
  ⟨by decide, afterLr_step.imp fun _ h => h.1⟩

theorem witness_StepKeepsEveryPcAligned : afterLr.pcsAligned ∧ ∃ t, step afterLr = .next t :=
  ⟨by unfold State.pcsAligned; decide, afterLr_step.imp fun _ h => h.1⟩

theorem witness_StepKeepsRegistersWithinXlen : afterLr.fits ∧ ∃ t, step afterLr = .next t :=
  ⟨by unfold State.fits Hart.fits; decide, afterLr_step.imp fun _ h => h.1⟩

theorem witness_StepKeepsReservationsCoveringTheirLr : afterLr.reservationsCoverLr ∧ ∃ t, step afterLr = .next t :=
  ⟨by unfold State.reservationsCoverLr; decide, afterLr_step.imp fun _ h => h.1⟩

theorem witness_StepKeepsParametersAndHarts : ∃ t, step afterLr = .next t := afterLr_step.imp fun _ h => h.1

theorem witness_HistoryOnlyGrows : ∃ t, step afterLr = .next t := afterLr_step.imp fun _ h => h.1

theorem afterLr_stands : afterLr.reservationsStand := by
  intro h t r ht hr
  cases h with
  | zero =>
    cases ht
    cases hr
    refine ⟨0, ⟨⟨false, false, [5, 0, 0, 0], rfl⟩, by decide, ?_⟩, ?_⟩
    · intro k e hk hl
      have hl : k < 1 := hl
      omega
    · intro k e hk he
      cases k with
      | zero => omega
      | succ k => cases he
  | succ h => cases ht

theorem witness_StepKeepsEverySuccessfulScJustified :
    afterLr.params.memOrder = .interleaved ∧ afterLr.reservationsStand ∧
    scJustified afterLr.hist (Witness.inOrder afterLr.hist) ∧ ∃ t, step afterLr = .next t := by
  refine ⟨by decide, afterLr_stands, ?_, afterLr_step.imp fun _ h => h.1⟩
  intro j h a n aq rl bytes hj
  cases j with
  | zero => cases hj
  | succ j => cases hj

theorem witness_LatestBytesHaveTheirSource : readsLatest [(0x1000, 5)] afterLr.hist := by
  intro i h a n aq rl bytes set hi
  cases i with
  | zero => cases hi; decide
  | succ i => cases hi

theorem witness_StepKeepsReadsLatest :
    afterLr.params.memOrder = .interleaved ∧ State.memFromHist [(0x1000, 5)] afterLr ∧
    readsLatest [(0x1000, 5)] afterLr.hist ∧ ∃ t, step afterLr = .next t :=
  ⟨by decide, by unfold State.memFromHist; decide, witness_LatestBytesHaveTheirSource, afterLr_step.imp fun _ h => h.1⟩

/-- A history with an LR and the SC it justifies. -/
theorem witness_JustifiedHistoriesMeetTheOrderItems :
    scJustified [.lr 0 0x1000 4 true false [5, 0, 0, 0] [⟨0x1000, 4⟩], .sc 0 0x1000 4 true true true [9, 0, 0, 0]]
      (Witness.inOrder [.lr 0 0x1000 4 true false [5, 0, 0, 0] [⟨0x1000, 4⟩],
        .sc 0 0x1000 4 true true true [9, 0, 0, 0]]) := by
  intro j h a n aq rl bytes hj
  match j with
  | 0 => cases hj
  | 1 =>
    cases hj
    refine ⟨0, 0x1000, 4, [⟨0x1000, 4⟩], ⟨⟨true, false, [5, 0, 0, 0], rfl⟩, by decide, ?_⟩, by decide, ?_⟩
    · intro k e h1 h2; omega
    · rintro k e he ⟨g, h1, h2⟩
      have h1 : 0 < k := h1
      have h2 : k < 1 := h2
      omega
  | j + 2 => cases hj

/-! ### A history that meets what every memory model must enforce -/

/-- Hart 0 stores to 0x1004 and to 0x1000, hart 1 reads that store and then stores to both, with all the ordering bits that have a
meaning; then each reads a word the other stored to. -/
def crossed : List Event :=
  [.lr 0 0x1004 4 true false [0, 0, 0, 0] [⟨0x1004, 4⟩], .sc 0 0x1004 4 true true true [1, 0, 0, 0],
    .lr 0 0x1000 4 true false [0, 0, 0, 0] [⟨0x1000, 4⟩], .sc 0 0x1000 4 true true true [2, 0, 0, 0],
    .lr 1 0x1000 4 true false [2, 0, 0, 0] [⟨0x1000, 4⟩], .sc 1 0x1000 4 true true true [3, 0, 0, 0],
    .lr 1 0x1004 4 true false [1, 0, 0, 0] [⟨0x1004, 4⟩], .sc 1 0x1004 4 true true true [4, 0, 0, 0],
    .lr 0 0x1004 4 false false [4, 0, 0, 0] [⟨0x1004, 4⟩], .lr 1 0x1000 4 false false [3, 0, 0, 0] [⟨0x1000, 4⟩]]

theorem crossed_latestLr {i h a : Nat} (hi : ∃ aq rl bytes, crossed[i]? = some (.lr h a 4 aq rl bytes [⟨a, 4⟩])) :
    latestLr crossed i (i + 1) h a 4 [⟨a, 4⟩] :=
  ⟨hi, by omega, fun k e h1 h2 => by omega⟩

theorem crossed_justified : scJustified crossed (Witness.inOrder crossed) := by
  intro j h a n aq rl bytes hj
  have none_between : ∀ i k, ¬ (Witness.inOrder crossed).between i k (i + 1) := by
    rintro i k ⟨g, h1, h2⟩
    have h1 : i < k := h1
    have h2 : k < i + 1 := h2
    omega
  match j with
  | 1 => cases hj; exact ⟨0, _, _, _, crossed_latestLr ⟨_, _, _, rfl⟩, by decide, fun k e _ hb => absurd hb (none_between 0 k)⟩
  | 3 => cases hj; exact ⟨2, _, _, _, crossed_latestLr ⟨_, _, _, rfl⟩, by decide, fun k e _ hb => absurd hb (none_between 2 k)⟩
  | 5 => cases hj; exact ⟨4, _, _, _, crossed_latestLr ⟨_, _, _, rfl⟩, by decide, fun k e _ hb => absurd hb (none_between 4 k)⟩
  | 7 => cases hj; exact ⟨6, _, _, _, crossed_latestLr ⟨_, _, _, rfl⟩, by decide, fun k e _ hb => absurd hb (none_between 6 k)⟩
  | 0 => cases hj
  | 2 => cases hj
  | 4 => cases hj
  | 6 => cases hj
  | 8 => cases hj
  | 9 => cases hj
  | j + 10 => cases hj

theorem crossed_items : OrderItems crossed (Witness.inOrder crossed) where
  observed :=
    { irrefl := fun _ _ h => Nat.lt_irrefl _ h
      trans := fun _ _ _ _ h1 h2 => Nat.lt_trans h1 h2
      total := fun _ _ _ _ _ h => Nat.lt_or_gt_of_ne h
      source := by
        intro i h a n aq rl bytes set x j _ _ _ hs
        have hl := lastWriteTo_cases x (crossed.take i)
        rw [show lastWriteTo x (crossed.take i) = some j from hs] at hl
        obtain ⟨hj, hji⟩ := writesAt_take.mp hl.1
        exact ⟨hj, fun _ => hji⟩
      latest := by
        intro i h a n aq rl bytes set x k _ _ _ hk hki
        have hl := lastWriteTo_cases x (crossed.take i)
        simp only [Witness.inOrder]
        cases hs : lastWriteTo x (crossed.take i) with
        | none => rw [hs] at hl; exact absurd (writesAt_take.mpr ⟨hk, hki⟩) (hl k)
        | some j => rw [hs] at hl; exact ⟨j, rfl, Nat.eq_or_lt_of_le (hl.2 k (writesAt_take.mpr ⟨hk, hki⟩))⟩
      coherent := fun _ _ _ _ _ _ _ h => h
      sameByte := fun _ _ _ _ _ _ _ _ h _ _ _ _ => h }
  justified := crossed_justified
  lrFirst := fun _ _ _ _ _ _ _ _ _ _ _ h _ _ => h.2.1
  acquire := fun _ _ _ _ _ _ _ _ _ _ h _ _ _ => h
  release := fun _ _ _ _ _ _ _ _ _ h _ _ _ => h
  sequential := fun _ _ _ _ _ ⟨_, _, _, _, _, _, _, _, _, L, _⟩ _ _ _ =>
    ⟨fun q => ⟨q, Nat.lt_trans q L.2.1⟩, fun q => ⟨Nat.lt_trans L.2.1 q, q⟩⟩

/-- Hart 0 updates 0x1000 and then 0x1004, with no ordering bit; hart 1 reads both at once and sees only the second. -/
def reordered : List Event :=
  [.lr 0 0x1000 4 false false [0, 0, 0, 0] [⟨0x1000, 4⟩], .sc 0 0x1000 4 false false true [1, 0, 0, 0],
    .lr 0 0x1004 4 false false [0, 0, 0, 0] [⟨0x1004, 4⟩], .sc 0 0x1004 4 false false true [2, 0, 0, 0],
    .lr 1 0x1000 8 false false [0, 0, 0, 0, 2, 0, 0, 0] [⟨0x1000, 8⟩]]

/-- All observers see the second update, then hart 1's read, then the first update. -/
def reorderedRank (i : Nat) : Nat := [3, 4, 0, 1, 2].getD i i

/-- With hart 1's two halves from the launch memory and from that second update. -/
def reorderedWitness : Witness where
  before := fun _ i j => reorderedRank i < reorderedRank j
  source := fun i x => if i = 4 ∧ 0x1004 ≤ x then some 3 else none

theorem reordered_at {i : Nat} {e : Event} (h : reordered[i]? = some e) : i < 5 := (List.getElem?_eq_some_iff.mp h).1

theorem reordered_writes {k x : Nat} (h : writesAt reordered k x) :
    k = 1 ∧ 0x1000 ≤ x ∧ x < 0x1004 ∨ k = 3 ∧ 0x1004 ≤ x ∧ x < 0x1008 := by
  obtain ⟨e, b, he, hb⟩ := h
  have hk := reordered_at he
  have hx : ∀ (a : Nat) (bytes : List Byte), (if a ≤ x then bytes[x - a]? else none) = some b → a ≤ x ∧ x - a < bytes.length := by
    intro a bytes q
    split at q
    · exact ⟨‹_›, (List.getElem?_eq_some_iff.mp q).1⟩
    · cases q
  interval_cases k <;> cases he <;> first | cases hb | skip
  · have := hx _ _ hb
    simp at this
    omega
  · have := hx _ _ hb
    simp at this
    omega

/-- R40, R46: without ordering bits a hart's updates of two addresses may be seen in the other order. -/
theorem test_updates_without_bits_reorder :
    OrderItems reordered reorderedWitness ∧ reorderedWitness.explains [] reordered := by
  have before : ∀ g i j, reorderedWitness.before g i j ↔ reorderedRank i < reorderedRank j := fun _ _ _ => Iff.rfl
  refine ⟨⟨⟨?_, ?_, ?_, ?_, ?_, ?_, ?_⟩, ?_, ?_, ?_, ?_, ?_⟩, ?_⟩
  · exact fun _ _ h => Nat.lt_irrefl _ h
  · exact fun _ _ _ _ h1 h2 => Nat.lt_trans h1 h2
  · rintro g i j ⟨e, hi, _⟩ ⟨f, hj, _⟩ hne
    have := reordered_at hi
    have := reordered_at hj
    simp only [before]
    interval_cases i <;> interval_cases j <;> simp_all [reorderedRank]
  · intro i h a n aq rl bytes set x j hi h1 h2 hs
    have := reordered_at hi
    simp only [reorderedWitness] at hs
    split at hs <;> cases hs
    rename_i hx
    obtain ⟨rfl, hx⟩ := hx
    cases hi
    refine ⟨?_, fun g => (by decide : reorderedRank 3 < reorderedRank 4)⟩
    have : x = 0x1004 ∨ x = 0x1005 ∨ x = 0x1006 ∨ x = 0x1007 := by omega
    rcases this with rfl | rfl | rfl | rfl <;> exact ⟨_, _, rfl, rfl⟩
  · intro i h a n aq rl bytes set x k hi h1 h2 hw hb
    have := reordered_at hi
    rcases reordered_writes hw with ⟨rfl, _, _⟩ | ⟨rfl, _, _⟩
    · rw [before] at hb
      interval_cases i <;> cases hi <;> exact absurd hb (by decide)
    · rw [before] at hb
      interval_cases i <;> cases hi
      · omega
      · exact absurd hb (by decide)
      · exact ⟨3, by simp only [reorderedWitness]; exact if_pos ⟨trivial, by omega⟩, .inl rfl⟩
  · exact fun _ _ _ _ _ _ _ h => h
  · intro h i j e f x hi hj hij he hf hx hy
    have := reordered_at hi
    have := reordered_at hj
    interval_cases i <;> interval_cases j <;> first
      | omega
      | (cases hi; cases hj
         simp [Event.memOpOf, Event.touches, inRange, before, reorderedRank] at he hf hx hy ⊢ <;> omega)
  · intro j h a n aq rl bytes hj
    have := reordered_at hj
    interval_cases j <;> cases hj
    · refine ⟨0, _, _, _, ⟨⟨_, _, _, rfl⟩, by decide, fun k e h1 h2 => by omega⟩, by decide, ?_⟩
      rintro k e hk ⟨g, h1, h2⟩
      have := reordered_at hk
      rw [before] at h1 h2
      interval_cases k <;> first | exact absurd h1 (by decide) | exact absurd h2 (by decide)
    · refine ⟨2, _, _, _, ⟨⟨_, _, _, rfl⟩, by decide, fun k e h1 h2 => by omega⟩, by decide, ?_⟩
      rintro k e hk ⟨g, h1, h2⟩
      have := reordered_at hk
      rw [before] at h1 h2
      interval_cases k <;> first | exact absurd h1 (by decide) | exact absurd h2 (by decide)
  · rintro i j h a n set b m aq rl bytes ⟨⟨_, _, _, hi⟩, hij, hl⟩ hj g
    have := reordered_at hj
    rw [before]
    interval_cases j <;> cases hj
    · interval_cases i
      decide
    · interval_cases i
      · exact absurd (hl 1 _ (by omega) (by omega) rfl) (by decide)
      · cases hi
      · decide
  · intro i k h a n rl bytes set e hi
    have := reordered_at hi
    interval_cases i <;> cases hi
  · intro k j h a n aq bytes e hj
    have := reordered_at hj
    interval_cases j <;> cases hj
  · rintro i j h k e ⟨a, n, rl, bytes, set, b, m, sbytes, hi, _⟩
    have := reordered_at hi
    interval_cases i <;> cases hi
  · intro i h a n aq rl bytes set k b hi hb
    have := reordered_at hi
    have hk := (List.getElem?_eq_some_iff.mp hb).1
    interval_cases i <;> cases hi <;> simp at hk <;> interval_cases k <;> cases hb <;>
      first | rfl | exact ⟨_, rfl, rfl⟩

/-- The two harts' stores to the last byte of the word at 0x1000. -/
theorem witness_NoUpdateIsLost :
    OrderItems crossed (Witness.inOrder crossed) ∧ latestLr crossed 2 3 0 0x1000 4 [⟨0x1000, 4⟩] ∧
    crossed[3]? = some (.sc 0 0x1000 4 true true true [2, 0, 0, 0]) ∧ latestLr crossed 4 5 1 0x1000 4 [⟨0x1000, 4⟩] ∧
    crossed[5]? = some (.sc 1 0x1000 4 true true true [3, 0, 0, 0]) ∧ writesAt crossed 3 0x1003 ∧ writesAt crossed 5 0x1003 :=
  ⟨crossed_items, crossed_latestLr ⟨_, _, _, rfl⟩, rfl, crossed_latestLr ⟨_, _, _, rfl⟩, rfl, ⟨_, 0, rfl, rfl⟩, ⟨_, 0, rfl, rfl⟩⟩

/-- Hart 1's LR at 4 read an older write than hart 1's SC at 5; hart 0's at 2 the launch memory. -/
theorem witness_ReadsAreNotTorn :
    OrderItems crossed (Witness.inOrder crossed) ∧
    crossed[4]? = some (.lr 1 0x1000 4 true false [2, 0, 0, 0] [⟨0x1000, 4⟩]) ∧ writesAt crossed 5 0x1000 ∧
    writesAt crossed 5 0x1003 ∧ (Witness.inOrder crossed).source 4 0x1000 = some 3 ∧
    (Witness.inOrder crossed).before 0 3 5 ∧ (Witness.inOrder crossed).source 2 0x1000 = none :=
  ⟨crossed_items, rfl, ⟨_, 3, rfl, rfl⟩, ⟨_, 0, rfl, rfl⟩, by decide, (by decide : 3 < 5), by decide⟩

/-- One line for each clause: what differs from the lines before. For the third, hart 1's LR at 6 follows its sequence at 4 and 5. -/
theorem witness_OrderingForbidsReorderings :
    OrderItems crossed (Witness.inOrder crossed) ∧
    (latestLr crossed 2 3 0 0x1000 4 [⟨0x1000, 4⟩] ∧ (Witness.inOrder crossed).source 4 0x1000 = some 3 ∧
      (Witness.inOrder crossed).before 1 4 5) ∧
    (crossed[1]? = some (.sc 0 0x1004 4 true true true [1, 0, 0, 0]) ∧ writesAt crossed 1 0x1004 ∧
      crossed[6]? = some (.lr 1 0x1004 4 true false [1, 0, 0, 0] [⟨0x1004, 4⟩])) ∧
    (latestLr crossed 0 1 0 0x1004 4 [⟨0x1004, 4⟩] ∧ crossed[2]? = some (.lr 0 0x1000 4 true false [0, 0, 0, 0] [⟨0x1000, 4⟩]) ∧
      latestLr crossed 4 5 1 0x1000 4 [⟨0x1000, 4⟩] ∧ crossed[5]? = some (.sc 1 0x1000 4 true true true [3, 0, 0, 0]) ∧
      writesAt crossed 5 0x1000 ∧ (Witness.inOrder crossed).source 2 0x1000 = none) :=
  ⟨crossed_items, ⟨crossed_latestLr ⟨_, _, _, rfl⟩, by decide, (by decide : 4 < 5)⟩, ⟨rfl, ⟨_, 1, rfl, rfl⟩, rfl⟩,
    crossed_latestLr ⟨_, _, _, rfl⟩, rfl, crossed_latestLr ⟨_, _, _, rfl⟩, rfl, ⟨_, 3, rfl, rfl⟩, by decide⟩

/-! ### Constrained loops -/

theorem witness_ConstrainedPassHasTheFiveProperties : constrainedPass (params .rv32) ⟨0, 4, 0⟩ casPass = true := by decide

/-! ### Executions -/

/-- `lr.w t0, (a0); sc.w t0, a2, (a0); bne t0, x0, -8`. -/
def loopWords : List InstrWord := [0x100522AF, 0x18C522AF, 0xFE029CE3]

/-- A launch of some words from address 0 on, with the exit after them and without devices. -/
def loopOf (words : List InstrWord) : Params :=
  { withText .rv32 words with devices := 0, exit := some (BitVec.ofNat 64 (4 * words.length)) }

def loopStart : State :=
  { State.start (loopOf loopWords) 0 [] [] with hart := hartWith 0 [(10, 0x1000), (12, 9)] none }

/-- Its run by the reference simulator: the SC succeeds, and the branch leaves the loop. -/
def loopRun : Execution := executionFrom loopStart (fun _ => Choice.reference)

/-- The loop. -/
def theLoop : CodeLoop := ⟨0, 3, 0⟩

theorem loopRun_steps :
    ((loopRun.moment 0).executed = some ⟨0, 0x100522AF, 4, 0x1000, false⟩ ∧
      (loopRun.moment 1).executed = some ⟨4, 0x18C522AF, 8, 0x1000, true⟩ ∧
      (loopRun.moment 2).executed = some ⟨8, 0xFE029CE3, 12, 0, false⟩) ∧
    (loopRun.added 0 = [.lr 0 0x1000 4 false false [0, 0, 0, 0] [⟨0x1000, 4⟩]] ∧
      loopRun.added 1 = [.sc 0 0x1000 4 false false true [9, 0, 0, 0]] ∧ loopRun.added 2 = []) ∧
    ((loopRun.state 3).canMove = false ∧ (loopRun.state 3).before = [] ∧ (loopRun.state 3).after = [] ∧
      (loopRun.state 3).turn = .hart ∧ (loopRun.state 3).params.devices = 0) := by decide

/-- From step 3 on nothing changes but the step count. -/
theorem loopRun_idle (n : Nat) : ∃ c, loopRun.state (n + 3) = { loopRun.state 3 with script := [], count := c } := by
  obtain ⟨_, _, h1, h2, h3, h4, h5⟩ := loopRun_steps
  induction n with
  | zero => exact ⟨(loopRun.state 3).count, by decide⟩
  | succ n ih =>
    obtain ⟨c, hc⟩ := ih
    refine ⟨c + 1, ?_⟩
    rw [show loopRun.state (n + 1 + 3) = advance (loopRun.moment (n + 3)) from rfl, Execution.moment, hc]
    exact advance_alone_idle (s := { loopRun.state 3 with script := [Choice.reference], count := c }) h2 h3 h5 h4 h1

/-- No step after step 2 executes an instruction, faults, or is refused; no step at all does the latter two. -/
theorem loopRun_later (n : Nat) : (loopRun.moment (n + 3)).executed = none ∧ (loopRun.moment (n + 3)).canMove = false := by
  obtain ⟨c, hc⟩ := loopRun_idle n
  have h : (loopRun.moment (n + 3)).canMove = false := by rw [Execution.moment, hc]; exact loopRun_steps.2.2.1
  exact ⟨by simp [State.executed, h], h⟩

theorem loopRun_next (n : Nat) : ∃ t, step (loopRun.moment n) = .next t := by
  obtain ⟨⟨h0, h1, h2⟩, _⟩ := loopRun_steps
  match n with
  | 0 => exact step_next_of (.inl (by rw [h0]; rfl))
  | 1 => exact step_next_of (.inl (by rw [h1]; rfl))
  | 2 => exact step_next_of (.inl (by rw [h2]; rfl))
  | n + 3 => exact step_next_of (.inr (loopRun_later n).2)

theorem loopRun_no_stop (h n : Nat) : ¬ loopRun.traps h n ∧ ¬ loopRun.refuses h n := by
  obtain ⟨t, ht⟩ := loopRun_next n
  constructor
  · rintro ⟨_, f, hf⟩; rw [ht] at hf; cases hf
  · rintro ⟨_, q, hq⟩; rw [ht] at hq; cases hq

/-- Only step 0 enters a loop. -/
theorem loopRun_enters {h n : Nat} {l : CodeLoop} (he : loopRun.enters h l n) : h = 0 ∧ n = 0 ∧ l.lr = 0 := by
  obtain ⟨⟨h0, h1, h2⟩, _⟩ := loopRun_steps
  obtain ⟨hs, e, hx, hpc, hsz⟩ := he
  match n with
  | 0 => rw [h0] at hx; cases hx; exact ⟨hs.symm, rfl, hpc.symm⟩
  | 1 => rw [h1] at hx; cases hx; exact absurd hsz (by decide)
  | 2 => rw [h2] at hx; cases hx; exact absurd hsz (by decide)
  | n + 3 => rw [(loopRun_later n).1] at hx; cases hx

theorem loopRun_exits : loopRun.exits 0 theLoop 2 :=
  ⟨by decide, _, loopRun_steps.1.2.2, by decide⟩

theorem loopRun_stays : loopRun.stays 0 theLoop 0 2 := by
  obtain ⟨⟨h0, h1, _⟩, _⟩ := loopRun_steps
  intro i _ hi
  refine ⟨?_, (loopRun_no_stop 0 i).1⟩
  rintro ⟨_, e, hx, hl⟩
  match i with
  | 0 => rw [h0] at hx; cases hx; exact absurd hl (by decide)
  | 1 => rw [h1] at hx; cases hx; exact absurd hl (by decide)

/-! ### A lone hart runs a loop -/

/-- A lone hart stands at `pc` of the words, with `a` in `a0`. -/
structure alone (words : List InstrWord) (a : Word) (s : State) (pc : Word) : Prop where
  params : s.params = loopOf words
  before : s.before = []
  after  : s.after = []
  turn   : s.turn = .hart
  status : s.hart.status = .running
  pc     : s.pc = pc
  addr   : s.readReg 10 = a

namespace alone

variable {words : List InstrWord} {a : Word} {s t : State} {pc : Word} {w : InstrWord}

/-- Which choices the step has is no matter. -/
theorem withScript (h : alone words a s pc) (c : List Choice) : alone words a { s with script := c } pc :=
  ⟨h.params, h.before, h.after, h.turn, h.status, h.pc, h.addr⟩

/-- A lone hart bears the number 0. -/
theorem self (h : alone words a s pc) : s.self = 0 := by simp [State.self, h.before]

theorem xlen (h : alone words a s pc) : s.xlen = .rv32 := by rw [State.xlen, h.params]; rfl

theorem fetch (h : alone words a s pc) (hp : truncTo .rv32 pc = pc) :
    s.fetch = (State.start (loopOf words) pc [] []).fetch := by
  have e : (State.start (loopOf words) pc [] []).pc = s.pc := by rw [h.pc]; exact hp
  simp only [State.fetch, e, State.xlen, h.params]
  rfl

/-- The end of a step leaves the hart where the instruction put it. -/
theorem endStep (h : alone words a s pc) : alone words a s.endStep pc ∧ ∀ r, s.endStep.readReg r = s.readReg r := by
  rw [State.endStep_alone h.before h.after (by rw [h.params]; rfl)]
  exact ⟨⟨h.params, h.before, h.after, rfl, h.status, h.pc, h.addr⟩, fun _ => rfl⟩

/-- At the exit the hart stays. -/
theorem stays (h : alone words a s pc) (he : (loopOf words).exit = some pc) : s.executed = none ∧ alone words a (advance s) pc := by
  have hc : s.canMove = false := by simp [State.canMove, State.atExit, h.params, he, h.pc]
  refine ⟨by simp [State.executed, hc], ?_⟩
  rw [advance_alone_idle h.before h.after (by rw [h.params]; rfl) h.turn hc]
  exact ⟨h.params, h.before, h.after, h.turn, h.status, h.pc, h.addr⟩

/-- The hart completes the instruction that stands there. -/
theorem runs {i : Instr} (h : alone words a s pc) (hne : (loopOf words).exit ≠ some pc) (hf : s.fetch = .instr w i)
    (he : exec i s = .next t) :
    advance s = t.endStep ∧ s.executed = some ⟨pc, w, t.pc, s.readReg (fieldRs1 w), s.storesWith w⟩ := by
  have hc : s.canMove = true := by simpa [State.canMove, State.atExit, h.params, h.status, h.pc] using hne
  exact ⟨by simp only [advance, step, h.turn, hartStep, hc, if_true, hf, he, mapNext],
    by simp only [State.executed, h.turn, hc, and_self, if_true, hf, he, h.pc]⟩

theorem admits (h : alone words a s pc) (ha : (State.start (loopOf words) 0 [] []).admits a 4 = true) :
    s.admits (s.readReg 10) 4 = true := by
  rw [h.addr]
  simpa only [State.admits, State.meetsText, State.accessible, State.lrscOk, h.params, State.start] using ha

/-- At an LR from `a0` the hart executes it and goes on. -/
theorem reads {rd : Reg} (h : alone words a s pc) (ha : (State.start (loopOf words) 0 [] []).admits a 4 = true)
    (hne : (loopOf words).exit ≠ some pc) (hf : s.fetch = .instr w (.lrW rd 10 false false)) (hrd : rd ≠ 10)
    (hs : scSizeOf .rv32 w = none) (h1 : fieldRs1 w = 10) {next : Word} (hn : truncTo .rv32 (pc + 4) = next) :
    s.executed = some ⟨pc, w, next, a, false⟩ ∧ alone words a (advance s) next := by
  obtain ⟨hv, hx⟩ := h.runs hne hf (State.withAccess_admits (h.admits ha))
  have hl : alone words a (s.lrDone 4 (s.readReg 10) rd false false) next :=
    ⟨by simp [State.lrDone, h.params], by simp [State.lrDone, h.before], by simp [State.lrDone, h.after],
      by simp [State.lrDone, h.turn], by simp [State.lrDone, h.status], by simpa [State.lrDone, State.nextPc, h.pc, h.xlen] using hn,
      by simp [State.lrDone, h.addr, Ne.symm hrd]⟩
  refine ⟨hx.trans ?_, by rw [hv]; exact hl.endStep.1⟩
  rw [hl.pc, State.storesWith, h.xlen, hs, h1, h.addr]

/-- At an SC to `a0` the hart executes it and goes on, with a code that says whether it succeeded. -/
theorem stores {rd : Reg} (h : alone words a s pc) (ha : (State.start (loopOf words) 0 [] []).admits a 4 = true)
    (hne : (loopOf words).exit ≠ some pc) (hf : s.fetch = .instr w (.scW rd 12 10 false false)) (hrd : rd ≠ 10) (h0 : rd ≠ 0)
    (hs : scSizeOf .rv32 w = some 4) (h1 : fieldRs1 w = 10) {next : Word} (hn : truncTo .rv32 (pc + 4) = next) :
    s.executed = some ⟨pc, w, next, a, s.scSucceeds a.toNat 4⟩ ∧ alone words a (advance s) next ∧
    ((advance s).readReg rd = 0 ↔ s.scSucceeds a.toNat 4 = true) := by
  obtain ⟨hv, hx⟩ := h.runs hne hf (State.withAccess_admits (h.admits ha))
  have hm : s.params.memOrder = .interleaved := by rw [h.params]; rfl
  have hl : alone words a (s.scDone 4 (s.readReg 10) rd 12 false false) next ∧
      ((s.scDone 4 (s.readReg 10) rd 12 false false).readReg rd = 0 ↔ s.scSucceeds a.toNat 4 = true) := by
    rw [h.addr]
    cases hs : s.scSucceeds a.toNat 4 with
    | true =>
      rw [State.scDone_of_success _ _ _ _ hs]
      exact ⟨⟨by simp [h.params], by simp [State.store_before, hm, h.before], by simp [State.store_after, hm, h.after],
        by simp [h.turn], by simp [h.status], by simpa [State.nextPc, h.pc, h.xlen] using hn, by simp [h.addr, Ne.symm hrd]⟩, by simp [h0]⟩
    | false =>
      rw [State.scDone_of_failure _ _ _ _ hs]
      refine ⟨⟨by simp [h.params], by simp [h.before], by simp [h.after], by simp [h.turn], by simp [h.status],
        by simpa [State.nextPc, h.pc, h.xlen] using hn, by simp [h.addr, Ne.symm hrd]⟩, ?_⟩
      have := s.failureCode_ne_zero (n := 4) (.inl rfl)
      simpa [h0] using this
  refine ⟨hx.trans ?_, ?_⟩
  · rw [hl.1.pc, State.storesWith, h.xlen, hs, h1, h.addr]
  · rw [hv]
    exact ⟨hl.1.endStep.1, by rw [hl.1.endStep.2]; exact hl.2⟩

/-- At a branch the hart goes to its target, or on. -/
theorem branches {r1 r2 : Reg} {off : BitVec 13} (h : alone words a s pc) (hne : (loopOf words).exit ≠ some pc)
    (hf : s.fetch = .instr w (.bne r1 r2 off)) (hs : scSizeOf .rv32 w = none) {next : Word}
    (hn : next = if s.readReg r1 = s.readReg r2 then truncTo .rv32 (pc + 4) else truncTo .rv32 (pc + sextTo .rv32 off))
    (hal : aligned next 4 = true) :
    s.executed = some ⟨pc, w, next, s.readReg (fieldRs1 w), false⟩ ∧ alone words a (advance s) next ∧
    ∀ r, (advance s).readReg r = s.readReg r := by
  have hd : exec (.bne r1 r2 off) s = execBne r1 r2 off s := rfl
  have done : ∃ t, exec (.bne r1 r2 off) s = .next t ∧ alone words a t next ∧ ∀ r, t.readReg r = s.readReg r := by
    by_cases hq : s.readReg r1 = s.readReg r2
    · rw [if_pos hq] at hn
      refine ⟨s.advancePc, ?_, ⟨h.params, h.before, h.after, h.turn, h.status, ?_, h.addr⟩, fun _ => rfl⟩
      · rw [hd, execBne, if_neg (by simp [State.regsDiffer, hq])]
      · rw [State.advancePc_pc, State.nextPc, h.pc, h.xlen, hn]
    · rw [if_neg hq] at hn
      have ht : s.branchTarget off = next := by rw [State.branchTarget, h.pc, h.xlen, hn]
      refine ⟨s.setPc next, ?_, ⟨h.params, h.before, h.after, h.turn, h.status, ?_, h.addr⟩, fun _ => rfl⟩
      · rw [hd, execBne, if_pos (by simpa [State.regsDiffer] using hq), ht, if_pos hal]
      · rw [State.setPc_pc, h.xlen, hn, truncTo_truncTo]
  obtain ⟨t, he, hl, hr⟩ := done
  obtain ⟨hv, hx⟩ := h.runs hne hf he
  refine ⟨hx.trans ?_, by rw [hv]; exact hl.endStep.1, fun r => by rw [hv, hl.endStep.2, hr]⟩
  rw [hl.pc, State.storesWith, h.xlen, hs]

/-- A completed instruction is what the code does. -/
theorem code {e e' : Executed} {u : State} (hx : s.executed = some e) (hs : s.codeStep = some (e', u)) : e' = e ∧ u = advance s := by
  simp only [State.codeStep, hx] at hs
  cases hs
  exact ⟨rfl, rfl⟩

/-- A base instruction without a row is what the code does there. -/
theorem base (h : alone words a s pc) (hne : (loopOf words).exit ≠ some pc) (hf : s.fetch = .refused (.notInScope w))
    (hb : s.baseWord w = some t) :
    s.codeStep = some (⟨pc, w, t.pc, s.readReg (fieldRs1 w), false⟩, t.endStep) := by
  have hc : s.canMove = true := by simpa [State.canMove, State.atExit, h.params, h.status, h.pc] using hne
  have hx : s.executed = none := by simp [State.executed, h.turn, hc, hf]
  simp [State.codeStep, hx, h.turn, hc, hf, hb, h.pc]

/-- At an ADD the code goes on. -/
theorem adds {rd : Reg} (h : alone words a s pc) (hw : majorOpcode w = 0b0110011) (hk : registerOk w = true)
    (h0 : fieldRd w = rd) (hrd : rd ≠ 10) {next : Word} (hn : truncTo .rv32 (pc + 4) = next) :
    ∃ t, s.baseWord w = some t ∧ alone words a t next := by
  refine ⟨s.resultDone w _, by simp only [State.baseWord, hw, hk]; rfl, ?_⟩
  subst h0
  exact ⟨by simp [State.resultDone, h.params], by simp [State.resultDone, h.before], by simp [State.resultDone, h.after],
    by simp [State.resultDone, h.turn], by simp [State.resultDone, h.status],
    by simpa [State.resultDone, State.nextPc, h.pc, h.xlen] using hn, by simp [State.resultDone, h.addr, Ne.symm hrd]⟩

/-- At a JAL the code goes to the target. -/
theorem jumps {rd : Reg} (h : alone words a s pc) (hw : majorOpcode w = 0b1101111) (h0 : fieldRd w = rd) (hrd : rd ≠ 10)
    {next : Word} (hn : truncTo .rv32 (pc + sextTo .rv32 (fieldImmJ w)) = next) (hal : aligned next 4 = true) :
    ∃ t, s.baseWord w = some t ∧ alone words a t next := by
  subst h0
  refine ⟨(s.writeReg (fieldRd w) s.nextPc).setPc next, ?_, ?_⟩
  · simp only [State.baseWord, hw, h.xlen, h.pc, hn, State.goTo, hal]
    rfl
  · exact ⟨by simp [h.params], by simp [h.before], by simp [h.after], by simp [h.turn], by simp [h.status],
      by rw [State.setPc_pc, State.writeReg_xlen, h.xlen, ← hn, truncTo_truncTo], by simp [h.addr, Ne.symm hrd]⟩

/-- A hart of which code runs is there, running, with the turn. -/
theorem ofStep {e : Executed} {u : State} (hs : s.codeStep = some (e, u)) (hp : s.params = loopOf words)
    (hl : s.harts.length = 1) (hpc : s.pc = pc) : alone words (s.readReg 10) s pc := by
  have hm : s.turn = .hart ∧ s.canMove = true := by
    unfold State.codeStep at hs
    split at hs
    · rename_i hx
      exact ⟨(State.executed_some hx).1, (State.executed_some hx).2.1⟩
    · split at hs
      · assumption
      · cases hs
  have hb : s.before = [] ∧ s.after = [] := by
    simp only [State.harts, List.length_append, List.length_cons] at hl
    exact ⟨List.length_eq_zero_iff.mp (by omega), List.length_eq_zero_iff.mp (by omega)⟩
  have hst : s.hart.status = .running := by
    have := hm.2
    simp [State.canMove] at this
    exact this.1
  exact ⟨hp, hb.1, hb.2, hm.1, hst, hpc, rfl⟩

/-- What holds at an LR from `a0` whose address the checks admit, and is kept by every step of code, holds of all that code can do. -/
theorem induct {l : CodeLoop} {rd : Reg} {lr : Word} (hl : lr.toNat = l.lr) (hp : truncTo .rv32 lr = lr)
    (hf : (State.start (loopOf words) lr [] []).fetch = .instr w (.lrW rd 10 false false))
    (P : Word → List Executed → State → Prop) (first : ∀ a s, alone words a s lr → P a [] s)
    (more : ∀ a es s c e u, (State.start (loopOf words) 0 [] []).admits a 4 = true → P a es s →
      State.codeStep { s with script := [c] } = some (e, u) → P a (es ++ [e]) u)
    {es : List Executed} (hr : l.runs (loopOf words) es) : es = [] ∨ ∃ a t, P a es t := by
  obtain ⟨s, t, hpar, hlen, hpc, hr⟩ := hr
  have all : (es = [] ∧ t = s) ∨ ∃ a, (State.start (loopOf words) 0 [] []).admits a 4 = true ∧ P a es t := by
    induction hr with
    | start => exact .inl ⟨rfl, rfl⟩
    | @step es e t u c run next ih =>
      rcases ih with ⟨rfl, rfl⟩ | ⟨a, ha, h⟩
      · have al : alone words _ { t with script := [c] } lr := ofStep next hpar hlen (BitVec.eq_of_toNat_eq (hpc.trans hl.symm))
        have adm : (State.start (loopOf words) 0 [] []).admits (t.readReg 10) 4 = true := by
          have hf := (al.fetch hp).trans hf
          cases hx : State.executed { t with script := [c] } with
          | none => simp [State.codeStep, hx, hf] at next
          | some e =>
            obtain ⟨_, _, v, i, t', hi, he, _⟩ := State.executed_some hx
            cases hi.symm.trans hf
            have := (State.withAccess_next (show State.withAccess _ _ _ _ _ = _ from he)).1
            have same : ∀ v : Word, State.admits { t with script := [c] } v 4 = (State.start (loopOf words) 0 [] []).admits v 4 := by
              intro v
              simp only [State.admits, State.meetsText, State.accessible, State.lrscOk, hpar, State.start]
            rw [same] at this
            exact this
        exact .inr ⟨_, adm, more _ [] t c e u adm (first _ t (al.withScript t.script)) next⟩
      · exact .inr ⟨a, ha, more a es t c e u ha h next⟩
  rcases all with ⟨h, _⟩ | ⟨a, _, h⟩
  · exact .inl h
  · exact .inr ⟨a, t, h⟩

end alone

/-- What the hart does at each word of `theLoop`. -/
theorem loop_at_lr {a : Word} {s : State} (h : alone loopWords a s 0)
    (ha : (State.start (loopOf loopWords) 0 [] []).admits a 4 = true) :
    s.executed = some ⟨0, 0x100522AF, 4, a, false⟩ ∧ alone loopWords a (advance s) 4 :=
  h.reads (rd := 5) ha (by decide) ((h.fetch (by decide)).trans (by decide)) (by decide) (by decide) (by decide) (by decide)

theorem loop_at_sc {a : Word} {s : State} (h : alone loopWords a s 4)
    (ha : (State.start (loopOf loopWords) 0 [] []).admits a 4 = true) :
    s.executed = some ⟨4, 0x18C522AF, 8, a, s.scSucceeds a.toNat 4⟩ ∧ alone loopWords a (advance s) 8 ∧
    ((advance s).readReg 5 = 0 ↔ s.scSucceeds a.toNat 4 = true) :=
  h.stores ha (by decide) ((h.fetch (by decide)).trans (by decide)) (by decide) (by decide) (by decide) (by decide) (by decide)

theorem loop_at_branch {a : Word} {s : State} (h : alone loopWords a s 8) :
    (s.readReg 5 = 0 → s.executed = some ⟨8, 0xFE029CE3, 12, 0, false⟩ ∧ alone loopWords a (advance s) 12) ∧
    (s.readReg 5 ≠ 0 → s.executed = some ⟨8, 0xFE029CE3, 0, s.readReg 5, false⟩ ∧ alone loopWords a (advance s) 0) := by
  have hf : s.fetch = .instr 0xFE029CE3 (.bne 5 0 (-8)) := (h.fetch (by decide)).trans (by decide)
  constructor
  · intro h5
    obtain ⟨h1, h2, _⟩ := h.branches (next := 12) (by decide) hf (by decide) (by rw [h5]; rfl) (by decide)
    rw [show fieldRs1 0xFE029CE3 = 5 by decide, h5] at h1
    exact ⟨h1, h2⟩
  · intro h5
    obtain ⟨h1, h2, _⟩ := h.branches (next := 0) (by decide) hf (by decide)
      (by rw [if_neg (by simpa using h5)]; decide) (by decide)
    exact ⟨h1, h2⟩

/-- Once an attempt is over, it stays so. -/
theorem phase_over (q : Execution) {k : Nat} {ph : Phase} (hp : ∀ p l e, Phase.next p l ph e = ph)
    (h : q.phase 0 theLoop 0 k = ph) (d : Nat) : q.phase 0 theLoop 0 (k + d) = ph := by
  induction d with
  | zero => exact h
  | succ d ih =>
    by_cases hn : (q.moment (0 + (k + d))).self = 0 ∧ (q.moment (0 + (k + d))).executed.isSome = true
    · obtain ⟨e, he⟩ := Option.isSome_iff_exists.mp hn.2
      exact (q.phase_succ_of_executed theLoop hn.1 he).trans (by rw [ih]; exact hp _ _ _)
    · exact (q.phase_succ_of_not theLoop
        (fun hs => Option.not_isSome_iff_eq_none.mp (fun hx => hn ⟨hs, hx⟩))).trans ih

/-- Past the SC the registers' values count no more. -/
theorem after_addr (p : Params) (l : CodeLoop) (ok : Bool) (seen : List Word) (e : Executed) (a : Word) :
    Phase.next p l (.after ok seen) { e with addr := a } = Phase.next p l (.after ok seen) e := rfl

/-- Every attempt is as R93 to R96 say: the SC, then the branch, which leaves after a success and goes back after a failure. -/
theorem loop_attempts : loopRun.attemptOk 0 theLoop 0 := by
  intro q hq k
  obtain ⟨hv, h0, _⟩ := hq
  have hp : (q.state 0).params = loopOf loopWords := by rw [h0]; rfl
  have ha : (State.start (loopOf loopWords) 0 [] []).admits 0x1000 4 = true := by decide
  have b0 : alone loopWords 0x1000 (q.moment 0) 0 := by
    rw [Execution.moment, h0]
    exact ⟨rfl, rfl, rfl, rfl, rfl, (by decide : loopStart.pc = 0), (by decide : loopStart.readReg 10 = 0x1000)⟩
  obtain ⟨x0, a1⟩ := loop_at_lr b0 ha
  rw [← hv 0] at a1
  have b1 : alone loopWords 0x1000 (q.moment 1) 4 := a1.withScript _
  obtain ⟨x1, a2, h5⟩ := loop_at_sc b1 ha
  rw [← hv 1] at a2 h5
  have b2 : alone loopWords 0x1000 (q.moment 2) 8 := a2.withScript _
  have p1 : q.phase 0 theLoop 0 1 = .between 0x1000 4 [0] := by
    rw [q.phase_succ_of_executed theLoop (n := 0) (k := 0) b0.self x0, hp, Execution.phase_zero]
    decide
  have p2 : q.phase 0 theLoop 0 2 = .after ((q.moment 1).scSucceeds 0x1000 4) [4, 0] := by
    rw [q.phase_succ_of_executed theLoop (n := 0) (k := 1) b1.self x1, p1, hp]
    exact (by decide : ∀ ok, Phase.next (loopOf loopWords) theLoop (.between 0x1000 4 [0]) ⟨4, 0x18C522AF, 8, 0x1000, ok⟩ =
      .after ok [4, 0]) _
  cases hs : (q.moment 1).scSucceeds 0x1000 4 with
  | true =>
    have x2 := ((loop_at_branch b2).1 (h5.mpr hs)).1
    have p3 : q.phase 0 theLoop 0 3 = .left := by
      rw [q.phase_succ_of_executed theLoop (n := 0) (k := 2) b2.self x2, p2, hp, hs]
      decide
    match k with
    | 0 => exact ⟨by simp, by simp⟩
    | 1 => exact ⟨by rw [p1]; simp, by rw [p1]; simp⟩
    | 2 => exact ⟨by rw [p2]; simp, by rw [p2]; simp⟩
    | k + 3 =>
      have := phase_over q (fun _ _ _ => rfl) p3 k
      rw [Nat.add_comm] at this
      rw [this]
      exact ⟨by simp, by simp⟩
  | false =>
    obtain ⟨x2, a3⟩ := (loop_at_branch b2).2 (fun h => Bool.false_ne_true (hs.symm.trans (h5.mp h)))
    rw [← hv 2] at a3
    have b3 : alone loopWords 0x1000 (q.moment 3) 0 := a3.withScript _
    have x3 := (loop_at_lr b3 ha).1
    have p3 : q.phase 0 theLoop 0 3 = .back := by
      rw [q.phase_succ_of_executed theLoop (n := 0) (k := 2) b2.self x2, p2, hp, hs]
      exact (after_addr _ _ _ _ ⟨8, 0xFE029CE3, 0, 0, false⟩ _).trans (by decide)
    have p4 : q.phase 0 theLoop 0 4 = .ended := by
      rw [q.phase_succ_of_executed theLoop (n := 0) (k := 3) b3.self x3, p3, hp]
      decide
    match k with
    | 0 => exact ⟨by simp, by simp⟩
    | 1 => exact ⟨by rw [p1]; simp, by rw [p1]; simp⟩
    | 2 => exact ⟨by rw [p2]; simp, by rw [p2]; simp⟩
    | 3 => exact ⟨by rw [p3]; simp, by rw [p3]; simp⟩
    | k + 4 =>
      have := phase_over q (fun _ _ _ => rfl) p4 k
      rw [Nat.add_comm] at this
      rw [this]
      exact ⟨by simp, by simp⟩

/-! ### What code can do -/

/-- The code executes a word and then what it does from there. -/
theorem CodeRun_cons {s u t : State} {c : Choice} {e : Executed} {es : List Executed}
    (h : State.codeStep { s with script := [c] } = some (e, u)) (r : CodeRun u es t) : CodeRun s (e :: es) t := by
  induction r with
  | start => exact .step c .start h
  | step c' _ next ih => exact .step c' ih next

/-- What the code does with given choices. -/
def codeFrom (s : State) : List Choice → Option (List Executed)
  | [] => some []
  | c :: cs =>
    match State.codeStep { s with script := [c] } with
    | none => none
    | some (e, u) => (codeFrom u cs).map (fun es => e :: es)

theorem codeFrom_runs {s : State} {cs : List Choice} {es : List Executed} (h : codeFrom s cs = some es) : ∃ t, CodeRun s es t := by
  induction cs generalizing s es with
  | nil => cases h; exact ⟨s, .start⟩
  | cons c cs ih =>
    simp only [codeFrom] at h
    split at h
    · cases h
    · rename_i e u hs
      obtain ⟨es', h1, rfl⟩ := Option.map_eq_some_iff.mp h
      obtain ⟨t, ht⟩ := ih h1
      exact ⟨t, CodeRun_cons hs ht⟩

/-- Code from a launch of the words, with some registers and memory. -/
theorem runs_of_codeFrom {words : List InstrWord} {l : CodeLoop} (regs : List (Reg × Word)) (mem : Memory) {cs : List Choice}
    {es : List Executed} (hl : (BitVec.ofNat 64 l.lr).toNat = l.lr ∧ truncTo .rv32 (BitVec.ofNat 64 l.lr) = BitVec.ofNat 64 l.lr)
    (h : codeFrom { State.start (loopOf words) 0 [] mem with hart := hartWith (BitVec.ofNat 64 l.lr) regs none } cs = some es) :
    l.runs (loopOf words) es := by
  obtain ⟨t, ht⟩ := codeFrom_runs h
  refine ⟨_, t, rfl, rfl, ?_, ht⟩
  show (truncTo .rv32 (BitVec.ofNat 64 l.lr)).toNat = l.lr
  rw [hl.2, hl.1]

/-- What the code does before its last word. -/
theorem runs_init {p : Params} {l : CodeLoop} {es : List Executed} {e : Executed} (h : l.runs p (es ++ [e])) : l.runs p es := by
  obtain ⟨s, t, h1, h2, h3, h⟩ := h
  generalize hx : es ++ [e] = xs at h
  cases h with
  | start => simp at hx
  | step c run next =>
    obtain ⟨rfl, _⟩ := List.append_inj' hx rfl
    exact ⟨s, _, h1, h2, h3, run⟩

/-- The words of a failed attempt serve the loop. -/
theorem serves_of_retries {p : Params} {l : CodeLoop} {es : List Executed} (h : l.retries p es) {a : Nat}
    (ha : ∃ e ∈ es, e.pc.toNat = a) : l.serves p a := .inr (.inl ⟨es, h, ha⟩)

/-- The choices of an attempt whose SC at step `k` of `n` fails. -/
def failAt (k n : Nat) : List Choice := (List.range n).map (fun i => { Choice.reference with spurious := i == k })

/-- `theLoop` is a loop of the shape of R92: each of its words runs in an attempt that fails and comes back, and after a success the
branch leaves, whatever the registers hold. -/
theorem theLoop_is_a_loop : theLoop.isLoop (loopOf loopWords) := by
  have back : theLoop.retries (loopOf loopWords) [ran 0 0x100522AF 4 0x1000, ran 4 0x18C522AF 8 0x1000, ran 8 0xFE029CE3 0 1] :=
    ⟨runs_of_codeFrom [(10, 0x1000)] [] (cs := failAt 1 3) (by decide) (by decide), by decide⟩
  refine ⟨by decide, ⟨_, back⟩, fun k hk => serves_of_retries back ?_, fun es hr => ?_⟩
  · have hk : k < 3 := hk
    interval_cases k <;> decide
  · rintro ⟨_, ⟨e, he, hst⟩, f, hf, hlr⟩
    have inv := alone.induct (words := loopWords) (l := theLoop) (lr := 0) (w := 0x100522AF) (rd := 5) rfl (by decide) (by decide)
      (fun a es s => ((∀ e ∈ es, e.stored = false) ∧ (alone loopWords a s 0 ∨ alone loopWords a s 4 ∨
          alone loopWords a s 8 ∧ s.readReg 5 ≠ 0)) ∨
        (alone loopWords a s 8 ∧ s.readReg 5 = 0 ∧ ∀ e ∈ es.getLast?, e.next = 8) ∨
        (alone loopWords a s 12 ∧ ∀ e ∈ es.getLast?, e.next = 12))
      (fun a s h => .inl ⟨by simp, .inl h⟩) (fun a es s c e u ha ih next => ?_) hr
    · rcases inv with rfl | ⟨a, t, ⟨hn, _⟩ | ⟨_, _, hl⟩ | ⟨_, hl⟩⟩
      · cases he
      · rw [hn e he] at hst; cases hst
      · rw [hl f hf] at hlr; cases hlr
      · rw [hl f hf] at hlr; cases hlr
    · rcases ih with ⟨hn, h | h | ⟨h, h5⟩⟩ | ⟨h, h5, _⟩ | ⟨h, hl⟩ <;> replace h := h.withScript [c]
      · obtain ⟨x, a1⟩ := loop_at_lr h ha
        obtain ⟨rfl, rfl⟩ := alone.code x next
        exact .inl ⟨by simpa [or_imp, forall_and] using hn, .inr (.inl a1)⟩
      · obtain ⟨x, a1, h5⟩ := loop_at_sc h ha
        obtain ⟨rfl, rfl⟩ := alone.code x next
        cases hs : State.scSucceeds { s with script := [c] } a.toNat 4 with
        | true => exact .inr (.inl ⟨a1, h5.mpr hs, by simp⟩)
        | false => exact .inl ⟨by simpa [or_imp, forall_and] using hn, .inr (.inr ⟨a1, fun q => by rw [h5.mp q] at hs; cases hs⟩)⟩
      · obtain ⟨x, a1⟩ := (loop_at_branch h).2 h5
        obtain ⟨rfl, rfl⟩ := alone.code x next
        exact .inl ⟨by simpa [or_imp, forall_and] using hn, .inl a1⟩
      · obtain ⟨x, a1⟩ := (loop_at_branch h).1 h5
        obtain ⟨rfl, rfl⟩ := alone.code x next
        exact .inr (.inr ⟨a1, by simp⟩)
      · obtain ⟨x, _⟩ := h.stays rfl
        have hf : State.fetch { s with script := [c] } = .fault (.instructionAccessFault 12) := (h.fetch (by decide)).trans (by decide)
        simp [State.codeStep, x, hf] at next

/-- An attempt in one of these phases does not come back after a failed SC. -/
def cannotRetry (ph : Phase) : Prop :=
  ph = .again ∨ ph = .left ∨ ph = .ended ∨ ph = .broken ∨ ∃ seen, ph = .after true seen

theorem cannotRetry_next {p : Params} {l : CodeLoop} {ph : Phase} (e : Executed) (h : cannotRetry ph) :
    cannotRetry (Phase.next p l ph e) := by
  rcases h with rfl | rfl | rfl | rfl | ⟨seen, rfl⟩
  · exact .inl rfl
  · exact .inr (.inl rfl)
  · exact .inr (.inr (.inl rfl))
  · exact .inr (.inr (.inr (.inl rfl)))
  · simp only [Phase.next]
    split
    · rcases Phase.land_cases p.xlen l e .again (.after true (e.pc :: seen)) with q | q | ⟨q, _⟩ | q <;> simp [q, cannotRetry]
    · simp [cannotRetry]

/-- Nor does one whose SC has just succeeded. -/
theorem cannotRetry_of_success {p : Params} {l : CodeLoop} (ph : Phase) {e : Executed} {n : Nat}
    (hs : scSizeOf p.xlen e.word = some n) (hst : e.stored = true) (hpc : e.pc.toNat ≠ l.lr) :
    cannotRetry (Phase.next p l ph e) := by
  have hr := (Executed.class_of_lrSc (e := e) (.inr (by rw [hs]; rfl))).2.2.1 l
  cases ph with
  | atLr => simp [Phase.next, hpc, cannotRetry]
  | between a m seen =>
    simp only [Phase.next, hs, hst]
    split
    · split
      · rcases Phase.land_cases p.xlen l e .broken (.after true (e.pc :: seen)) with q | q | ⟨q, _⟩ | q <;> simp [q, cannotRetry]
      · simp [cannotRetry]
    · simp [cannotRetry]
  | after ok seen => simp [Phase.next, hr, cannotRetry]
  | back => simp [Phase.next, hpc, cannotRetry]
  | again => exact .inl rfl
  | left => exact .inr (.inl rfl)
  | ended => exact .inr (.inr (.inl rfl))
  | broken => exact .inr (.inr (.inr (.inl rfl)))

/-- `lr.w t0, (a0); sc.w t1, a2, (a0); bne t1, x0, +12; addi a3, x0, 1; bne a3, x0, +8; bne t1, x0, -20`. -/
def withSuccessCode : List InstrWord := [0x100522AF, 0x18C5232F, 0x00031663, 0x00100693, 0x00069463, 0xFE0316E3]

/-- R92: code that runs only after a success is neither the LR/SC sequence nor code to retry it, so this is no loop. -/
theorem test_no_loop_with_success_code : ¬ (⟨0, 6, 0⟩ : CodeLoop).isLoop (loopOf withSuccessCode) := by
  rintro ⟨_, _, hserves, _⟩
  have inv {es : List Executed} (hr : (⟨0, 6, 0⟩ : CodeLoop).runs (loopOf withSuccessCode) es) := alone.induct (words := withSuccessCode) (l := ⟨0, 6, 0⟩) (lr := 0) (w := 0x100522AF) (rd := 5) rfl (by decide) (by decide)
    (fun a es s => cannotRetry (phaseAfter (loopOf withSuccessCode) ⟨0, 6, 0⟩ es) ∨ ((∀ e ∈ es, e.pc ≠ 12) ∧
      (alone withSuccessCode a s 0 ∨ alone withSuccessCode a s 4 ∨
        (alone withSuccessCode a s 8 ∨ alone withSuccessCode a s 20) ∧ s.readReg 6 ≠ 0)))
    (fun a s h => .inr ⟨by simp, .inl h⟩) (fun a es s c e u ha ih next => ?_) hr
  · rcases hserves 3 (by decide) with h | ⟨es, ⟨hr, hk⟩, e, he, hpc⟩ | ⟨es, e, seen, hr, hk, hpc, hl⟩
    · exact absurd h (by decide)
    · rcases inv hr with rfl | ⟨a, t, h | ⟨hn, _⟩⟩
      · cases he
      · rw [hk] at h
        rcases h with h | h | h | h | ⟨_, h⟩ <;> cases h
      · exact hn e he (BitVec.eq_of_toNat_eq hpc)
    · obtain ⟨s, t, hp, _, _, hr⟩ := hr
      have hw := hr.words.2 e (by simp)
      rw [hp, hpc, show textAt (loopOf withSuccessCode).text 12 = some 0x00100693 by decide] at hw
      have hc : classOf .rv32 e.word = .baseOther := by rw [← Option.some.inj hw]; decide
      have hl : e.leaves .rv32 ⟨0, 6, 0⟩ = true := hl
      simp [Executed.leaves, hc] at hl
  · have ph : ∀ e, phaseAfter (loopOf withSuccessCode) ⟨0, 6, 0⟩ (es ++ [e]) =
        Phase.next (loopOf withSuccessCode) ⟨0, 6, 0⟩ (phaseAfter (loopOf withSuccessCode) ⟨0, 6, 0⟩ es) e := by
      intro e; simp [phaseAfter, List.foldl_append]
    rcases ih with h | ⟨hn, h | h | ⟨h | h, h6⟩⟩
    · left
      rw [ph]
      exact cannotRetry_next _ h
    all_goals replace h := h.withScript [c]
    · obtain ⟨x, a1⟩ := h.reads (next := 4) (w := 0x100522AF) ha (by decide) ((h.fetch (by decide)).trans (by decide))
        (by decide : (5 : Reg) ≠ 10) (by decide) (by decide) (by decide)
      obtain ⟨rfl, rfl⟩ := alone.code x next
      exact .inr ⟨by simpa [or_imp, forall_and] using hn, .inr (.inl a1)⟩
    · obtain ⟨x, a1, h6⟩ := h.stores (next := 8) (w := 0x18C5232F) (rd := 6) ha (by decide)
        ((h.fetch (by decide)).trans (by decide)) (by decide) (by decide) (by decide) (by decide) (by decide)
      obtain ⟨rfl, rfl⟩ := alone.code x next
      cases hs : State.scSucceeds { s with script := [c] } a.toNat 4 with
      | true =>
        left
        rw [ph]
        exact cannotRetry_of_success _ (n := 4) (by decide : scSizeOf .rv32 0x18C5232F = some 4) rfl
          (by decide : (4 : Word).toNat ≠ 0)
      | false =>
        exact .inr ⟨by simpa [or_imp, forall_and] using hn, .inr (.inr ⟨.inl a1, fun q => by rw [h6.mp q] at hs; cases hs⟩)⟩
    · obtain ⟨x, a1, hr⟩ := h.branches (next := 20) (w := 0x00031663) (r1 := 6) (r2 := 0) (off := 12) (by decide)
        ((h.fetch (by decide)).trans (by decide)) (by decide) (if_neg (show ¬ s.readReg 6 = s.readReg 0 from h6)).symm (by decide)
      obtain ⟨rfl, rfl⟩ := alone.code x next
      exact .inr ⟨by simpa [or_imp, forall_and] using hn, .inr (.inr ⟨.inr a1, by rw [hr]; exact h6⟩)⟩
    · obtain ⟨x, a1, _⟩ := h.branches (next := 0) (w := 0xFE0316E3) (r1 := 6) (r2 := 0) (off := -20) (by decide)
        ((h.fetch (by decide)).trans (by decide)) (by decide) (if_neg (show ¬ s.readReg 6 = s.readReg 0 from h6)).symm (by decide)
      obtain ⟨rfl, rfl⟩ := alone.code x next
      exact .inr ⟨by simpa [or_imp, forall_and] using hn, .inl a1⟩

/-- `lr.w t0, (a0); bne t0, a1, +8;` then `add t0, t0, a2` or `jal x0, +12`, `sc.w t1, a2, (a0); bne t1, x0, -16`. -/
def withSkip (out : Bool) : List InstrWord :=
  [0x100522AF, 0x00B29463, if out then 0x00C0006F else 0x00C282B3, 0x18C5232F, 0xFE0318E3]

/-- R92, R93: with a word between the LR and the SC that R109 allows and a fetch refuses, here skipped in the attempts that come back,
the code is a loop, be that word a computation or the jump that exits (R99). -/
theorem test_loop_with_a_word_skipped (out : Bool) : (⟨0, 5, 0⟩ : CodeLoop).isLoop (loopOf (withSkip out)) := by
  have back : (⟨0, 5, 0⟩ : CodeLoop).retries (loopOf (withSkip out))
      [ran 0 0x100522AF 4 0x1000, ran 4 0x00B29463 12 0, ran 12 0x18C5232F 16 0x1000, ran 16 0xFE0318E3 0 1] :=
    ⟨runs_of_codeFrom [(10, 0x1000), (11, 1)] [] (cs := failAt 2 4) (by decide) (by cases out <;> decide), by cases out <;> decide⟩
  refine ⟨by cases out <;> decide, ⟨_, back⟩, fun k hk => ?_, fun es hr => ?_⟩
  · have hk : k < 5 := hk
    by_cases h2 : k = 2
    · subst h2; exact .inl (by cases out <;> decide)
    · refine serves_of_retries back ?_
      interval_cases k <;> first | decide | exact absurd rfl h2
  · rintro ⟨_, ⟨e, he, hst⟩, f, hf, hlr⟩
    have inv := alone.induct (words := (withSkip out)) (l := ⟨0, 5, 0⟩) (lr := 0) (w := 0x100522AF) (rd := 5) rfl (by decide)
      (by cases out <;> decide)
      (fun a es s => ((∀ e ∈ es, e.stored = false) ∧ (alone (withSkip out) a s 0 ∨ alone (withSkip out) a s 4 ∨ alone (withSkip out) a s 8 ∨
          alone (withSkip out) a s 12 ∨ alone (withSkip out) a s 16 ∧ s.readReg 6 ≠ 0)) ∨
        (alone (withSkip out) a s 16 ∧ s.readReg 6 = 0 ∧ ∀ e ∈ es.getLast?, e.next = 16) ∨
        (alone (withSkip out) a s 20 ∧ ∀ e ∈ es.getLast?, e.next = 20))
      (fun a s h => .inl ⟨by simp, .inl h⟩) (fun a es s c e u ha ih next => ?_) hr
    · rcases inv with rfl | ⟨a, t, ⟨hn, _⟩ | ⟨_, _, hl⟩ | ⟨_, hl⟩⟩
      · cases he
      · rw [hn e he] at hst; cases hst
      · rw [hl f hf] at hlr; cases hlr
      · rw [hl f hf] at hlr; cases hlr
    · rcases ih with ⟨hn, h | h | h | h | ⟨h, h6⟩⟩ | ⟨h, h6, _⟩ | ⟨h, _⟩ <;> replace h := h.withScript [c]
      · obtain ⟨x, a1⟩ := h.reads (next := 4) (w := 0x100522AF) ha (by cases out <;> decide) ((h.fetch (by decide)).trans (by cases out <;> decide))
          (by decide : (5 : Reg) ≠ 10) (by decide) (by decide) (by decide)
        obtain ⟨rfl, rfl⟩ := alone.code x next
        exact .inl ⟨by simpa [or_imp, forall_and] using hn, .inr (.inl a1)⟩
      · have hb : State.fetch { s with script := [c] } = .instr 0x00B29463 (.bne 5 11 8) := (h.fetch (by decide)).trans (by cases out <;> decide)
        by_cases q : State.readReg { s with script := [c] } 5 = State.readReg { s with script := [c] } 11
        · obtain ⟨x, a1, _⟩ := h.branches (next := 8) (by cases out <;> decide) hb (by decide) (by rw [if_pos q]; decide) (by decide)
          obtain ⟨rfl, rfl⟩ := alone.code x next
          exact .inl ⟨by simpa [or_imp, forall_and] using hn, .inr (.inr (.inl a1))⟩
        · obtain ⟨x, a1, _⟩ := h.branches (next := 12) (by cases out <;> decide) hb (by decide) (by rw [if_neg q]; decide) (by decide)
          obtain ⟨rfl, rfl⟩ := alone.code x next
          exact .inl ⟨by simpa [or_imp, forall_and] using hn, .inr (.inr (.inr (.inl a1)))⟩
      · cases out with
        | false =>
          obtain ⟨t, hb, a1⟩ := h.adds (next := 12) (rd := 5) (w := 0x00C282B3) (by decide) (by decide) (by decide) (by decide) (by decide)
          cases (h.base (by decide) ((h.fetch (by decide)).trans (by decide)) hb).symm.trans next
          exact .inl ⟨by simpa [or_imp, forall_and] using hn, .inr (.inr (.inr (.inl a1.endStep.1)))⟩
        | true =>
          obtain ⟨t, hb, a1⟩ := h.jumps (next := 20) (rd := 0) (w := 0x00C0006F) (by decide) (by decide) (by decide) (by decide) (by decide)
          cases (h.base (by decide) ((h.fetch (by decide)).trans (by decide)) hb).symm.trans next
          exact .inr (.inr ⟨a1.endStep.1, by simp [a1.pc]⟩)
      · obtain ⟨x, a1, h6⟩ := h.stores (next := 16) (w := 0x18C5232F) (rd := 6) ha (by cases out <;> decide)
          ((h.fetch (by decide)).trans (by cases out <;> decide)) (by decide) (by decide) (by decide) (by decide) (by decide)
        obtain ⟨rfl, rfl⟩ := alone.code x next
        cases hs : State.scSucceeds { s with script := [c] } a.toNat 4 with
        | true => exact .inr (.inl ⟨a1, h6.mpr hs, by simp⟩)
        | false =>
          exact .inl ⟨by simpa [or_imp, forall_and] using hn,
            .inr (.inr (.inr (.inr ⟨a1, fun q => by rw [h6.mp q] at hs; cases hs⟩)))⟩
      · obtain ⟨x, a1, _⟩ := h.branches (next := 0) (w := 0xFE0318E3) (r1 := 6) (r2 := 0) (off := -16) (by cases out <;> decide)
          ((h.fetch (by decide)).trans (by cases out <;> decide)) (by decide) (if_neg (show ¬ s.readReg 6 = s.readReg 0 from h6)).symm (by decide)
        obtain ⟨rfl, rfl⟩ := alone.code x next
        exact .inl ⟨by simpa [or_imp, forall_and] using hn, .inl a1⟩
      · obtain ⟨x, a1, _⟩ := h.branches (next := 20) (w := 0xFE0318E3) (r1 := 6) (r2 := 0) (off := -16) (by cases out <;> decide)
          ((h.fetch (by decide)).trans (by cases out <;> decide)) (by decide) (if_pos (show s.readReg 6 = s.readReg 0 from h6)).symm (by decide)
        obtain ⟨rfl, rfl⟩ := alone.code x next
        exact .inr (.inr ⟨a1, by simp⟩)
      · obtain ⟨x, _⟩ := h.stays (by cases out <;> rfl)
        have hf : State.fetch { s with script := [c] } = .fault (.instructionAccessFault 20) := (h.fetch (by decide)).trans (by cases out <;> decide)
        simp [State.codeStep, x, hf] at next

/-- `lr.w t0, (a0); sc.w t1, a2, (a0); beq t1, x0, +8; jal x0, -12`: a failed attempt runs each word and comes back. -/
theorem test_retry_with_beq_and_jal (k : Nat) (hk : k < 4) :
    (⟨0, 4, 0⟩ : CodeLoop).serves (loopOf [0x100522AF, 0x18C5232F, 0x00030463, 0xFF5FF06F]) (4 * k) := by
  refine serves_of_retries (es := [ran 0 0x100522AF 4 0x1000, ran 4 0x18C5232F 8 0x1000, ran 8 0x00030463 12 1, ran 12 0xFF5FF06F 0 0])
    ⟨runs_of_codeFrom [(10, 0x1000)] [] (cs := failAt 1 4) (by decide) (by decide), by decide⟩ ?_
  interval_cases k <;> decide

/-- `lr.w t0, (a0); sc.w t1, a2, (a0); bne a1, x0, +8; jal x0, +8; bne t1, x0, -16`: the jump that gives up after a failure is the exit
of code to retry (R94, R99). -/
theorem test_retry_code_may_give_up :
    (⟨0, 5, 0⟩ : CodeLoop).serves (loopOf [0x100522AF, 0x18C5232F, 0x00059463, 0x0080006F, 0xFE0318E3]) 12 :=
  .inr (.inr ⟨[ran 0 0x100522AF 4 0x1000, ran 4 0x18C5232F 8 0x1000, ran 8 0x00059463 12 0], ran 12 0x0080006F 20 0, [8, 4, 0],
    runs_of_codeFrom [(10, 0x1000)] [] (cs := failAt 1 4) (by decide) (by decide), by decide, by decide, by decide⟩)

/-- A 32-bit hart at 100H. -/
def at100 (regs : List (Reg × Word)) : State := { st .rv32 [] [] none with hart := hartWith 0x100 regs none }

/-- The base instructions of R109 without a row, by hand: `sub x1, x2, x3`, `blt x2, x3, +8` at 100H, `lui x1, 80000H`,
`jal x1, -4` at 100H, and `srai x1, x2, 4`. -/
theorem test_base_words :
    ((at100 [(2, 1), (3, 2)]).baseWord 0x403100B3).map (fun s => (s.readReg 1, s.pc)) = some (0xFFFFFFFF, 0x104) ∧
    ((at100 [(2, 0xFFFFFFFF), (3, 2)]).baseWord 0x00314463).map State.pc = some 0x108 ∧
    ((at100 []).baseWord 0x800000B7).map (fun s => s.readReg 1) = some 0x80000000 ∧
    ((at100 []).baseWord 0xFFDFF0EF).map (fun s => (s.readReg 1, s.pc)) = some (0x104, 0xFC) ∧
    ((at100 [(2, 0x80000000)]).baseWord 0x40415093).map (fun s => s.readReg 1) = some 0xF8000000 := by decide

/-- `lr.w t0, (a0); sc.w t1, a2, (a0); bne t0, x0, +8; bne a0, x0, +16; addi t3, t3, -1; bne t3, x0, -4; bne a0, x0, -24;
bne t1, x0, -28`. -/
def retryingSuccess : List InstrWord :=
  [encode (.lrW 5 10 false false), encode (.scW 6 12 10 false false), encode (.bne 5 0 8), encode (.bne 10 0 16),
    encode (.addi 28 28 (-1)), encode (.bne 28 0 (-4)), encode (.bne 10 0 (-24)), encode (.bne 6 0 (-28))]

/-- R92: code that comes back after a success, here where the LR reads 1 and t3 holds 2, is no loop. -/
theorem test_no_loop_that_retries_a_success : ¬ (⟨0, 8, 0⟩ : CodeLoop).isLoop (loopOf retryingSuccess) := by
  rintro ⟨_, _, _, hno⟩
  have hr : ∃ es, codeFrom { State.start (loopOf retryingSuccess) 0 [] [(0x1000, 1)] with
      hart := hartWith 0 [(10, 0x1000), (28, 2)] none } (failAt 8 8) = some es ∧ (∀ e ∈ es, (⟨0, 8, 0⟩ : CodeLoop).holds e.pc = true) ∧
      (∃ e ∈ es, e.stored = true) ∧ ∃ e ∈ es.getLast?, e.next.toNat = 0 := by
    refine ⟨[ran 0 0x100522AF 4 0x1000, ⟨4, 0x18C5232F, 8, 0x1000, true⟩, ran 8 (encode (.bne 5 0 8)) 16 1,
      ran 16 (encode (.addi 28 28 (-1))) 20 2, ran 20 (encode (.bne 28 0 (-4))) 16 1, ran 16 (encode (.addi 28 28 (-1))) 20 1,
      ran 20 (encode (.bne 28 0 (-4))) 24 0, ran 24 (encode (.bne 10 0 (-24))) 0 0x1000], by decide, by decide, by decide, ?_⟩
    exact ⟨_, rfl, by decide⟩
  obtain ⟨es, h1, h2⟩ := hr
  exact hno es (runs_of_codeFrom _ _ (by decide) h1) h2

theorem loopRun_constrained : loopRun.constrainedFrom 0 theLoop 0 := by
  refine ⟨⟨by decide, _, loopRun_steps.1.1, by decide, by decide⟩, theLoop_is_a_loop, fun m _ he _ => ?_⟩
  obtain ⟨_, rfl, _⟩ := loopRun_enters he
  exact loop_attempts

/-- The premise holds of the run: after the LR comes the SC that succeeds, and after that the branch that leaves, whatever part of
the text is taken for the loop. -/
theorem loopRun_eventuality : LrScEventuality loopRun := by
  intro h l n m set hc hin _
  obtain ⟨rfl, rfl, hlr⟩ := loopRun_enters hc.1
  obtain ⟨_, hst, j, _, hj, ⟨a, k, aq, rl, bytes, hev⟩, _⟩ := hin
  obtain ⟨⟨h0, h1, h2⟩, ⟨a0, a1, a2⟩, _⟩ := loopRun_steps
  have hl : l = theLoop := by
    obtain ⟨base, len, lr⟩ := l
    have hp := hc.2.1.1
    have ok := Execution.attemptOk_here (executionFrom_valid _ _) (hc.2.2 0 (by omega) hc.1 (fun i h1 h2 => by omega))
    simp only at hlr
    subst hlr
    simp only [CodeLoop.placed, Bool.and_eq_true, decide_eq_true_eq, inRange, List.all_eq_true, List.mem_range] at hp
    obtain ⟨⟨⟨_, hb, hn⟩, ht⟩, _⟩ := hp
    have hb : base = 0 := by omega
    subst hb
    have hlen : len = 1 ∨ len = 2 ∨ len = 3 := by
      by_contra hlen
      have := ht 3 (by omega)
      rw [show textAt (loopRun.state 0).params.text (0 + 4 * 3) = none by decide] at this
      cases this
    rcases hlen with rfl | rfl | rfl
    · exact absurd (by decide) (ok 1).1
    · exact absurd (by decide) (ok 2).1
    · rfl
  subst hl
  match m with
  | 0 =>
    have : j = 0 := by omega
    subst this
    rw [a0] at hev
    refine ⟨0, .inl ⟨0, 0x1000, 4, false, false, [9, 0, 0, 0], by rw [a1]; simp, ?_⟩⟩
    simp at hev
    rw [hev.2.2.2.2.2]; decide
  | 1 => exact ⟨0, .inr (.inr (.inl loopRun_exits))⟩
  | m + 2 => exact absurd loopRun_exits (hst 2 (by omega) (by omega)).1

theorem witness_SomeHartLeavesItsLoop :
    loopRun.valid ∧ LrScEventuality loopRun ∧ loopRun.constrainedFrom 0 theLoop 0 ∧ loopRun.stays 0 theLoop 0 1 ∧
    ∀ n, 0 < n → loopRun.stays 0 theLoop 0 n →
      ¬ loopRun.traps 0 n ∧ (∃ k, loopRun.completes 0 (n + k)) ∧
      ∀ m set, m < n → loopRun.inside 0 theLoop 0 m set → ¬ loopRun.writeTo set n ∧
        ∀ g a size aq rl bytes, Event.sc g a size aq rl true bytes ∈ loopRun.added n → meetsBytes set a size = true → g ∈ [0] := by
  obtain ⟨⟨h0, h1, h2⟩, ⟨a0, a1, a2⟩, _⟩ := loopRun_steps
  refine ⟨executionFrom_valid _ _, loopRun_eventuality, loopRun_constrained,
    fun i h1 h2 => loopRun_stays i h1 (by omega), fun n hn hst => ⟨(loopRun_no_stop 0 n).1, ?_⟩⟩
  match n with
  | 1 =>
    refine ⟨⟨0, by decide, by rw [h1]; rfl⟩, fun m set _ _ => ⟨?_, ?_⟩⟩
    · rintro ⟨d, a, bytes, he, _⟩; rw [a1] at he; simp at he
    · intro g a size aq rl bytes he _; rw [a1] at he; simp at he; simp [he.1]
  | 2 =>
    refine ⟨⟨0, by decide, by rw [h2]; rfl⟩, fun m set _ _ => ⟨?_, ?_⟩⟩
    · rintro ⟨d, a, bytes, he, _⟩; rw [a2] at he; simp at he
    · intro g a size aq rl bytes he _; rw [a2] at he; simp at he
  | n + 3 => exact absurd loopRun_exits (hst 2 (by omega) (by omega)).1

theorem witness_LoneReferenceHartMakesProgress :
    loopRun.valid ∧ loopRun.launched ∧ loopRun.isReference ∧ (loopRun.state 0).harts.length = 1 ∧
    (loopRun.state 0).params.devices = 0 ∧ loopRun.constrainedFrom 0 theLoop 0 ∧
    loopRun.inside 0 theLoop 0 0 [⟨0x1000, 4⟩] := by
  refine ⟨executionFrom_valid _ _, ?_, ⟨by decide, fun _ => (by decide : Choice.reference.isReference = true)⟩, by decide, by decide, loopRun_constrained,
    by omega, fun i h1 h2 => loopRun_stays i h1 (by omega), 0, by omega, by omega, ⟨0x1000, 4, false, false, [0, 0, 0, 0], ?_⟩,
    fun i h1 h2 => by omega⟩
  · refine ⟨⟨by decide, by decide, by decide, by decide, by decide, ?_⟩, by decide, by decide, by decide⟩
    intro t ht
    cases ht
    decide
  · rw [loopRun_steps.2.1.1]; exact List.mem_singleton.mpr rfl
end Sys2Proof.Tests
end

section
/-! SUPPORT. The obligations on the scope of the machine (00_scope.md): whose step is next, what the step of a hart runs, what
a device's step writes, and what no step changes. -/

namespace Sys2Proof.Machine

/-! ### Whose step is next (R9) -/

theorem State.harts_length (s : State) : s.harts.length = s.before.length + (s.after.length + 1) := by
  simp [State.harts]

/-- The agent drawn is one of the harts and devices there are. -/
theorem State.nextTurn_lt (s : State) : s.nextTurn < s.harts.length + s.params.devices := by
  have hpos : 0 < s.harts.length + s.params.devices := by rw [s.harts_length]; omega
  unfold State.nextTurn
  split
  · exact hpos
  · exact Nat.mod_lt _ hpos

/-- A draw that names an agent there is gives the turn to that agent. -/
theorem State.nextTurn_of_lt {s : State} (h : s.choice.nextAgent < s.harts.length + s.params.devices) :
    s.nextTurn = s.choice.nextAgent := by
  unfold State.nextTurn
  split
  · omega
  · exact Nat.mod_eq_of_lt h

/-- The turn goes to the hart of a number there is, and that hart is the one that moves. -/
theorem State.giveTurn_of_hart {s : State} {k : Nat} (h : k < s.harts.length) :
    (s.giveTurn k).turn = .hart ∧ (s.giveTurn k).self = k := by
  rw [State.giveTurn, if_pos h]
  exact ⟨rfl, s.focus_self k h⟩

/-- A number past the harts gives the turn to a device. -/
theorem State.giveTurn_of_device {s : State} {k : Nat} (h : s.harts.length ≤ k) :
    (s.giveTurn k).turn = .device (k - s.harts.length) := by
  rw [State.giveTurn, if_neg (Nat.not_lt.mpr h)]

theorem State.endStep_of_hart {s : State} (h : s.nextTurn < s.harts.length) :
    s.endStep.turn = .hart ∧ s.endStep.self = s.nextTurn := State.giveTurn_of_hart h

theorem State.endStep_of_device {s : State} (h : s.harts.length ≤ s.nextTurn) :
    s.endStep.turn = .device (s.nextTurn - s.harts.length) := State.giveTurn_of_device h

/-- A device that has the turn after a step is one of the devices there are. -/
theorem State.endStep_device_lt {s : State} {d : Nat} (h : s.endStep.turn = .device d) : d < s.params.devices := by
  rcases Nat.lt_or_ge s.nextTurn s.harts.length with hlt | hge
  · rw [(State.endStep_of_hart hlt).1] at h
    cases h
  · rw [State.endStep_of_device hge] at h
    cases h
    have := s.nextTurn_lt
    omega

/-- Settles O10: the end of a step only chooses which hart moves, and draws among the agents there are. -/
theorem endOfStepOnlyHandsOnTheTurn : Obligations.EndOfStepOnlyHandsOnTheTurn := fun s =>
  ⟨s.endStep_params, s.endStep_harts, s.endStep_mem, s.endStep_hist, s.endStep_script, s.endStep_count,
    fun _ => State.endStep_device_lt⟩

/-- A choice of the reference simulator that lets agent number `k` move next. -/
def choiceOfAgent (k : Nat) : Choice := { Choice.reference with nextAgent := k }

theorem choiceOfAgent_isReference (k : Nat) : (choiceOfAgent k).isReference = true := rfl

/-- Under that choice agent number `k` moves next, where there is one. -/
theorem State.nextTurn_choiceOfAgent {s : State} {k : Nat} (h : k < s.harts.length + s.params.devices) :
    ({ s with script := [choiceOfAgent k] } : State).nextTurn = k :=
  State.nextTurn_of_lt (s := { s with script := [choiceOfAgent k] }) h

/-- Settles O11: the agent is named by its number, harts first. -/
theorem anyAgentCanMoveNext : Obligations.AnyAgentCanMoveNext := by
  intro s
  constructor
  · intro k hk
    have hn : ({ s with script := [choiceOfAgent k] } : State).nextTurn = k := State.nextTurn_choiceOfAgent (by omega)
    obtain ⟨hturn, hself⟩ := State.endStep_of_hart (s := { s with script := [choiceOfAgent k] }) (hn.symm ▸ hk)
    rw [hn] at hself
    refine ⟨choiceOfAgent k, choiceOfAgent_isReference k, hturn, hself, ?_⟩
    have hmoves := State.harts_self ({ s with script := [choiceOfAgent k] } : State).endStep
    rw [hself, State.endStep_harts] at hmoves
    exact hmoves
  · intro d hd
    have hn : ({ s with script := [choiceOfAgent (s.harts.length + d)] } : State).nextTurn = s.harts.length + d :=
      State.nextTurn_choiceOfAgent (by omega)
    refine ⟨_, choiceOfAgent_isReference (s.harts.length + d), ?_⟩
    rw [State.endStep_of_device (hn.symm ▸ Nat.le_add_right _ _), hn]
    exact congrArg Turn.device (Nat.add_sub_cancel_left _ _)

/-! ### The step of a hart (R115) -/

/-- A fetch whose checks hold gives the decoded instruction. -/
theorem State.fetch_of_decodes {s : State} {w : InstrWord} {i : Instr} (hpc : s.pc.toNat % 4 = 0)
    (htext : textAt s.params.text s.pc.toNat = some w) (hdec : decodeWord s.xlen w = .ok i) :
    s.fetch = .instr w i := by
  simp [State.fetch, hpc, htext, fetchedOf, hdec]

/-- The step of a hart that may move and has fetched an instruction. -/
theorem step_of_fetch {s : State} {w : InstrWord} {i : Instr} (hturn : s.turn = .hart) (hmove : s.canMove = true)
    (hfetch : s.fetch = .instr w i) : step s = mapNext State.endStep (exec i s) := by
  simp [step, hturn, hartStep, hmove, hfetch]

/-- Settles O9: the fetch gives the decoded instruction, and the step executes what was fetched. -/
theorem stepRunsTheDecodedInstruction : Obligations.StepRunsTheDecodedInstruction := by
  intro s w i hturn hmove hpc htext hdec
  rw [step_of_fetch hturn hmove (State.fetch_of_decodes hpc htext hdec)]
  cases exec i s <;> rfl

/-! ### The step of a device (R126) -/

theorem step_of_device {s : State} {d : Nat} (h : s.turn = .device d) : step s = .next (s.deviceStep d).endStep := by
  simp [step, h]

theorem State.mapped_iff (s : State) (a : Nat) :
    s.mapped a = true ↔ ∃ r ∈ s.params.regions, r.bytes.lo ≤ a ∧ a < r.bytes.lo + r.bytes.len := by
  simp [State.mapped, inRange]

/-- Every byte a device's write keeps lies in a region. -/
theorem State.mapped_of_lt_clipWrite (s : State) (bytes : List Byte) (a k : Nat)
    (h : k < (s.clipWrite a bytes).length) : s.mapped (a + k) = true := by
  induction bytes generalizing a k with
  | nil => cases h
  | cons b rest ih =>
    unfold State.clipWrite at h
    split at h
    · rename_i hm
      cases k with
      | zero => exact hm
      | succ k =>
        have := ih (a + 1) k (by simpa using h)
        rwa [Nat.add_right_comm] at this
    · cases h

/-- A write whose bytes all lie in regions is kept whole. -/
theorem State.clipWrite_of_mapped (s : State) (bytes : List Byte) (a : Nat)
    (h : ∀ k, k < bytes.length → s.mapped (a + k) = true) : s.clipWrite a bytes = bytes := by
  induction bytes generalizing a with
  | nil => rfl
  | cons b rest ih =>
    have hrest : s.clipWrite (a + 1) rest = rest := ih (a + 1) fun k hk => by
      have := h (k + 1) (by simpa using hk)
      rwa [← Nat.add_assoc, Nat.add_right_comm] at this
    have hhead : s.mapped a = true := h 0 (Nat.zero_lt_succ _)
    simp [State.clipWrite, hhead, hrest]

/-- A device's step does nothing, or writes bytes that all lie in regions. -/
theorem State.deviceStep_mapped_cases (s : State) (d : Nat) :
    s.deviceStep d = s ∨ ∃ a bytes loses, (∀ k, k < bytes.length → s.mapped (a + k) = true) ∧
      s.deviceStep d = s.deviceStore d a bytes loses := by
  have hmapped := s.mapped_of_lt_clipWrite s.choice.deviceBytes s.choice.deviceAddr
  unfold State.deviceStep
  split
  · exact .inl rfl
  · rename_i b rest hclip
    exact .inr ⟨_, b :: rest, _, hclip ▸ hmapped, rfl⟩

/-- A drawn write whose bytes all lie in regions is the one performed. -/
theorem State.deviceStep_of_mapped {s : State} (d : Nat) (hne : s.choice.deviceBytes ≠ [])
    (h : ∀ k, k < s.choice.deviceBytes.length → s.mapped (s.choice.deviceAddr + k) = true) :
    s.deviceStep d = s.deviceStore d s.choice.deviceAddr s.choice.deviceBytes s.choice.deviceLoses := by
  unfold State.deviceStep
  rw [s.clipWrite_of_mapped _ _ h]
  split
  · contradiction
  · rename_i hbytes
    rw [← hbytes]

/-- What a device's write leaves of one hart, it leaves of each hart of a list. -/
theorem map_afterDeviceWriteFrom {α : Type} (f : Hart → α) (a n : Nat)
    (hf : ∀ t drawn, f (t.afterDeviceWrite a n drawn) = f t) (loses : List Nat) (k : Nat) (ts : List Hart) :
    (afterDeviceWriteFrom a n loses k ts).map f = ts.map f := by
  induction ts generalizing k with
  | nil => rfl
  | cons t rest ih => simp [afterDeviceWriteFrom, hf, ih]

/-- What a device's write leaves of one hart, it leaves of every hart of the machine. -/
theorem State.map_deviceStore_harts {α : Type} (f : Hart → α) (s : State) (d a : Nat) (bytes : List Byte)
    (loses : List Nat) (hf : ∀ t drawn, f (t.afterDeviceWrite a bytes.length drawn) = f t) :
    (s.deviceStore d a bytes loses).harts.map f = s.harts.map f := by
  unfold State.deviceStore
  cases s.params.memOrder with
  | judged => rfl
  | interleaved => simp [State.harts, map_afterDeviceWriteFrom f a _ hf, hf]

/-- A byte outside the regions is the same after a device's step. -/
theorem State.deviceStep_readByte_of_not_mapped (s : State) (d : Nat) {b : Nat} (hb : s.mapped b = false) :
    (s.deviceStep d).mem.readByte b = s.mem.readByte b := by
  rcases s.deviceStep_mapped_cases d with he | ⟨a, bytes, loses, hmapped, he⟩ <;> rw [he]
  have hout : ¬(a ≤ b ∧ b < a + bytes.length) := by
    rintro ⟨hlo, hhi⟩
    have := hmapped (b - a) (by omega)
    rw [Nat.add_sub_cancel' hlo, hb] at this
    cases this
  rw [(s.deviceStore_other d a bytes loses).2.1, Memory.readByte_writeBytes, if_neg hout]

/-- Registers, pc and status of every hart are the same after a device's step. -/
theorem State.deviceStep_harts_kept (s : State) (d : Nat) :
    (s.deviceStep d).harts.map (fun u => (u.x, u.pc, u.status)) = s.harts.map (fun u => (u.x, u.pc, u.status)) := by
  rcases s.deviceStep_cases d with he | ⟨a, bytes, loses, _, he⟩ <;> rw [he]
  exact s.map_deviceStore_harts _ d a bytes loses (by simp)

/-- A choice of the reference simulator under which a device writes `bytes` at `a`, and the harts in `loses` lose what is
drawn. -/
def choiceOfWrite (a : Nat) (bytes : List Byte) (loses : List Nat) : Choice :=
  { Choice.reference with deviceAddr := a, deviceBytes := bytes, deviceLoses := loses }

theorem choiceOfWrite_isReference (a : Nat) (bytes : List Byte) (loses : List Nat) :
    (choiceOfWrite a bytes loses).isReference = true := rfl

/-- A device's write neither reads nor uses up the choices left. -/
theorem State.deviceStore_withScript (s : State) (cs : List Choice) (d a : Nat) (bytes : List Byte)
    (loses : List Nat) : ({ s with script := cs } : State).deviceStore d a bytes loses =
      { s.deviceStore d a bytes loses with script := cs } := by
  unfold State.deviceStore
  cases s.params.memOrder <;> rfl

/-- Under the choice of a write the device's step is that write, where its bytes all lie in regions. -/
theorem State.deviceStep_choiceOfWrite {s : State} {d a : Nat} {bytes : List Byte} (loses : List Nat) (hne : bytes ≠ [])
    (h : ∀ k, k < bytes.length → s.mapped (a + k) = true) :
    ({ s with script := [choiceOfWrite a bytes loses] } : State).deviceStep d =
      { s.deviceStore d a bytes loses with script := [choiceOfWrite a bytes loses] } := by
  rw [← State.deviceStore_withScript]
  exact State.deviceStep_of_mapped (s := { s with script := [choiceOfWrite a bytes loses] }) d hne h

/-- Settles O42: a device's step is `deviceStep`, which clips the write drawn to the regions, and the end of the step. -/
theorem deviceStepWritesRegionBytesOnly : Obligations.DeviceStepWritesRegionBytesOnly := by
  intro s d hturn
  refine ⟨⟨_, step_of_device hturn, fun b hb => ?_, ?_⟩, fun a bytes loses hne hregions => ?_⟩
  · rw [State.endStep_mem, s.deviceStep_readByte_of_not_mapped d hb]
  · rw [State.endStep_harts, s.deviceStep_harts_kept d]
  have hstep := step_of_device (s := { s with script := [choiceOfWrite a bytes loses] }) hturn
  rw [State.deviceStep_choiceOfWrite loses hne fun k hk => (s.mapped_iff (a + k)).mpr (hregions k hk)] at hstep
  obtain ⟨-, hmem, hhist⟩ := s.deviceStore_other d a bytes loses
  refine ⟨_, _, choiceOfWrite_isReference a bytes loses, hstep, fun k b hk => ?_, fun b hb => ?_, ?_, ?_⟩
  · obtain ⟨hlt, rfl⟩ := List.getElem?_eq_some_iff.mp hk
    simp [hmem, Memory.readByte_writeBytes, hlt]
  · simp only [State.endStep_mem, hmem, Memory.readByte_writeBytes]
    exact if_neg (by omega)
  · rw [State.endStep_hist, hhist]
  · rw [State.endStep_harts]
    rfl

/-! ### What no step changes (R6, R22) -/

@[simp] theorem State.store_before_length (s : State) (a : Nat) (bs : List Byte) :
    (s.store a bs).before.length = s.before.length := s.store_self a bs

@[simp] theorem State.store_after_length (s : State) (a : Nat) (bs : List Byte) :
    (s.store a bs).after.length = s.after.length := by
  unfold State.store
  split <;> simp

/-- An SC keeps the parameters and the number of harts. -/
theorem State.scDone_params_and_harts (s : State) (n : Nat) (a : Word) (rd rs2 : Reg) (aq rl : Bool) :
    (s.scDone n a rd rs2 aq rl).params = s.params ∧ (s.scDone n a rd rs2 aq rl).harts.length = s.harts.length := by
  cases h : s.scSucceeds a.toNat n with
  | false => rw [State.scDone_of_failure _ _ _ _ h]; simp [State.harts_length]
  | true => rw [State.scDone_of_success _ _ _ _ h]; simp [State.harts_length]

/-- A completed instruction keeps the parameters and the number of harts. -/
theorem exec_params_and_harts {i : Instr} {s t : State} (h : exec i s = .next t) :
    t.params = s.params ∧ t.harts.length = s.harts.length := by
  rcases exec_next_cases h with ⟨n, a, rd, aq, rl, -, -, rfl⟩ | ⟨n, a, rd, rs2, aq, rl, -, -, rfl⟩ | ⟨rd, v, rfl⟩ |
    ⟨a, -, rfl⟩ | rfl | ⟨rd, v, a, -, rfl⟩
  case inr.inl => exact s.scDone_params_and_harts n a rd rs2 aq rl
  all_goals simp [State.lrDone, State.harts_length]

/-- A device's step keeps the parameters and the number of harts. -/
theorem State.deviceStep_params_and_harts (s : State) (d : Nat) :
    (s.deviceStep d).params = s.params ∧ (s.deviceStep d).harts.length = s.harts.length := by
  refine ⟨?_, by simpa using congrArg List.length (s.deviceStep_harts_kept d)⟩
  rcases s.deviceStep_cases d with he | ⟨a, bytes, loses, -, he⟩ <;> rw [he]
  exact (s.deviceStore_other d a bytes loses).1

/-- Settles O47: the instruction or the device's write keeps them, and so does the end of the step. -/
theorem stepKeepsParametersAndHarts : Obligations.StepKeepsParametersAndHarts := by
  intro s t h
  rcases step_next_cases h with ⟨-, -, w, i, u, -, hexec, rfl⟩ | ⟨-, -, rfl⟩ | ⟨d, -, rfl⟩ <;>
    rw [State.endStep_params, State.endStep_harts]
  · exact exec_params_and_harts hexec
  · exact ⟨rfl, rfl⟩
  · exact s.deviceStep_params_and_harts d

end Sys2Proof.Machine
end

section
/-! SUPPORT. The obligations on the state (10_state.md): what LR and SC leave unchanged, what every step keeps of memory, history,
pc, registers and reservations, and the state at the start of a run. -/

namespace Sys2Proof.Machine

/-! ### Register 0 (R11) and the registers a write leaves -/

@[simp] theorem State.writeReg_zero (s : State) (v : Word) : s.writeReg 0 v = s := if_pos rfl

/-- A register of another number, and register 0, read as before a write. -/
theorem State.readReg_writeReg_of_ne {r q : Reg} (h : q ≠ r ∨ q = 0) (s : State) (v : Word) :
    (s.writeReg r v).readReg q = s.readReg q := by
  rw [State.writeReg_readReg, if_neg]
  rintro ⟨rfl, hne⟩
  exact h.elim (· rfl) hne

/-- Settles O39: register 0 reads as zero in every state, the one after an instruction among them. -/
theorem registerZeroIsHardwired : Obligations.RegisterZeroIsHardwired :=
  fun s => ⟨s.readReg_zero, s.writeReg_zero, fun _ t _ => t.readReg_zero⟩

/-! ### Which state a completed LR or SC leaves -/

/-- A completed LR has passed the checks and done its work. -/
theorem State.loadReserved_next {s t : State} {n : Nat} {rd rs1 : Reg} {aq rl : Bool}
    (h : s.loadReserved n rd rs1 aq rl = .next t) :
    s.admits (s.readReg rs1) n = true ∧ t = s.lrDone n (s.readReg rs1) rd aq rl := by
  obtain ⟨hadmits, hdone⟩ := State.withAccess_next h
  cases hdone
  exact ⟨hadmits, rfl⟩

/-- A completed SC, successful or not, has passed the checks and done its work. -/
theorem State.storeConditional_next {s t : State} {n : Nat} {rd rs2 rs1 : Reg} {aq rl : Bool}
    (h : s.storeConditional n rd rs2 rs1 aq rl = .next t) :
    s.admits (s.readReg rs1) n = true ∧ t = s.scDone n (s.readReg rs1) rd rs2 aq rl := by
  obtain ⟨hadmits, hdone⟩ := State.withAccess_next h
  cases hdone
  exact ⟨hadmits, rfl⟩

theorem exec_lrW_next {s t : State} {rd rs1 : Reg} {aq rl : Bool} (h : exec (.lrW rd rs1 aq rl) s = .next t) :
    s.admits (s.readReg rs1) 4 = true ∧ t = s.lrDone 4 (s.readReg rs1) rd aq rl :=
  State.loadReserved_next h

theorem exec_lrD_next {s t : State} {rd rs1 : Reg} {aq rl : Bool} (h : exec (.lrD rd rs1 aq rl) s = .next t) :
    s.xlen = .rv64 ∧ s.admits (s.readReg rs1) 8 = true ∧ t = s.lrDone 8 (s.readReg rs1) rd aq rl := by
  simp only [exec, execLrD] at h
  split at h
  · exact ⟨‹_›, State.loadReserved_next h⟩
  · cases h

theorem exec_scW_next {s t : State} {rd rs2 rs1 : Reg} {aq rl : Bool} (h : exec (.scW rd rs2 rs1 aq rl) s = .next t) :
    s.admits (s.readReg rs1) 4 = true ∧ t = s.scDone 4 (s.readReg rs1) rd rs2 aq rl :=
  State.storeConditional_next h

theorem exec_scD_next {s t : State} {rd rs2 rs1 : Reg} {aq rl : Bool} (h : exec (.scD rd rs2 rs1 aq rl) s = .next t) :
    s.xlen = .rv64 ∧ s.admits (s.readReg rs1) 8 = true ∧ t = s.scDone 8 (s.readReg rs1) rd rs2 aq rl := by
  simp only [exec, execScD] at h
  split at h
  · exact ⟨‹_›, State.storeConditional_next h⟩
  · cases h

/-! ### The frame of LR (R13, R31, R103) -/

/-- Once its checks hold, an LR of any size changes no other register, no memory and no other hart. -/
theorem State.lrDone_frame (s : State) (n : Nat) (a : Word) (rd : Reg) (aq rl : Bool) :
    sameRegsBut rd s (s.lrDone n a rd aq rl) ∧ sameMem s (s.lrDone n a rd aq rl) ∧
      sameOthers s (s.lrDone n a rd aq rl) ∧ sameMachine s (s.lrDone n a rd aq rl) := by
  unfold State.lrDone
  exact ⟨fun q hq => State.readReg_writeReg_of_ne hq (s.record _) _, fun b => by simp, by simp [sameOthers],
    by simp [sameMachine]⟩

/-- Settles O17: the frame of an LR of any size, at four and at eight bytes. -/
theorem lrChangesNothingElse : Obligations.LrChangesNothingElse := by
  rintro s t rd rs1 aq rl (h | h)
  · obtain ⟨-, rfl⟩ := exec_lrW_next h
    exact s.lrDone_frame 4 _ rd aq rl
  · obtain ⟨-, -, rfl⟩ := exec_lrD_next h
    exact s.lrDone_frame 8 _ rd aq rl

/-! ### The frame of SC (R13, R31, R79, R90) -/

/-- What a foreign store leaves of one hart, a store leaves of every other hart of the machine. -/
theorem State.map_store_others {α : Type} (f : Hart → α) (s : State) (a : Nat) (bytes : List Byte)
    (hf : ∀ u : Hart, f (u.afterForeignStore a bytes.length) = f u) :
    (s.store a bytes).before.map f = s.before.map f ∧ (s.store a bytes).after.map f = s.after.map f := by
  unfold State.store
  cases s.params.memOrder <;> simp [hf]

/-- Whether it succeeds or fails, an SC changes no other register and nothing of the machine beside. -/
theorem State.scDone_sameRegsBut_sameMachine (s : State) (n : Nat) (a : Word) (rd rs2 : Reg) (aq rl : Bool) :
    sameRegsBut rd s (s.scDone n a rd rs2 aq rl) ∧ sameMachine s (s.scDone n a rd rs2 aq rl) := by
  cases h : s.scSucceeds a.toNat n with
  | false =>
    rw [State.scDone_of_failure _ _ _ _ h]
    exact ⟨fun q hq => State.readReg_writeReg_of_ne hq (s.record _) _, by simp [sameMachine]⟩
  | true =>
    rw [State.scDone_of_success _ _ _ _ h]
    exact ⟨fun q hq => (State.readReg_writeReg_of_ne hq ((s.store _ _).record _) _).trans (s.store_readReg _ _ q),
      by simp [sameMachine]⟩

/-- A failed SC changes neither memory nor another hart. -/
theorem State.scDone_frame_of_failure {s : State} {n : Nat} {a : Word} (rd rs2 : Reg) (aq rl : Bool)
    (h : s.scSucceeds a.toNat n = false) :
    sameMem s (s.scDone n a rd rs2 aq rl) ∧ sameOthers s (s.scDone n a rd rs2 aq rl) := by
  rw [State.scDone_of_failure _ _ _ _ h]
  exact ⟨fun b => by simp, by simp [sameOthers]⟩

/-- Outside its `n` bytes an SC changes no memory. -/
theorem State.scDone_readByte_outside (s : State) {n : Nat} {a : Word} (rd rs2 : Reg) (aq rl : Bool) {b : Nat}
    (hb : b < a.toNat ∨ a.toNat + n ≤ b) : (s.scDone n a rd rs2 aq rl).mem.readByte b = s.mem.readByte b := by
  cases h : s.scSucceeds a.toNat n with
  | false => exact (State.scDone_frame_of_failure rd rs2 aq rl h).1 b
  | true =>
    rw [State.scDone_of_success _ _ _ _ h]
    simp only [State.advancePc_mem, State.setRes_mem, State.writeReg_mem, State.record_mem, State.store_mem,
      Memory.readByte_writeBytes, State.storedBytes, leBytes_length]
    exact if_neg (by omega)

/-- What a foreign store leaves of every hart, an SC leaves of the other harts. -/
theorem State.map_scDone_others {α : Type} (f : Hart → α) (hf : ∀ (u : Hart) a n, f (u.afterForeignStore a n) = f u)
    (s : State) (n : Nat) (a : Word) (rd rs2 : Reg) (aq rl : Bool) :
    (s.scDone n a rd rs2 aq rl).before.map f = s.before.map f ∧
      (s.scDone n a rd rs2 aq rl).after.map f = s.after.map f := by
  cases h : s.scSucceeds a.toNat n with
  | false =>
    obtain ⟨-, hbefore, hafter⟩ := State.scDone_frame_of_failure rd rs2 aq rl h
    rw [hbefore, hafter]
    exact ⟨rfl, rfl⟩
  | true =>
    rw [State.scDone_of_success _ _ _ _ h]
    simpa using s.map_store_others f a.toNat (s.storedBytes n rs2) fun u => hf u _ _

/-- Settles O21: the frame of an SC of any size, at four and at eight bytes. -/
theorem scChangesNothingElse : Obligations.ScChangesNothingElse := by
  intro s t rd rs2 rs1 aq rl n h
  have ht : t = s.scDone n (s.readReg rs1) rd rs2 aq rl := by
    rcases h with ⟨rfl, h⟩ | ⟨rfl, h⟩
    · exact (exec_scW_next h).2
    · exact (exec_scD_next h).2.2
  subst ht
  obtain ⟨hregs, hmachine⟩ := s.scDone_sameRegsBut_sameMachine n (s.readReg rs1) rd rs2 aq rl
  refine ⟨hregs, hmachine, ?_, State.scDone_frame_of_failure rd rs2 aq rl,
    s.map_scDone_others (fun u => (u.x, u.pc, u.status)) (by simp) n _ rd rs2 aq rl⟩
  rintro _ rfl b hb
  exact s.scDone_readByte_outside rd rs2 aq rl hb

/-! ### The shape of every completed instruction

An instruction completes by at most one recorded memory access, a write of one register, of the reservation and of the pc. The
invariants below are read off this shape. -/

@[simp] theorem State.store_hart (s : State) (a : Nat) (bytes : List Byte) : (s.store a bytes).hart = s.hart := by
  unfold State.store
  split <;> rfl

/-- The state after the memory access of an instruction: as before where there is none, with the event of a read or of an SC that
stores nothing, or with the bytes of an SC stored and its event. -/
def State.accesses (s w : State) : Prop :=
  w = s ∨ (∃ e, w = s.record e) ∨ ∃ a bytes e, w = (s.store a bytes).record e

/-- A reservation that a completed instruction leaves: the one held before, none, or that of an LR. -/
def State.leavesRes (s : State) (o : Option Reservation) : Prop :=
  o = s.hart.res ∨ o = none ∨ ∃ a n, o = some (s.newReservation a n)

/-- An address that a completed instruction goes on at, before it is brought to XLEN bits: the next instruction's, or a target that
has passed the alignment check (R15, R30). -/
def State.goesOnAt (s : State) (p : Word) : Prop := p = s.pc + 4 ∨ aligned p 4 = true

/-- A completed instruction is its memory access and then three writes; where it writes no register, the write is one of
register 0, and where it leaves the reservation, it writes the one held. -/
theorem exec_next_shape {i : Instr} {s t : State} (h : exec i s = .next t) :
    ∃ w rd v o p, s.accesses w ∧ s.leavesRes o ∧ s.goesOnAt p ∧ t = ((w.writeReg rd v).setRes o).setPc p := by
  rcases exec_next_cases h with ⟨n, a, rd, aq, rl, -, -, rfl⟩ | ⟨n, a, rd, rs2, aq, rl, -, -, rfl⟩ | ⟨rd, v, rfl⟩ |
    ⟨p, hp, rfl⟩ | rfl | ⟨rd, v, p, hp, rfl⟩
  · exact ⟨_, rd, _, _, _, .inr (.inl ⟨_, rfl⟩), .inr (.inr ⟨_, _, rfl⟩), .inl (by simp), rfl⟩
  · cases hok : s.scSucceeds a.toNat n with
    | false =>
      exact ⟨_, rd, _, _, _, .inr (.inl ⟨_, rfl⟩), .inr (.inl rfl), .inl (by simp),
        State.scDone_of_failure _ _ _ _ hok⟩
    | true =>
      exact ⟨_, rd, _, _, _, .inr (.inr ⟨_, _, _, rfl⟩), .inr (.inl rfl), .inl (by simp),
        State.scDone_of_success _ _ _ _ hok⟩
  · exact ⟨s, rd, v, (s.writeReg rd v).hart.res, _, .inl rfl, .inl (by simp), .inl (by simp), rfl⟩
  · exact ⟨s, 0, 0, s.hart.res, p, .inl rfl, .inl rfl, .inr hp, by rw [State.writeReg_zero]; rfl⟩
  · exact ⟨s, 0, 0, s.hart.res, _, .inl rfl, .inl rfl, .inl rfl, by rw [State.writeReg_zero]; rfl⟩
  · exact ⟨s, rd, v, (s.writeReg rd v).hart.res, p, .inl rfl, .inl (by simp), .inr hp, rfl⟩

theorem State.accesses_hart {s w : State} (h : s.accesses w) : w.hart = s.hart ∧ w.xlen = s.xlen := by
  rcases h with rfl | ⟨e, rfl⟩ | ⟨a, bytes, e, rfl⟩
  · exact ⟨rfl, rfl⟩
  · exact ⟨rfl, rfl⟩
  · exact ⟨s.store_hart a bytes, s.store_xlen a bytes⟩

theorem State.accesses_mem {s w : State} (h : s.accesses w) :
    w.mem = s.mem ∨ ∃ a bytes, w.mem = s.mem.writeBytes a bytes := by
  rcases h with rfl | ⟨e, rfl⟩ | ⟨a, bytes, e, rfl⟩
  · exact .inl rfl
  · exact .inl rfl
  · exact .inr ⟨a, bytes, by simp⟩

theorem State.accesses_hist {s w : State} (h : s.accesses w) :
    w.hist = s.hist ∨ ∃ e, w.hist = s.hist ++ [e] := by
  rcases h with rfl | ⟨e, rfl⟩ | ⟨a, bytes, e, rfl⟩
  · exact .inl rfl
  · exact .inr ⟨e, rfl⟩
  · exact .inr ⟨e, by simp⟩

/-! ### Memory and history (R21, R23) -/

/-- What a step leaves in memory and history is what one memory access leaves there, a device's write taken for one. -/
theorem step_mem_hist {s t : State} (h : step s = .next t) : ∃ w, s.accesses w ∧ t.mem = w.mem ∧ t.hist = w.hist := by
  rcases step_next_cases h with ⟨-, -, w, i, u, -, hexec, rfl⟩ | ⟨-, -, rfl⟩ | ⟨d, -, rfl⟩ <;>
    rw [State.endStep_mem, State.endStep_hist]
  · obtain ⟨w, rd, v, o, p, hw, -, -, rfl⟩ := exec_next_shape hexec
    exact ⟨w, hw, by simp⟩
  · exact ⟨s, .inl rfl, rfl, rfl⟩
  · rcases s.deviceStep_cases d with he | ⟨a, bytes, loses, -, he⟩ <;> rw [he]
    · exact ⟨s, .inl rfl, rfl, rfl⟩
    · obtain ⟨-, hmem, hhist⟩ := s.deviceStore_other d a bytes loses
      exact ⟨(s.store a bytes).record (.deviceWrite d a bytes), .inr (.inr ⟨_, _, _, rfl⟩), by simp [hmem, hhist]⟩

/-- Settles O43: a write of bytes keeps the canonical form. -/
theorem stepKeepsMemoryCanonical : Obligations.StepKeepsMemoryCanonical := by
  intro s t hwf h
  obtain ⟨w, hw, hmem, -⟩ := step_mem_hist h
  rw [hmem]
  rcases State.accesses_mem hw with he | ⟨a, bytes, he⟩ <;> rw [he]
  · exact hwf
  · exact Memory.writeBytes_wf hwf a bytes

/-- Settles O48: an LR, an SC or a device's write is one event, and nothing else is recorded. -/
theorem historyOnlyGrows : Obligations.HistoryOnlyGrows := by
  intro s t h
  obtain ⟨w, hw, -, hhist⟩ := step_mem_hist h
  rw [hhist]
  exact State.accesses_hist hw

/-! ### What holds of every hart

A property of harts that outlives the loss of a reservation is kept by every step, where the instruction executed keeps it of
the hart that moves: of the other harts a step takes nothing but reservations. -/

theorem State.forall_harts_iff {P : Hart → Prop} (s : State) :
    (∀ u ∈ s.harts, P u) ↔ P s.hart ∧ (∀ u ∈ s.before, P u) ∧ ∀ u ∈ s.after, P u := by
  simp only [State.harts, List.mem_append, List.mem_cons]
  constructor
  · exact fun h => ⟨h _ (.inr (.inl rfl)), fun u hu => h u (.inl hu), fun u hu => h u (.inr (.inr hu))⟩
  · rintro ⟨hhart, hbefore, hafter⟩ u (hu | rfl | hu)
    · exact hbefore u hu
    · exact hhart
    · exact hafter u hu

/-- A hart after a device's write to a list of harts is one of them after that write. -/
theorem mem_afterDeviceWriteFrom {a n : Nat} {loses : List Nat} {k : Nat} {ts : List Hart} {u : Hart}
    (hu : u ∈ afterDeviceWriteFrom a n loses k ts) : ∃ t ∈ ts, ∃ drawn, u = t.afterDeviceWrite a n drawn := by
  obtain ⟨j, hj⟩ := List.mem_iff_getElem?.mp hu
  rw [afterDeviceWriteFrom_getElem?, Option.map_eq_some_iff] at hj
  obtain ⟨t, ht, rfl⟩ := hj
  exact ⟨t, List.mem_of_getElem? ht, _, rfl⟩

section
variable {P : Hart → Prop} (hlose : ∀ u : Hart, P u → P { u with res := none })
include hlose

theorem Hart.afterForeignStore_keeps {u : Hart} (hu : P u) (a n : Nat) : P (u.afterForeignStore a n) := by
  rcases u.afterForeignStore_cases a n with ⟨r, -, -, he⟩ | ⟨-, he⟩ <;> rw [he]
  · exact hlose u hu
  · exact hu

theorem Hart.afterDeviceWrite_keeps {u : Hart} (hu : P u) (a n : Nat) (drawn : Bool) :
    P (u.afterDeviceWrite a n drawn) := by
  rcases u.afterDeviceWrite_cases a n drawn with ⟨r, -, he, -⟩ | ⟨he, -⟩ <;> rw [he]
  · exact hlose u hu
  · exact hu

/-- The memory access of an instruction keeps the property of the other harts. -/
theorem State.accesses_keeps_others {s w : State} (h : s.accesses w) (hbefore : ∀ u ∈ s.before, P u)
    (hafter : ∀ u ∈ s.after, P u) : (∀ u ∈ w.before, P u) ∧ ∀ u ∈ w.after, P u := by
  rcases h with rfl | ⟨e, rfl⟩ | ⟨a, bytes, e, rfl⟩
  · exact ⟨hbefore, hafter⟩
  · exact ⟨hbefore, hafter⟩
  · cases ho : s.params.memOrder with
    | judged => simpa [State.store, State.record, ho] using And.intro hbefore hafter
    | interleaved =>
      simp only [State.record_before, State.record_after, s.store_before a bytes ho, s.store_after a bytes ho,
        List.forall_mem_map]
      exact ⟨fun u hu => Hart.afterForeignStore_keeps hlose (hbefore u hu) _ _,
        fun u hu => Hart.afterForeignStore_keeps hlose (hafter u hu) _ _⟩

/-- A device's step keeps the property. -/
theorem State.deviceStep_keeps_harts {s : State} (hs : ∀ u ∈ s.harts, P u) (d : Nat) :
    ∀ u ∈ (s.deviceStep d).harts, P u := by
  rcases s.deviceStep_cases d with he | ⟨a, bytes, loses, -, he⟩ <;> rw [he]
  · exact hs
  unfold State.deviceStore
  cases s.params.memOrder with
  | judged => exact hs
  | interleaved =>
    obtain ⟨hhart, hbefore, hafter⟩ := s.forall_harts_iff.mp hs
    have hkeeps {k : Nat} {ts : List Hart} (hts : ∀ u ∈ ts, P u) :
        ∀ u ∈ afterDeviceWriteFrom a bytes.length loses k ts, P u := by
      intro u hu
      obtain ⟨v, hv, drawn, rfl⟩ := mem_afterDeviceWriteFrom hu
      exact Hart.afterDeviceWrite_keeps hlose (hts v hv) a _ drawn
    exact (State.forall_harts_iff _).mpr
      ⟨Hart.afterDeviceWrite_keeps hlose hhart a _ _, hkeeps hbefore, hkeeps hafter⟩

/-- A step keeps the property where a completed instruction keeps it of the hart that moves. -/
theorem step_keeps_harts {s t : State} (hmoves : ∀ i u, exec i s = .next u → P s.hart → P u.hart)
    (hs : ∀ u ∈ s.harts, P u) (h : step s = .next t) : ∀ u ∈ t.harts, P u := by
  rcases step_next_cases h with ⟨-, -, w, i, u, -, hexec, rfl⟩ | ⟨-, -, rfl⟩ | ⟨d, -, rfl⟩ <;> rw [State.endStep_harts]
  · obtain ⟨hhart, hbefore, hafter⟩ := s.forall_harts_iff.mp hs
    obtain ⟨w, rd, v, o, p, hw, -, -, hu⟩ := exec_next_shape hexec
    have hothers := State.accesses_keeps_others hlose hw hbefore hafter
    refine u.forall_harts_iff.mpr ⟨hmoves i u hexec hhart, ?_⟩
    simpa [hu] using hothers
  · exact hs
  · exact State.deviceStep_keeps_harts hlose hs d

end

/-! ### The pc (R15, R30) -/

/-- Bringing a value to XLEN bits keeps its two low bits. -/
theorem truncTo_toNat_mod_four (x : Xlen) (v : Word) : (truncTo x v).toNat % 4 = v.toNat % 4 := by
  rw [truncTo_toNat]
  cases x <;> exact Nat.mod_mod_of_dvd _ (by decide)

theorem State.goesOnAt_aligned {s : State} {p : Word} (h : s.goesOnAt p) (hpc : s.hart.pc.toNat % 4 = 0) :
    p.toNat % 4 = 0 := by
  rcases h with rfl | hp
  · have : s.pc.toNat % 4 = 0 := (truncTo_toNat_mod_four _ _).trans hpc
    simp only [BitVec.toNat_add, BitVec.ofNat_eq_ofNat, BitVec.toNat_ofNat]
    omega
  · simpa [aligned] using hp

/-- Settles O44: a completed instruction goes on four bytes up or at a target it has checked. -/
theorem stepKeepsEveryPcAligned : Obligations.StepKeepsEveryPcAligned := by
  intro s t hs h
  refine step_keeps_harts (fun u hu => hu) (fun i u hexec hpc => ?_) hs h
  obtain ⟨w, rd, v, o, p, -, -, hp, rfl⟩ := exec_next_shape hexec
  rw [State.setPc_hart_pc, truncTo_toNat_mod_four]
  exact State.goesOnAt_aligned hp hpc

/-! ### Registers and pc within XLEN bits (R10, R11, R14) -/

theorem State.writeReg_hart_x (s : State) {rd : Reg} (hrd : rd ≠ 0) (v : Word) :
    (s.writeReg rd v).hart.x = s.hart.x.set rd (truncTo s.xlen v) := by
  rw [State.writeReg, if_neg hrd]

/-- A write of a register keeps the hart within XLEN bits and the cell of register 0 zero. -/
theorem State.writeReg_fits {s : State} (h : s.hart.fits s.xlen) (rd : Reg) (v : Word) :
    (s.writeReg rd v).hart.fits s.xlen := by
  obtain ⟨hregs, hzero, hpc⟩ := h
  by_cases hrd : rd = 0
  · rw [hrd, State.writeReg_zero]
    exact ⟨hregs, hzero, hpc⟩
  · refine ⟨fun r => ?_, ?_, by rwa [State.writeReg_hart_pc]⟩ <;>
      simp only [s.writeReg_hart_x hrd, Fin.getElem_fin, Vector.getElem_set]
    · split
      · exact truncTo_lt _ _
      · exact hregs r
    · rw [if_neg (Fin.val_ne_of_ne hrd)]
      exact hzero

/-- Settles O45: a write of a register or of the pc keeps the low XLEN bits only, and register 0 is not written. -/
theorem stepKeepsRegistersWithinXlen : Obligations.StepKeepsRegistersWithinXlen := by
  intro s t hs h
  have hxlen : t.xlen = s.xlen := congrArg Params.xlen (stepKeepsParametersAndHarts s t h).1
  rw [State.fits, hxlen]
  refine step_keeps_harts (fun u hu => hu) (fun i u hexec hfits => ?_) hs h
  obtain ⟨w, rd, v, o, p, hw, -, -, rfl⟩ := exec_next_shape hexec
  obtain ⟨hhart, hwx⟩ := State.accesses_hart hw
  rw [← hwx, ← hhart] at hfits
  obtain ⟨hregs, hzero, -⟩ := State.writeReg_fits hfits rd v
  rw [← hwx]
  refine ⟨hregs, hzero, ?_⟩
  rw [State.setPc_hart_pc]
  simpa using truncTo_lt w.xlen p

/-! ### Reservations (R16, R74) -/

/-- Settles O46: a reservation an instruction leaves is the one held before, or that of an LR, whose set begins with the bytes
read. -/
theorem stepKeepsReservationsCoveringTheirLr : Obligations.StepKeepsReservationsCoveringTheirLr := by
  intro s t hs h
  refine step_keeps_harts (P := fun u => ∀ r ∈ u.res, r.coversLr = true) (fun u _ r hr => by cases hr)
    (fun i u hexec hres => ?_) hs h
  obtain ⟨w, rd, v, o, p, -, ho, -, rfl⟩ := exec_next_shape hexec
  rw [State.setPc_hart_res, State.setRes_hart_res]
  rcases ho with rfl | rfl | ⟨a, n, rfl⟩
  · exact hres
  · exact fun r hr => by cases hr
  · rintro r hr
    cases hr
    exact s.newReservation_covers a n

/-! ### The start of a run (R24, R129) -/

theorem State.start_harts (p : Params) (entry : Word) (others : List Word) (mem0 : Memory) :
    (State.start p entry others mem0).harts = (entry :: others).map Hart.start := rfl

/-- Every hart of a run's start stands at one of the entry addresses. -/
theorem State.mem_start_harts {p : Params} {entry : Word} {others : List Word} {mem0 : Memory} {t : Hart}
    (h : t ∈ (State.start p entry others mem0).harts) : ∃ e ∈ entry :: others, t = Hart.start e := by
  rw [State.start_harts, List.mem_map] at h
  obtain ⟨e, he, rfl⟩ := h
  exact ⟨e, he, rfl⟩

theorem Hart.start_x (entry : Word) (r : Reg) : (Hart.start entry).x[r] = 0 := by
  simp [Hart.start]

/-- Settles O57: the harts of a start are `Hart.start` of the entry addresses. -/
theorem startOfARun : Obligations.StartOfARun := by
  intro p entry others mem0
  refine ⟨rfl, rfl, rfl, ?_, fun t ht => ?_⟩
  · rw [State.start_harts, List.map_map]
    exact List.map_id _
  · obtain ⟨e, -, rfl⟩ := State.mem_start_harts ht
    exact ⟨rfl, rfl, Hart.start_x e⟩

/-- A hart at the start of a run fits where its entry does. -/
theorem Hart.start_fits {x : Xlen} {entry : Word} (h : entry.toNat < 2 ^ x.bits) : (Hart.start entry).fits x :=
  ⟨fun r => by rw [Hart.start_x]; exact Nat.two_pow_pos _, Hart.start_x entry 0, h⟩

/-- The one hart of the machine after reset. -/
theorem State.mem_reset_harts {t : Hart} (h : t ∈ State.reset.harts) : t = Hart.start 0x1000 := by
  obtain ⟨e, he, rfl⟩ := State.mem_start_harts h
  rw [List.mem_singleton.mp he]

/-- A history of no events has no SC to justify. -/
theorem scJustified_nil (w : Witness) : scJustified [] w := by
  intro j h a n aq rl bytes hj
  cases hj

/-- A history of no events has no LR to judge. -/
theorem readsLatest_nil (mem0 : Memory) : readsLatest mem0 [] := by
  intro i h a n aq rl bytes set hi
  cases hi

/-- Settles O56: the one hart is `Hart.start` of an aligned entry, it holds no reservation, and nothing has happened. -/
theorem resetMeetsTheInvariants : Obligations.ResetMeetsTheInvariants := by
  refine ⟨⟨.nil, fun c hc => by cases hc⟩, fun t ht => ?_, fun t ht => ?_, fun t ht r hr => ?_, fun h t r ht hr => ?_,
    scJustified_nil _, rfl, readsLatest_nil _, rfl⟩
  · rw [State.mem_reset_harts ht]
    decide
  · rw [State.mem_reset_harts ht]
    exact Hart.start_fits (by decide)
  · rw [State.mem_reset_harts ht] at hr
    cases hr
  · rw [State.mem_reset_harts (List.mem_of_getElem? ht)] at hr
    cases hr

end Sys2Proof.Machine
end

section
/-! SUPPORT. The obligations on the memory (20_memory.md): the bytes of an instruction, the byte order of memory, the checks of LR
and SC and what their ordering bits change, an LR and the SC after it, and what histories say of the bytes read. -/

namespace Sys2Proof

/-! ### Words and their bytes (R26) -/

/-- The four bytes of a word make the word. -/
theorem instrWordOfBytes_of_word (w : InstrWord) :
    instrWordOfBytes (w.extractLsb' 0 8) (w.extractLsb' 8 8) (w.extractLsb' 16 8) (w.extractLsb' 24 8) = w := by
  rw [instrWordOfBytes, BitVec.extractLsb'_append_extractLsb'_eq_extractLsb' (show 8 = 0 + 8 from rfl),
    BitVec.extractLsb'_append_extractLsb'_eq_extractLsb' (show 16 = 0 + (8 + 8) from rfl),
    BitVec.extractLsb'_append_extractLsb'_eq_extractLsb' (show 24 = 0 + (8 + (8 + 8)) from rfl)]
  exact BitVec.extractLsb'_eq_self

/-- Decoding the bytes of a word is decoding the word. -/
theorem decode_bytesOfInstrWord {x : Xlen} {w : InstrWord} {i : Instr} (rest : List Byte) (h : decodeWord x w = .ok i) :
    decode x (bytesOfInstrWord w ++ rest) = .ok (i, rest) := by
  simp [bytesOfInstrWord, decode, instrWordOfBytes_of_word, h]

/-! ### The fields of an encoded word (R54, R106, R107)

Each proof passes over the pieces of the word above the field. -/

section
variable (rd rs1 rs2 : Reg) (funct5 : BitVec 5) (funct3 : BitVec 3) (opcode : BitVec 7) (imm : BitVec 12) (aq rl : Bool)
  (off : BitVec 13)

@[simp] theorem fieldRd_encodeAmo : fieldRd (encodeAmo funct5 aq rl rs2 rs1 funct3 rd) = rd := by
  rw [fieldRd, encodeAmo]
  iterate 6 rw [BitVec.extractLsb'_append_eq_of_add_le (by decide)]
  exact congrArg BitVec.toFin BitVec.extractLsb'_append_eq_left

@[simp] theorem fieldRs1_encodeAmo : fieldRs1 (encodeAmo funct5 aq rl rs2 rs1 funct3 rd) = rs1 := by
  rw [fieldRs1, encodeAmo]
  iterate 4 rw [BitVec.extractLsb'_append_eq_of_add_le (by decide)]
  exact congrArg BitVec.toFin BitVec.extractLsb'_append_eq_left

@[simp] theorem fieldRs2_encodeAmo : fieldRs2 (encodeAmo funct5 aq rl rs2 rs1 funct3 rd) = rs2 := by
  rw [fieldRs2, encodeAmo]
  iterate 3 rw [BitVec.extractLsb'_append_eq_of_add_le (by decide)]
  exact congrArg BitVec.toFin BitVec.extractLsb'_append_eq_left

@[simp] theorem fieldAq_encodeAmo : fieldAq (encodeAmo funct5 aq rl rs2 rs1 funct3 rd) = aq := by
  rw [fieldAq, encodeAmo, BitVec.getLsbD_append, if_pos (by decide), BitVec.getLsbD_append, if_neg (by decide)]
  exact BitVec.getLsbD_ofBool aq 0

@[simp] theorem fieldRl_encodeAmo : fieldRl (encodeAmo funct5 aq rl rs2 rs1 funct3 rd) = rl := by
  rw [fieldRl, encodeAmo, BitVec.getLsbD_append, if_pos (by decide), BitVec.getLsbD_append, if_pos (by decide),
    BitVec.getLsbD_append, if_neg (by decide)]
  exact BitVec.getLsbD_ofBool rl 0

@[simp] theorem fieldRd_encodeI : fieldRd (encodeI imm rs1 funct3 rd opcode) = rd := by
  rw [fieldRd, encodeI]
  iterate 3 rw [BitVec.extractLsb'_append_eq_of_add_le (by decide)]
  exact congrArg BitVec.toFin BitVec.extractLsb'_append_eq_left

@[simp] theorem fieldRs1_encodeI : fieldRs1 (encodeI imm rs1 funct3 rd opcode) = rs1 := by
  rw [fieldRs1, encodeI, BitVec.extractLsb'_append_eq_of_add_le (by decide)]
  exact congrArg BitVec.toFin BitVec.extractLsb'_append_eq_left

@[simp] theorem fieldImmI_encodeI : fieldImmI (encodeI imm rs1 funct3 rd opcode) = imm :=
  BitVec.extractLsb'_append_eq_left

@[simp] theorem fieldRs1_encodeB : fieldRs1 (encodeB off rs2 rs1 funct3 opcode) = rs1 := by
  rw [fieldRs1, encodeB]
  iterate 3 rw [BitVec.extractLsb'_append_eq_of_add_le (by decide)]
  exact congrArg BitVec.toFin BitVec.extractLsb'_append_eq_left

@[simp] theorem fieldRs2_encodeB : fieldRs2 (encodeB off rs2 rs1 funct3 opcode) = rs2 := by
  rw [fieldRs2, encodeB]
  iterate 2 rw [BitVec.extractLsb'_append_eq_of_add_le (by decide)]
  exact congrArg BitVec.toFin BitVec.extractLsb'_append_eq_left

/-- The pieces of a branch offset, put together in the order of R107, are the offset, since its bit 0 is zero. -/
theorem fieldImmB_encodeB (h : off.getLsbD 0 = false) : fieldImmB (encodeB off rs2 rs1 funct3 opcode) = off := by
  have hbit12 : (encodeB off rs2 rs1 funct3 opcode).extractLsb' 31 1 = off.extractLsb' 12 1 :=
    BitVec.extractLsb'_append_eq_left
  have hbit11 : (encodeB off rs2 rs1 funct3 opcode).extractLsb' 7 1 = off.extractLsb' 11 1 := by
    rw [encodeB]
    iterate 6 rw [BitVec.extractLsb'_append_eq_of_add_le (by decide)]
    exact BitVec.extractLsb'_append_eq_left
  have hbits10to5 : (encodeB off rs2 rs1 funct3 opcode).extractLsb' 25 6 = off.extractLsb' 5 6 := by
    rw [encodeB, BitVec.extractLsb'_append_eq_of_add_le (by decide)]
    exact BitVec.extractLsb'_append_eq_left
  have hbits4to1 : (encodeB off rs2 rs1 funct3 opcode).extractLsb' 8 4 = off.extractLsb' 1 4 := by
    rw [encodeB]
    iterate 5 rw [BitVec.extractLsb'_append_eq_of_add_le (by decide)]
    exact BitVec.extractLsb'_append_eq_left
  have hbit0 : 0#1 = off.extractLsb' 0 1 := by
    ext k hk
    obtain rfl : k = 0 := by omega
    simpa using h.symm
  rw [fieldImmB, hbit12, hbit11, hbits10to5, hbits4to1, hbit0,
    BitVec.extractLsb'_append_extractLsb'_eq_extractLsb' (show 1 = 0 + 1 from rfl),
    BitVec.extractLsb'_append_extractLsb'_eq_extractLsb' (show 5 = 0 + (4 + 1) from rfl),
    BitVec.extractLsb'_append_extractLsb'_eq_extractLsb' (show 11 = 0 + (6 + (4 + 1)) from rfl),
    BitVec.extractLsb'_append_extractLsb'_eq_extractLsb' (show 12 = 0 + (1 + (6 + (4 + 1))) from rfl)]
  exact BitVec.extractLsb'_eq_self

end

/-! ### The decoder on an encoded word (R61) -/

/-- The word of an instruction is one of its row's. -/
theorem row_hits_encode (i : Instr) : i.row.hits (encode i) = true := by
  cases i with
  | lrW rd rs1 aq rl => exact Laws.OpcodeBits.lrW rd rs1 aq rl
  | lrD rd rs1 aq rl => exact Laws.OpcodeBits.lrD rd rs1 aq rl
  | scW rd rs2 rs1 aq rl => exact Laws.OpcodeBits.scW rd rs2 rs1 aq rl
  | scD rd rs2 rs1 aq rl => exact Laws.OpcodeBits.scD rd rs2 rs1 aq rl
  | addi rd rs1 imm => exact Laws.OpcodeBits.addi rd rs1 imm
  | bne rs1 rs2 off => exact Laws.OpcodeBits.bne rs1 rs2 off
  | jalr rd rs1 imm => exact Laws.OpcodeBits.jalr rd rs1 imm

theorem Instr.row_mem_opcodeTable (i : Instr) : i.row ∈ opcodeTable := by
  cases i <;> simp [Instr.row, opcodeTable]

/-- Of the rows of the table an instruction's word is one of its own row's only. -/
theorem hits_encode {r : OpcodeRow} (hr : r ∈ opcodeTable) (i : Instr) : r.hits (encode i) = decide (r = i.row) := by
  by_cases h : r = i.row
  · simp [h, row_hits_encode]
  · simp [h, opcodeTable_hits_unique i.row_mem_opcodeTable hr (Ne.symm h) (row_hits_encode i)]

/-- Decoding the word of an instruction of the variant gives it back. -/
theorem decodeWord_encode {x : Xlen} {i : Instr} (h : i.wf x = true) : decodeWord x (encode i) = .ok i := by
  have hrows : ∀ r ∈ opcodeTable, r.hits (encode i) = decide (r = i.row) := fun r hr => hits_encode hr i
  simp only [opcodeTable, List.forall_mem_cons] at hrows
  obtain ⟨hlrW, hlrD, hscW, hscD, haddi, hbne, hjalr, -⟩ := hrows
  unfold decodeWord
  rw [hlrW, hlrD, hscW, hscD, haddi, hbne, hjalr]
  cases i with
  | lrW rd rs1 aq rl => simp [Instr.row, encode]
  | lrD rd rs1 aq rl =>
    obtain rfl : x = .rv64 := by simpa [Instr.wf] using h
    simp [Instr.row, rowLrW, rowLrD, encode]
  | scW rd rs2 rs1 aq rl => simp [Instr.row, rowLrW, rowLrD, rowScW, encode]
  | scD rd rs2 rs1 aq rl =>
    obtain rfl : x = .rv64 := by simpa [Instr.wf] using h
    simp [Instr.row, rowLrW, rowLrD, rowScW, rowScD, encode]
  | addi rd rs1 imm => simp [Instr.row, rowLrW, rowLrD, rowScW, rowScD, rowAddi, encode]
  | bne rs1 rs2 off =>
    have hoff : off.getLsbD 0 = false := by simpa [Instr.wf] using h
    simp [Instr.row, rowLrW, rowLrD, rowScW, rowScD, rowAddi, rowBne, encode, fieldImmB_encodeB (h := hoff)]
  | jalr rd rs1 imm => simp [Instr.row, rowLrW, rowLrD, rowScW, rowScD, rowAddi, rowBne, rowJalr, encode]

/-- Settles O1: the bytes of an encoding are those of its word, and that word is of its own row only and has the fields. -/
theorem decodeOfEncodeIsTheInstruction : Obligations.DecodeOfEncodeIsTheInstruction :=
  fun _ _ rest h => decode_bytesOfInstrWord rest (decodeWord_encode h)

end Sys2Proof

namespace Sys2Proof.Machine

/-! ### The byte order of memory (R25) -/

/-- The low bytes of a value and then those of its upper part are the low bytes of the value. -/
theorem leBytes_add (m n : Nat) (v : Word) : leBytes (m + n) v = leBytes m v ++ leBytes n (v >>> (8 * m)) := by
  induction m generalizing v with
  | zero => simp [leBytes]
  | succ m ih =>
    rw [show m + 1 + n = m + n + 1 by omega, leBytes, leBytes, ih, List.cons_append, ← BitVec.shiftRight_add,
      show 8 + 8 * m = 8 * (m + 1) by omega]

/-- Writing one list of bytes and then another after it. -/
theorem Memory.writeBytes_append (m : Memory) (a : Nat) (bs cs : List Byte) :
    m.writeBytes a (bs ++ cs) = (m.writeBytes a bs).writeBytes (a + bs.length) cs := by
  induction bs generalizing m a with
  | nil => rfl
  | cons b rest ih =>
    rw [List.cons_append, Memory.writeBytes, ih, Memory.writeBytes, List.length_cons]
    congr 1
    omega

/-- A write of bytes above those read changes nothing of what is read. -/
theorem Memory.readBytes_writeBytes_above (m : Memory) {a n c : Nat} (bs : List Byte) (h : a + n ≤ c) :
    (m.writeBytes c bs).readBytes a n = m.readBytes a n :=
  Memory.readBytes_congr fun k hk => by
    rw [Memory.readByte_writeBytes, if_neg (by omega)]

/-- Of two parts of a value written together the lower is read at the address and the upper after it. -/
theorem Memory.readBytes_writeBytes_leBytes_add (m : Memory) (a k n : Nat) (v : Word) :
    (m.writeBytes a (leBytes (k + n) v)).readBytes a k = leBytes k v ∧
      (m.writeBytes a (leBytes (k + n) v)).readBytes (a + k) n = leBytes n (v >>> (8 * k)) := by
  have hlow := m.readBytes_writeBytes a (leBytes k v)
  have hhigh := (m.writeBytes a (leBytes k v)).readBytes_writeBytes (a + k) (leBytes n (v >>> (8 * k)))
  rw [leBytes_length] at hlow hhigh
  rw [leBytes_add, Memory.writeBytes_append, leBytes_length, Memory.readBytes_writeBytes_above _ _ le_rfl]
  exact ⟨hlow, hhigh⟩

/-- Settles O40: a doubleword's bytes are those of its low half and then those of its high half. -/
theorem memoryIsLittleEndian : Obligations.MemoryIsLittleEndian := by
  intro m a v
  obtain ⟨hlow, hhigh⟩ := m.readBytes_writeBytes_leBytes_add a 4 4 v
  refine ⟨?_, ?_, fun k hk => ?_⟩
  · rw [hlow, leValue_leBytes_toNat 4 v (by decide)]
  · rw [hhigh, leValue_leBytes_toNat 4 _ (by decide), BitVec.toNat_ushiftRight, Nat.shiftRight_eq_div_pow]
    omega
  · rw [Memory.readByte_writeBytes, if_pos (by rw [leBytes_length]; omega), Nat.add_sub_cancel_left, leBytes_getD 8 v k hk,
      pow_mul, show 2 ^ 8 = 256 by decide]

/-! ### The checks of LR and SC (R28, R50) -/

section
variable (s : State) (rd rs2 rs1 : Reg) (aq rl : Bool)

theorem exec_lrW_eq : exec (.lrW rd rs1 aq rl) s =
    s.withAccess .load (s.readReg rs1) 4 (.next (s.lrDone 4 (s.readReg rs1) rd aq rl)) := rfl

theorem exec_scW_eq : exec (.scW rd rs2 rs1 aq rl) s =
    s.withAccess .storeAMO (s.readReg rs1) 4 (.next (s.scDone 4 (s.readReg rs1) rd rs2 aq rl)) := rfl

theorem exec_lrD_eq (h : s.xlen = .rv64) : exec (.lrD rd rs1 aq rl) s =
    s.withAccess .load (s.readReg rs1) 8 (.next (s.lrDone 8 (s.readReg rs1) rd aq rl)) := by
  simp [exec, execLrD, h, State.loadReserved]

theorem exec_scD_eq (h : s.xlen = .rv64) : exec (.scD rd rs2 rs1 aq rl) s =
    s.withAccess .storeAMO (s.readReg rs1) 8 (.next (s.scDone 8 (s.readReg rs1) rd rs2 aq rl)) := by
  simp [exec, execScD, h, State.storeConditional]

end

theorem State.withAccess_of_misaligned (s : State) (kind : AccessKind) {a : Word} {n : Nat}
    (go : Host.Outcome State Fault Refusal) (h : a.toNat % n ≠ 0) :
    s.withAccess kind a n go = .fault (s.misalignedFault kind a) := by
  simp [State.withAccess, aligned, h, State.raise]

theorem State.withAccess_of_meetsText {s : State} (kind : AccessKind) {a : Word} {n : Nat}
    (go : Host.Outcome State Fault Refusal) (h : a.toNat % n = 0) (ht : s.meetsText a.toNat n = true) :
    s.withAccess kind a n go = .refused .textAccess := by
  simp [State.withAccess, aligned, h, ht]

/-- Bytes one of which is a byte of a word of the text meet the text. -/
theorem State.meetsText_of_byte {s : State} {a n : Nat}
    (h : ∃ e ∈ s.params.text, ∃ k, k < n ∧ e.1 ≤ a + k ∧ a + k < e.1 + 4) : s.meetsText a n = true := by
  obtain ⟨e, he, k, hk, hlo, hhi⟩ := h
  simp only [State.meetsText, List.any_eq_true, Bool.and_eq_true, decide_eq_true_eq]
  exact ⟨e, he, by omega, by omega⟩

/-- Settles O31: the alignment check is the first of the four instructions' checks. -/
theorem misalignedLrScAlwaysRaises : Obligations.MisalignedLrScAlwaysRaises := by
  intro s i kind rd rs2 rs1 aq rl n hi hmis
  have hfault : exec i s = .fault (s.misalignedFault kind (s.readReg rs1)) := by
    rcases hi with ⟨rfl, rfl, rfl⟩ | ⟨rfl, rfl, rfl, hx⟩ | ⟨rfl, rfl, rfl⟩ | ⟨rfl, rfl, rfl, hx⟩
    · rw [exec_lrW_eq, s.withAccess_of_misaligned _ _ hmis]
    · rw [exec_lrD_eq s _ _ _ _ hx, s.withAccess_of_misaligned _ _ hmis]
    · rw [exec_scW_eq, s.withAccess_of_misaligned _ _ hmis]
    · rw [exec_scD_eq s _ _ _ _ _ hx, s.withAccess_of_misaligned _ _ hmis]
  rw [hfault]
  exact ⟨fun h => by simp [State.misalignedFault, h], fun h => by simp [State.misalignedFault, h]⟩

/-- Settles O32: past the alignment check the text is checked, before the regions. -/
theorem lrScToTheTextIsRefused : Obligations.LrScToTheTextIsRefused := by
  intro s i rd rs2 rs1 aq rl n hi halign hbyte
  have htext := State.meetsText_of_byte hbyte
  rcases hi with ⟨rfl, rfl | rfl⟩ | ⟨rfl, hx, rfl | rfl⟩
  · rw [exec_lrW_eq, State.withAccess_of_meetsText _ _ halign htext]
  · rw [exec_scW_eq, State.withAccess_of_meetsText _ _ halign htext]
  · rw [exec_lrD_eq s _ _ _ _ hx, State.withAccess_of_meetsText _ _ halign htext]
  · rw [exec_scD_eq s _ _ _ _ _ hx, State.withAccess_of_meetsText _ _ halign htext]

/-! ### The ordering bits (R47)

They go into the recorded event only. -/

theorem mapNext_withAccess (f : State → State) (s : State) (kind : AccessKind) (a : Word) (n : Nat)
    (go : Host.Outcome State Fault Refusal) :
    mapNext f (s.withAccess kind a n go) = s.withAccess kind a n (mapNext f go) := by
  rcases s.withAccess_cases kind a n go with ⟨h, e⟩ | ⟨h, ht, e⟩ | ⟨h, ht, hr, e⟩ | ⟨h, e⟩ <;> rw [e]
  · simp [mapNext, State.withAccess, State.raise, h]
  · simp [mapNext, State.withAccess, h, ht]
  · simp [mapNext, State.withAccess, State.raise, h, ht, hr]
  · rw [State.withAccess_admits h]

/-- The event recorded before an instruction's three writes is nowhere but in the history. -/
theorem State.writes_record_withoutHist (s : State) (e e' : Event) (rd : Reg) (v : Word) (o : Option Reservation) :
    { (((s.record e).writeReg rd v).setRes o).advancePc with hist := [] } =
      { (((s.record e').writeReg rd v).setRes o).advancePc with hist := [] } := by
  unfold State.writeReg
  split <;> rfl

theorem State.lrDone_withoutHist (s : State) (n : Nat) (a : Word) (rd : Reg) (aq rl aq' rl' : Bool) :
    { s.lrDone n a rd aq rl with hist := [] } = { s.lrDone n a rd aq' rl' with hist := [] } :=
  s.writes_record_withoutHist _ _ rd _ _

theorem State.scDone_withoutHist (s : State) (n : Nat) (a : Word) (rd rs2 : Reg) (aq rl aq' rl' : Bool) :
    { s.scDone n a rd rs2 aq rl with hist := [] } = { s.scDone n a rd rs2 aq' rl' with hist := [] } :=
  State.writes_record_withoutHist _ _ _ rd _ _

/-- Settles O30: the checks do not read the bits, and what follows them reads them into the event only. -/
theorem orderingBitsChangeNoResult : Obligations.OrderingBitsChangeNoResult := by
  intro s rd rs2 rs1 aq rl aq' rl'
  refine ⟨?_, ?_, fun hx => ⟨?_, ?_⟩⟩
  · rw [exec_lrW_eq, exec_lrW_eq, mapNext_withAccess, mapNext_withAccess, mapNext, mapNext, s.lrDone_withoutHist]
  · rw [exec_scW_eq, exec_scW_eq, mapNext_withAccess, mapNext_withAccess, mapNext, mapNext, s.scDone_withoutHist]
  · rw [exec_lrD_eq s _ _ _ _ hx, exec_lrD_eq s _ _ _ _ hx, mapNext_withAccess, mapNext_withAccess, mapNext, mapNext,
      s.lrDone_withoutHist]
  · rw [exec_scD_eq s _ _ _ _ _ hx, exec_scD_eq s _ _ _ _ _ hx, mapNext_withAccess, mapNext_withAccess, mapNext, mapNext,
      s.scDone_withoutHist]

/-! ### An LR and the SC after it (R52, R75, R78) -/

/-- The checks of LR and SC look at the parameters only. -/
theorem State.admits_congr {s t : State} (h : t.params = s.params) (a : Word) (n : Nat) : t.admits a n = s.admits a n := by
  simp only [State.admits, State.meetsText, State.accessible, State.lrscOk, h]

@[simp] theorem State.lrDone_params (s : State) (n : Nat) (a : Word) (rd : Reg) (aq rl : Bool) :
    (s.lrDone n a rd aq rl).params = s.params := by
  simp [State.lrDone]

/-- After an LR the hart holds its reservation. -/
theorem State.lrDone_res (s : State) (n : Nat) (a : Word) (rd : Reg) (aq rl : Bool) :
    (s.lrDone n a rd aq rl).hart.res = some (s.newReservation a.toNat n) := rfl

/-- An SC to the bytes of the latest LR, with nothing between, succeeds unless the draw fails it. -/
theorem State.scSucceeds_of_lrDone (s : State) (n : Nat) (a : Word) (rd : Reg) (aq rl : Bool) {draw : Choice}
    (h : draw.spurious = false) :
    ({ s.lrDone n a rd aq rl with script := [draw] } : State).scSucceeds a.toNat n = true := by
  rw [State.scSucceeds_iff]
  exact ⟨⟨_, s.lrDone_res n a rd aq rl, coversBytes_iff.mp (s.newReservation_covers a.toNat n)⟩, h⟩

/-- After an SC that succeeded `rd` is zero and memory holds the bytes of `rs2`. -/
theorem State.scDone_result_of_success {s : State} {n : Nat} {a : Word} (rd rs2 : Reg) (aq rl : Bool)
    (h : s.scSucceeds a.toNat n = true) : (s.scDone n a rd rs2 aq rl).readReg rd = 0 ∧
      ∀ k, k < n → (s.scDone n a rd rs2 aq rl).mem.readByte (a.toNat + k) =
        BitVec.ofNat 8 ((s.readReg rs2).toNat / 256 ^ k) := by
  rw [State.scDone_of_success _ _ _ _ h]
  constructor
  · simp +contextual
  · intro k hk
    simp only [State.advancePc_mem, State.setRes_mem, State.writeReg_mem, State.record_mem, State.store_mem,
      Memory.readByte_writeBytes, State.storedBytes, leBytes_length]
    rw [if_pos (by omega), Nat.add_sub_cancel_left, leBytes_getD n _ k hk]

/-- Settles O29: the LR's reservation holds the bytes, and a reference draw fails no SC that may succeed. -/
theorem referencePairSucceeds : Obligations.ReferencePairSucceeds := by
  intro s t l c rd rs1 rd' rs2 rs1' aq rl aq' rl' n draw hi hl haddr hdraw
  have hspurious : draw.spurious = false := by
    simp only [Choice.isReference, Bool.and_eq_true, Bool.not_eq_true'] at hdraw
    obtain ⟨⟨hspurious, -⟩, -⟩ := hdraw
    exact hspurious
  obtain ⟨hadmits, ht, hc⟩ : s.admits (s.readReg rs1) n = true ∧ t = s.lrDone n (s.readReg rs1) rd aq rl ∧
      ∀ u : State, u.params = s.params → u.readReg rs1' = s.readReg rs1 →
        exec c u = u.withAccess .storeAMO (s.readReg rs1) n (.next (u.scDone n (s.readReg rs1) rd' rs2 aq' rl')) := by
    rcases hi with ⟨rfl, rfl, rfl⟩ | ⟨rfl, rfl, rfl⟩
    · obtain ⟨hadmits, ht⟩ := exec_lrW_next hl
      exact ⟨hadmits, ht, fun u _ hu => by rw [exec_scW_eq, hu]⟩
    · obtain ⟨hx, hadmits, ht⟩ := exec_lrD_next hl
      exact ⟨hadmits, ht, fun u hp hu => by rw [exec_scD_eq u _ _ _ _ _ ((congrArg Params.xlen hp).trans hx), hu]⟩
  have hparams : t.params = s.params := by rw [ht, State.lrDone_params]
  have hok : ({ t with script := [draw] } : State).scSucceeds (s.readReg rs1).toNat n = true := by
    rw [ht]
    exact s.scSucceeds_of_lrDone n _ rd aq rl hspurious
  have hresult := State.scDone_result_of_success rd' rs2 aq' rl' hok
  refine ⟨_, (hc { t with script := [draw] } hparams haddr).trans (State.withAccess_admits ?_), hresult⟩
  exact (State.admits_congr hparams _ n).trans hadmits

/-! ### Memory as the history made it (R33, R52) -/

/-- The event, if it is an LR's, returned the bytes of the memory. -/
def Event.readsFrom (m : Memory) : Event → Prop
  | .lr _ a n _ _ bytes _ => bytes = m.readBytes a n
  | .sc _ _ _ _ _ _ _ => True
  | .deviceWrite _ _ _ => True

theorem replay_append (mem0 : Memory) (hist later : List Event) :
    replay mem0 (hist ++ later) = replay (replay mem0 hist) later :=
  List.foldl_append

/-- Every LR of a history that goes on by one event returned the latest bytes, where those before did and the last one does. -/
theorem readsLatest_concat {mem0 : Memory} {hist : List Event} {e : Event} (h : readsLatest mem0 hist)
    (he : e.readsFrom (replay mem0 hist)) : readsLatest mem0 (hist ++ [e]) := by
  intro i g a n aq rl bytes set hi
  rcases Nat.lt_or_ge i hist.length with hlt | hge
  · rw [List.getElem?_append_left hlt] at hi
    rw [List.take_append_of_le_length hlt.le]
    exact h i g a n aq rl bytes set hi
  · obtain ⟨hlt, -⟩ := List.getElem?_eq_some_iff.mp hi
    obtain rfl : i = hist.length := by
      rw [List.length_append, List.length_singleton] at hlt
      omega
    rw [List.getElem?_concat_length] at hi
    cases hi
    rwa [List.take_left]

/-- A step from `s` to `t` records nothing and leaves memory, or it records one event: memory is what the event makes of it, and
an LR's bytes are those memory held. -/
def State.recordsTo (s t : State) : Prop :=
  (t.mem = s.mem ∧ t.hist = s.hist) ∨
    ∃ e : Event, t.mem = e.apply s.mem ∧ t.hist = s.hist ++ [e] ∧ e.readsFrom s.mem

theorem State.lrDone_records {s : State} (h : s.params.memOrder = .interleaved) (n : Nat) (a : Word) (rd : Reg)
    (aq rl : Bool) : s.recordsTo (s.lrDone n a rd aq rl) := by
  refine .inr ⟨.lr s.self a.toNat n aq rl (s.lrBytes a.toNat n) (s.newReservation a.toNat n).set, ?_, ?_, ?_⟩
  · simp [State.lrDone, Event.apply]
  · simp [State.lrDone]
  · simp [Event.readsFrom, State.lrBytes, h]

theorem State.scDone_records (s : State) (n : Nat) (a : Word) (rd rs2 : Reg) (aq rl : Bool) :
    s.recordsTo (s.scDone n a rd rs2 aq rl) := by
  cases hok : s.scSucceeds a.toNat n with
  | false =>
    refine .inr ⟨.sc s.self a.toNat n aq rl false [], ?_, ?_, trivial⟩ <;>
      simp [State.scDone_of_failure _ _ _ _ hok, Event.apply, Memory.writeBytes]
  | true =>
    refine .inr ⟨.sc s.self a.toNat n aq rl true (s.storedBytes n rs2), ?_, ?_, trivial⟩ <;>
      simp [State.scDone_of_success _ _ _ _ hok, Event.apply]

theorem exec_records {i : Instr} {s t : State} (ho : s.params.memOrder = .interleaved) (h : exec i s = .next t) :
    s.recordsTo t := by
  rcases exec_next_cases h with ⟨n, a, rd, aq, rl, -, -, rfl⟩ | ⟨n, a, rd, rs2, aq, rl, -, -, rfl⟩ | ⟨rd, v, rfl⟩ |
    ⟨p, -, rfl⟩ | rfl | ⟨rd, v, p, -, rfl⟩
  · exact State.lrDone_records ho n a rd aq rl
  · exact s.scDone_records n a rd rs2 aq rl
  · exact .inl (by simp)
  · exact .inl (by simp)
  · exact .inl (by simp)
  · exact .inl (by simp)

theorem State.deviceStep_records (s : State) (d : Nat) : s.recordsTo (s.deviceStep d) := by
  rcases s.deviceStep_cases d with he | ⟨a, bytes, loses, -, he⟩ <;> rw [he]
  · exact .inl ⟨rfl, rfl⟩
  · obtain ⟨-, hmem, hhist⟩ := s.deviceStore_other d a bytes loses
    exact .inr ⟨.deviceWrite d a bytes, hmem, hhist, trivial⟩

theorem step_records {s t : State} (ho : s.params.memOrder = .interleaved) (h : step s = .next t) : s.recordsTo t := by
  rcases step_next_cases h with ⟨-, -, w, i, u, -, hexec, rfl⟩ | ⟨-, -, rfl⟩ | ⟨d, -, rfl⟩ <;>
    rw [State.recordsTo, State.endStep_mem, State.endStep_hist]
  · exact exec_records ho hexec
  · exact .inl ⟨rfl, rfl⟩
  · exact s.deviceStep_records d

/-- Settles O50: what a step records is read from and applied to the memory that the history before has made. -/
theorem stepKeepsReadsLatest : Obligations.StepKeepsReadsLatest := by
  intro mem0 s t ho hmem hreads h
  rcases step_records ho h with ⟨hm, hh⟩ | ⟨e, hm, hh, he⟩ <;> rw [State.memFromHist, hm, hh]
  · exact ⟨hmem, hreads⟩
  · rw [hmem] at he ⊢
    exact ⟨(replay_append mem0 s.hist [e]).symm, readsLatest_concat hreads he⟩

/-! ### The last writer of a byte (R44, R52) -/

theorem Memory.readBytes_getElem? (m : Memory) (a n k : Nat) :
    (m.readBytes a n)[k]? = if k < n then some (m.readByte (a + k)) else none := by
  induction n generalizing a k with
  | zero => simp [Memory.readBytes]
  | succ n ih =>
    cases k with
    | zero => simp [Memory.readBytes]
    | succ k => simp [Memory.readBytes, ih, Nat.add_assoc, Nat.add_comm 1 k]

/-- An event that writes no byte at an address leaves it. -/
theorem Event.readByte_apply_of_none {e : Event} {x : Nat} (h : e.byteAt x = none) (m : Memory) :
    (e.apply m).readByte x = m.readByte x := by
  rw [Event.readByte_apply, h]

/-- An event leaves the byte it writes. -/
theorem Event.readByte_apply_of_some {e : Event} {x : Nat} {b : Byte} (h : e.byteAt x = some b) (m : Memory) :
    (e.apply m).readByte x = b := by
  rw [Event.readByte_apply, h]

theorem writesAt_drop {hist : List Event} {i k x : Nat} : writesAt (hist.drop i) k x ↔ writesAt hist (i + k) x := by
  simp [writesAt]

/-- A byte that no event wrote is the one of the launch memory. -/
theorem replay_readByte_of_unwritten {hist : List Event} {x : Nat} (h : ∀ k, ¬ writesAt hist k x) (mem0 : Memory) :
    (replay mem0 hist).readByte x = mem0.readByte x := by
  induction hist generalizing mem0 with
  | nil => rfl
  | cons e rest ih =>
    have hhead : e.byteAt x = none := by
      rw [Option.eq_none_iff_forall_ne_some]
      exact fun b hb => h 0 ⟨e, b, rfl, hb⟩
    exact (ih (fun k hk => h (k + 1) hk) (e.apply mem0)).trans (Event.readByte_apply_of_none hhead mem0)

/-- A byte is the one the last event that wrote it put there. -/
theorem replay_readByte_of_last {hist : List Event} {x j : Nat} {e : Event} {b : Byte} (hj : hist[j]? = some e)
    (hb : e.byteAt x = some b) (hlast : ∀ k, writesAt hist k x → k ≤ j) (mem0 : Memory) :
    (replay mem0 hist).readByte x = b := by
  obtain ⟨hlt, rfl⟩ := List.getElem?_eq_some_iff.mp hj
  have hsplit : replay mem0 hist = replay (hist[j].apply (replay mem0 (hist.take j))) (hist.drop (j + 1)) := by
    conv_lhs => rw [← List.take_append_drop j hist, List.drop_eq_getElem_cons hlt, replay_append]
    rfl
  rw [hsplit, replay_readByte_of_unwritten, Event.readByte_apply_of_some hb]
  intro k hk
  have := hlast _ (writesAt_drop.mp hk)
  omega

/-- The source of a byte is the last event before the LR that wrote it. -/
theorem inOrder_source {hist : List Event} {i x j : Nat} (h : (Witness.inOrder hist).source i x = some j) :
    writesAt hist j x ∧ j < i ∧ ∀ k, writesAt (hist.take i) k x → k ≤ j := by
  have hcases := lastWriteTo_cases x (hist.take i)
  rw [show lastWriteTo x (hist.take i) = some j from h] at hcases
  obtain ⟨hj, hlast⟩ := hcases
  exact ⟨(writesAt_take.mp hj).1, (writesAt_take.mp hj).2, hlast⟩

/-- Where a byte has no source, no event before the LR wrote it. -/
theorem inOrder_source_none {hist : List Event} {i x : Nat} (h : (Witness.inOrder hist).source i x = none) (k : Nat) :
    ¬ writesAt (hist.take i) k x := by
  have hcases := lastWriteTo_cases x (hist.take i)
  rw [show lastWriteTo x (hist.take i) = none from h] at hcases
  exact hcases k

/-- Where every LR returned the latest bytes, the events in their order explain each byte (R44). -/
theorem inOrder_explains {mem0 : Memory} {hist : List Event} (hreads : readsLatest mem0 hist) :
    (Witness.inOrder hist).explains mem0 hist := by
  intro i h a n aq rl bytes set k b hi hk
  obtain rfl : b = (replay mem0 (hist.take i)).readByte (a + k) := by
    rw [hreads i h a n aq rl bytes set hi, Memory.readBytes_getElem?] at hk
    split at hk
    · exact (Option.some.inj hk).symm
    · cases hk
  cases hsource : (Witness.inOrder hist).source i (a + k) with
  | none => exact replay_readByte_of_unwritten (inOrder_source_none hsource) mem0
  | some j =>
    obtain ⟨⟨e, b, hj, hb⟩, hlt, hlast⟩ := inOrder_source hsource
    have htake : (hist.take i)[j]? = some e := by rw [List.getElem?_take_of_lt hlt, hj]
    exact ⟨e, hj, by rw [replay_readByte_of_last htake hb hlast mem0, hb]⟩

/-- The memory a history makes is the one its events in their order leave behind. -/
theorem inOrder_finalMemory (mem0 : Memory) (hist : List Event) :
    (Witness.inOrder hist).finalMemory mem0 hist (replay mem0 hist) := by
  refine fun x => ⟨fun h => replay_readByte_of_unwritten h mem0, fun j e b hj hb hlast =>
    replay_readByte_of_last hj hb (fun k hk => ?_) mem0⟩
  rcases hlast 0 k hk with rfl | hlt
  · exact le_rfl
  · exact Nat.le_of_lt hlt

/-- Settles O51: the bytes read and the bytes left are those of the last event that wrote them. -/
theorem latestBytesHaveTheirSource : Obligations.LatestBytesHaveTheirSource := fun mem0 hist hreads =>
  ⟨inOrder_explains hreads, inOrder_finalMemory mem0 hist⟩

/-! ### Histories observed in their own order (R52) -/

/-- A write before an LR is its source or stands before its source. -/
theorem inOrder_latest {hist : List Event} {i x k : Nat} (h : writesAt hist k x) (hlt : k < i) :
    ∃ j, (Witness.inOrder hist).source i x = some j ∧ (k = j ∨ k < j) := by
  have hk : writesAt (hist.take i) k x := writesAt_take.mpr ⟨h, hlt⟩
  cases hsource : (Witness.inOrder hist).source i x with
  | none => exact absurd hk (inOrder_source_none hsource k)
  | some j =>
    obtain ⟨-, -, hlast⟩ := inOrder_source hsource
    exact ⟨j, rfl, (hlast k hk).eq_or_lt⟩

/-- The order of the events is an observation of the history (R32, R33, R41, R133). -/
theorem inOrder_consistent (hist : List Event) : (Witness.inOrder hist).Consistent hist where
  irrefl _ i := Nat.lt_irrefl i
  trans _ _ _ _ := Nat.lt_trans
  total _ _ _ _ _ := Nat.lt_or_gt_of_ne
  source _ _ _ _ _ _ _ _ _ _ _ _ _ hs := ⟨(inOrder_source hs).1, fun _ => (inOrder_source hs).2.1⟩
  latest _ _ _ _ _ _ _ _ _ _ _ _ _ hk hlt := inOrder_latest hk hlt
  coherent _ _ _ _ _ _ _ h := h
  sameByte _ _ _ _ _ _ _ _ h _ _ _ _ := h

/-- Settles O52: what the ordering items ask to be observed in program order is so, since the events stand in that order. -/
theorem justifiedHistoriesMeetTheOrderItems : Obligations.JustifiedHistoriesMeetTheOrderItems := fun hist hjustified =>
  { observed := inOrder_consistent hist
    justified := hjustified
    lrFirst := by
      rintro i j h a n set b m aq rl bytes ⟨-, hij, -⟩ - g
      exact hij
    acquire := fun _ _ _ _ _ _ _ _ _ _ hik _ _ _ => hik
    release := fun _ _ _ _ _ _ _ _ _ hkj _ _ _ => hkj
    sequential := by
      rintro i j h k e ⟨a, n, rl, bytes, set, b, m, sbytes, -, ⟨-, hij, -⟩, -⟩ - - g
      exact ⟨fun hki => ⟨hki, hki.trans hij⟩, fun hjk => ⟨hij.trans hjk, hjk⟩⟩ }

/-! ### What every observation excludes (R32, R33, R41 to R45) -/

section
variable {hist : List Event} {w : Witness}

theorem Witness.Consistent.asymm (hw : w.Consistent hist) {g i j : Nat} (h : w.before g i j) : ¬ w.before g j i :=
  fun h' => hw.irrefl g i (hw.trans g i j i h h')

/-- A byte of an LR whose hart observes a write to it first is from that write or, for every observer, from a newer one (R33). -/
theorem Witness.Consistent.source_of_observed (hw : w.Consistent hist) {i h a n x k : Nat} {aq rl : Bool}
    {bytes : List Byte} {set : List ByteRange} (hi : hist[i]? = some (.lr h a n aq rl bytes set)) (hx : a ≤ x ∧ x < a + n)
    (hk : writesAt hist k x) (hobs : w.before h k i) : ∃ s, w.source i x = some s ∧ ∀ o, s = k ∨ w.before o k s := by
  obtain ⟨s, hs, hlatest⟩ := hw.latest i h a n aq rl bytes set x k hi hx.1 hx.2 hk hobs
  refine ⟨s, hs, fun o => ?_⟩
  rcases hlatest with rfl | hbefore
  · exact .inl rfl
  · exact .inr (hw.coherent h o k s x hk (hw.source i h a n aq rl bytes set x s hi hx.1 hx.2 hs).1 hbefore)

/-- An LR that returns an older byte than a write's, or one of the launch memory, does not come after the write for its hart. -/
theorem Witness.Consistent.not_observed_of_older (hw : w.Consistent hist) {i h a n x k o : Nat} {aq rl : Bool}
    {bytes : List Byte} {set : List ByteRange} (hi : hist[i]? = some (.lr h a n aq rl bytes set)) (hx : a ≤ x ∧ x < a + n)
    (hk : writesAt hist k x) (holder : w.source i x = none ∨ ∃ s, w.source i x = some s ∧ w.before o s k) :
    ¬ w.before h k i := by
  intro hobs
  obtain ⟨s, hs, hnewer⟩ := hw.source_of_observed hi hx hk hobs
  rcases holder with hnone | ⟨s', hs', hbefore⟩
  · rw [hs] at hnone
    cases hnone
  · obtain rfl : s = s' := Option.some.inj (hs.symm.trans hs')
    rcases hnewer o with rfl | h'
    · exact hw.irrefl o _ hbefore
    · exact hw.asymm hbefore h'

end

/-- Settles O54: the newer byte puts the write before the LR for the LR's hart, the older one does not. -/
theorem readsAreNotTorn : Obligations.ReadsAreNotTorn := by
  rintro hist w o i j h a n x y aq rl bytes set hitems hi hx hy hjx hjy holder ⟨t, ht, hnewer⟩
  have hw := hitems.observed
  obtain ⟨hty, hti⟩ := hw.source i h a n aq rl bytes set y t hi hy.1 hy.2 ht
  refine hw.not_observed_of_older hi hx hjx holder ?_
  rcases hnewer with rfl | hbefore
  · exact hti h
  · exact hw.trans h j t i (hw.coherent o h j t y hjy hty hbefore) (hti h)

/-- R41: for a hart that reads from an SC, the SC's LR comes before what that hart observes after its read. -/
theorem OrderItems.lr_before_later_of_read {hist : List Event} {w : Witness} (hitems : OrderItems hist w)
    {h g i j k l a n b m c e x : Nat} {aq' rl' p q : Bool} {set set' : List ByteRange} {bytes' sbytes : List Byte}
    (hlr : latestLr hist i j h a n set) (hj : hist[j]? = some (.sc h b m aq' rl' true sbytes))
    (hl : hist[l]? = some (.lr g c e p q bytes' set')) (hx : c ≤ x ∧ x < c + e) (hsource : w.source l x = some j)
    (hlk : w.before g l k) : w.before g i k := by
  have hw := hitems.observed
  have hij := hitems.lrFirst i j h a n set b m aq' rl' sbytes hlr hj g
  have hjl := (hw.source l g c e p q bytes' set' x j hl hx.1 hx.2 hsource).2 g
  exact hw.trans g i j k hij (hw.trans g j l k hjl hlk)

/-- R42, R43: with `rl` on an SC and `aq` on the LR of hart `g` that reads from it, hart `g` observes what stands before the SC in
its hart before what stands after the LR. -/
theorem OrderItems.earlier_before_later_of_read {hist : List Event} {w : Witness} (hitems : OrderItems hist w)
    {h g k j i l a n b m x : Nat} {aq rl : Bool} {set : List ByteRange} {sbytes bytes : List Byte} {early late : Event}
    (hk : hist[k]? = some early) (hearly : early.memOpOf h = true) (hkj : k < j)
    (hj : hist[j]? = some (.sc h b m aq true true sbytes)) (hi : hist[i]? = some (.lr g a n true rl bytes set))
    (hx : a ≤ x ∧ x < a + n) (hsource : w.source i x = some j) (hil : i < l) (hl : hist[l]? = some late)
    (hlate : late.memOpOf g = true) : w.before g k l := by
  have hw := hitems.observed
  have hreleased := hitems.release k j h b m aq sbytes early hj hkj hk hearly g
  have hread := (hw.source i g a n true rl bytes set x j hi hx.1 hx.2 hsource).2 g
  have hacquired := hitems.acquire i l g a n rl bytes set late hi hil hl hlate g
  exact hw.trans g k i l (hw.trans g k j i hreleased hread) hacquired

/-- R45: where an LR after one sequential pair misses what the SC of another wrote, its hart observes the first pair and that LR
before what stands after the other pair. -/
theorem OrderItems.pair_before_later_of_missed {hist : List Event} {w : Witness} (hitems : OrderItems hist w)
    {o h g i j l i' j' k c e y : Nat} {p q : Bool} {lset : List ByteRange} {lbytes : List Byte} {late : Event}
    (hpair : seqPair hist i j h) (hjl : j < l) (hl : hist[l]? = some (.lr h c e p q lbytes lset)) (hy : c ≤ y ∧ y < c + e)
    (hpair' : seqPair hist i' j' g) (hj'y : writesAt hist j' y) (hj'k : j' < k) (hk : hist[k]? = some late)
    (hlate : late.memOpOf g = true)
    (holder : w.source l y = none ∨ ∃ s, w.source l y = some s ∧ w.before o s j') :
    w.before h i k ∧ w.before h j k ∧ w.before h l k := by
  have hw := hitems.observed
  have hlj' : w.before h l j' := by
    obtain ⟨_, _, _, _, _, _, _, _, -, -, hj'⟩ := hpair'
    have hne : l ≠ j' := by
      rintro rfl
      rw [hl] at hj'
      cases hj'
    exact (hw.total h l j' ⟨_, hl, rfl⟩ ⟨_, hj', rfl⟩ hne).resolve_right (hw.not_observed_of_older hl hy hj'y holder)
  obtain ⟨-, hlater'⟩ := hitems.sequential i' j' g k late hpair' hk hlate h
  have hlk := hw.trans h l j' k hlj' (hlater' hj'k).2
  obtain ⟨-, hlater⟩ := hitems.sequential i j h l _ hpair hl (by simp [Event.memOpOf]) h
  obtain ⟨hil, hjl'⟩ := hlater hjl
  exact ⟨hw.trans h i l k hil hlk, hw.trans h j l k hjl' hlk, hlk⟩

/-- Settles O55: one chain of observations for each of R41, R42 with R43, and R45. -/
theorem orderingForbidsReorderings : Obligations.OrderingForbidsReorderings := by
  intro hist w hitems
  have hw := hitems.observed
  refine ⟨?_, ?_, ?_⟩
  · intro h g i j k l a n b m c e x aq rl aq' rl' p q set set' bytes bytes' sbytes _ hlr hi hj hl hx hsource hlk
    have hik := hitems.lr_before_later_of_read hlr hj hl hx hsource hlk
    exact ⟨hw.asymm hik, fun y hlo hhi hs =>
      hw.asymm hik ((hw.source i h a n aq rl bytes set y k hi hlo hhi hs).2 g)⟩
  · intro h g k j i l a n b m c e x y aq rl p q set set' sbytes bytes bytes' early hk hearly hkj hky hj hi hx hsource hil
      hl hy
    have hkl := hitems.earlier_before_later_of_read hk hearly hkj hj hi hx hsource hil hl (by simp [Event.memOpOf])
    exact hw.source_of_observed hl hy hky hkl
  · intro o h g i j l i' j' k a n b m c e a' n' b' m' y rl rl' p q set set' lset bytes bytes' sbytes sbytes' lbytes late
      hi hlr hj hjl hl hy hi' hlr' hj' hj'y hj'k hk hlate holder
    exact hitems.pair_before_later_of_missed ⟨a, n, rl, bytes, set, b, m, sbytes, hi, hlr, hj⟩ hjl hl hy
      ⟨a', n', rl', bytes', set', b', m', sbytes', hi', hlr', hj'⟩ hj'y hj'k hk hlate holder

end Sys2Proof.Machine
end

section
/-! SUPPORT. The obligations on the encoding (30_encoding.md): which words are an LR or an SC and what their fields are, and which
words are illegal or not in scope. -/

namespace Sys2Proof

/-! ### The answers of the decoder, by the row of the word (R61, R65, R66) -/

theorem decodeWord_of_rowLrW (x : Xlen) {w : InstrWord} (h : rowLrW.hits w = true) :
    decodeWord x w = .ok (.lrW (fieldRd w) (fieldRs1 w) (fieldAq w) (fieldRl w)) := by
  simp [decodeWord, h]

theorem decodeWord_of_rowLrD (x : Xlen) {w : InstrWord} (h : rowLrD.hits w = true) :
    decodeWord x w = if x = .rv64 then .ok (.lrD (fieldRd w) (fieldRs1 w) (fieldAq w) (fieldRl w))
      else .error (.illegal w) := by
  have hlrW : rowLrW.hits w = false := opcodeTable_hits_unique (by decide) (by decide) (by decide) h
  cases x <;> simp [decodeWord, hlrW, h]

theorem decodeWord_of_rowScW (x : Xlen) {w : InstrWord} (h : rowScW.hits w = true) :
    decodeWord x w = .ok (.scW (fieldRd w) (fieldRs2 w) (fieldRs1 w) (fieldAq w) (fieldRl w)) := by
  have hlrW : rowLrW.hits w = false := opcodeTable_hits_unique (by decide) (by decide) (by decide) h
  have hlrD : rowLrD.hits w = false := opcodeTable_hits_unique (by decide) (by decide) (by decide) h
  simp [decodeWord, hlrW, hlrD, h]

theorem decodeWord_of_rowScD (x : Xlen) {w : InstrWord} (h : rowScD.hits w = true) :
    decodeWord x w = if x = .rv64 then .ok (.scD (fieldRd w) (fieldRs2 w) (fieldRs1 w) (fieldAq w) (fieldRl w))
      else .error (.illegal w) := by
  have hlrW : rowLrW.hits w = false := opcodeTable_hits_unique (by decide) (by decide) (by decide) h
  have hlrD : rowLrD.hits w = false := opcodeTable_hits_unique (by decide) (by decide) (by decide) h
  have hscW : rowScW.hits w = false := opcodeTable_hits_unique (by decide) (by decide) (by decide) h
  cases x <;> simp [decodeWord, hlrW, hlrD, hscW, h]

/-- A word of no row is illegal or not in scope (R63, R64, R66). -/
theorem decodeWord_of_no_row (x : Xlen) {w : InstrWord} (h : ∀ r ∈ opcodeTable, r.hits w = false) :
    decodeWord x w = if isLrScSpace w then .error (.illegal w) else .error (.notInScope w) := by
  simp only [opcodeTable, List.forall_mem_cons] at h
  obtain ⟨hlrW, hlrD, hscW, hscD, haddi, hbne, hjalr, -⟩ := h
  simp [decodeWord, hlrW, hlrD, hscW, hscD, haddi, hbne, hjalr]

/-- The operands of an instruction are the fields of the word at the places of its format (R54, R106, R107). -/
def Instr.hasFieldsOf (w : InstrWord) : Instr → Prop
  | .lrW rd rs1 aq rl | .lrD rd rs1 aq rl => rd = fieldRd w ∧ rs1 = fieldRs1 w ∧ aq = fieldAq w ∧ rl = fieldRl w
  | .scW rd rs2 rs1 aq rl | .scD rd rs2 rs1 aq rl =>
    rd = fieldRd w ∧ rs2 = fieldRs2 w ∧ rs1 = fieldRs1 w ∧ aq = fieldAq w ∧ rl = fieldRl w
  | .addi rd rs1 imm | .jalr rd rs1 imm => rd = fieldRd w ∧ rs1 = fieldRs1 w ∧ imm = fieldImmI w
  | .bne rs1 rs2 off => rs1 = fieldRs1 w ∧ rs2 = fieldRs2 w ∧ off = fieldImmB w

theorem fieldImmB_even (w : InstrWord) : (fieldImmB w).getLsbD 0 = false := by
  simp only [fieldImmB, BitVec.getLsbD_append]
  simp

/-- The instruction a word decodes to is of the variant, the word is of its row, and the word's fields are its operands. -/
theorem decodeWord_ok {x : Xlen} {w : InstrWord} {i : Instr} (h : decodeWord x w = .ok i) :
    i.wf x = true ∧ i.row.hits w = true ∧ i.hasFieldsOf w := by
  rcases decodeWord_cases x w with ⟨hit, e⟩ | ⟨hit, e⟩ | ⟨hit, e⟩ | ⟨hit, e⟩ | ⟨hit, e⟩ | ⟨hit, e⟩ | ⟨hit, e⟩ | ⟨-, e⟩
  all_goals rw [e] at h
  · cases h
    exact ⟨rfl, hit, rfl, rfl, rfl, rfl⟩
  · split at h <;> cases h
    next hx => exact ⟨beq_iff_eq.mpr hx, hit, rfl, rfl, rfl, rfl⟩
  · cases h
    exact ⟨rfl, hit, rfl, rfl, rfl, rfl, rfl⟩
  · split at h <;> cases h
    next hx => exact ⟨beq_iff_eq.mpr hx, hit, rfl, rfl, rfl, rfl, rfl⟩
  · cases h
    exact ⟨rfl, hit, rfl, rfl, rfl⟩
  · cases h
    exact ⟨beq_iff_eq.mpr (fieldImmB_even w), hit, rfl, rfl, rfl⟩
  · cases h
    exact ⟨rfl, hit, rfl, rfl, rfl⟩
  · split at h <;> cases h

/-- Settles O2: a decoded word is of its instruction's row, and a word of the row has its answer. -/
theorem lrScWordsAreThoseThatMatch : Obligations.LrScWordsAreThoseThatMatch := by
  intro x w
  refine ⟨⟨?_, fun h => ?_⟩, ⟨?_, fun ⟨hx, h⟩ => ?_⟩, ⟨?_, fun h => ?_⟩, ⟨?_, fun ⟨hx, h⟩ => ?_⟩⟩
  · rintro ⟨rd, rs1, aq, rl, h⟩
    obtain ⟨-, hit, -⟩ := decodeWord_ok h
    exact (rowLrW.hits_iff w).mp hit
  · exact ⟨_, _, _, _, decodeWord_of_rowLrW x ((rowLrW.hits_iff w).mpr h)⟩
  · rintro ⟨rd, rs1, aq, rl, h⟩
    obtain ⟨hwf, hit, -⟩ := decodeWord_ok h
    exact ⟨beq_iff_eq.mp hwf, (rowLrD.hits_iff w).mp hit⟩
  · exact ⟨_, _, _, _, (decodeWord_of_rowLrD x ((rowLrD.hits_iff w).mpr h)).trans (if_pos hx)⟩
  · rintro ⟨rd, rs2, rs1, aq, rl, h⟩
    obtain ⟨-, hit, -⟩ := decodeWord_ok h
    exact (rowScW.hits_iff w).mp hit
  · exact ⟨_, _, _, _, _, decodeWord_of_rowScW x ((rowScW.hits_iff w).mpr h)⟩
  · rintro ⟨rd, rs2, rs1, aq, rl, h⟩
    obtain ⟨hwf, hit, -⟩ := decodeWord_ok h
    exact ⟨beq_iff_eq.mp hwf, (rowScD.hits_iff w).mp hit⟩
  · exact ⟨_, _, _, _, _, (decodeWord_of_rowScD x ((rowScD.hits_iff w).mpr h)).trans (if_pos hx)⟩

/-! ### The fields of a decoded LR or SC (R54, R60) -/

theorem fieldAq_eq_testBit (w : InstrWord) : fieldAq w = w.toNat.testBit 26 := (BitVec.testBit_toNat w).symm
theorem fieldRl_eq_testBit (w : InstrWord) : fieldRl w = w.toNat.testBit 25 := (BitVec.testBit_toNat w).symm

/-- Settles O3: the operands of the decoded instruction are the word's fields, and these are the word's bits as numbers. -/
theorem lrScFieldsAreTheWordsBits : Obligations.LrScFieldsAreTheWordsBits := by
  intro x w rd rs1 rs2 aq rl
  constructor
  · rintro (h | h)
    all_goals
      obtain ⟨-, -, rfl, rfl, rfl, rfl⟩ := decodeWord_ok h
      exact ⟨fieldRd_val w, fieldRs1_val w, fieldAq_eq_testBit w, fieldRl_eq_testBit w⟩
  · rintro (h | h)
    all_goals
      obtain ⟨-, -, rfl, rfl, rfl, rfl, rfl⟩ := decodeWord_ok h
      exact ⟨fieldRd_val w, fieldRs1_val w, fieldRs2_val w, fieldAq_eq_testBit w, fieldRl_eq_testBit w⟩

/-! ### The bits a mask fixes (R61, R63, R64) -/

/-- Where a mask is all ones over a field, the masked word fixes the field. -/
theorem extractLsb'_of_and_eq {w mask pattern : InstrWord} (h : w &&& mask = pattern) (k n : Nat)
    (hones : mask.extractLsb' k n = BitVec.allOnes n) : w.extractLsb' k n = pattern.extractLsb' k n := by
  rw [← h, BitVec.extractLsb'_and, hones, BitVec.and_allOnes]

theorem isLrScSpace_iff_extractLsb' (w : InstrWord) :
    isLrScSpace w = true ↔ w.extractLsb' 0 7 = 0b0101111#7 ∧ w.extractLsb' 28 4 = 0b0001#4 := by
  rw [isLrScSpace, beq_iff_eq]
  constructor
  · intro h
    exact ⟨extractLsb'_of_and_eq h 0 7 (by decide), extractLsb'_of_and_eq h 28 4 (by decide)⟩
  · rintro ⟨hopcode, hfunct⟩
    have hw : w.extractLsb' 28 4 ++ (w.extractLsb' 7 21 ++ w.extractLsb' 0 7) = w := by
      rw [BitVec.extractLsb'_append_extractLsb'_eq_extractLsb' (show 7 = 0 + 7 from rfl),
        BitVec.extractLsb'_append_extractLsb'_eq_extractLsb' (show 28 = 0 + (21 + 7) from rfl)]
      exact BitVec.extractLsb'_eq_self
    have hmask : (0xF000007F : InstrWord) = 0xF#4 ++ (0#21 ++ 0x7F#7) := by decide
    rw [← hw, hopcode, hfunct, hmask, BitVec.and_append, BitVec.and_append, BitVec.and_zero]
    decide

/-- The LR/SC space is the AMO opcode with the funct5 of LR or of SC (R57, R58). -/
theorem isLrScSpace_iff (w : InstrWord) : isLrScSpace w = true ↔
    w.toNat % 2 ^ 7 = 0b0101111 ∧ (w.toNat / 2 ^ 27 = 0b00010 ∨ w.toNat / 2 ^ 27 = 0b00011) := by
  have hlt := w.isLt
  rw [isLrScSpace_iff_extractLsb', ← BitVec.toNat_inj, ← BitVec.toNat_inj, extractLsb'_toNat_div, extractLsb'_toNat_div]
  simp only [BitVec.toNat_ofNat]
  omega

/-- A word whose bits in a field the row's mask fixes are not the pattern's is not of the row. -/
theorem OpcodeRow.hits_false_of_field {r : OpcodeRow} {w : InstrWord} (k n : Nat)
    (hones : r.mask.extractLsb' k n = BitVec.allOnes n)
    (hne : w.toNat / 2 ^ k % 2 ^ n ≠ (r.pattern.extractLsb' k n).toNat) : r.hits w = false := by
  rw [Bool.eq_false_iff]
  intro h
  apply hne
  rw [← extractLsb'_toNat_div, extractLsb'_of_and_eq ((r.hits_iff w).mp h) k n hones]

/-- The opcode keeps a reserved word off the rows of ADDI, BNE and JALR, and one of funct5, rs2 and funct3 off each row of LR
and SC (R63, R64). -/
theorem no_row_of_reserved {w : InstrWord} (hopcode : w.toNat % 2 ^ 7 = 0b0101111)
    (hreserved : (w.toNat / 2 ^ 27 = 0b00010 ∧ w.toNat / 2 ^ 20 % 32 ≠ 0) ∨
      (w.toNat / 2 ^ 12 % 8 ≠ 0b010 ∧ w.toNat / 2 ^ 12 % 8 ≠ 0b011)) : ∀ r ∈ opcodeTable, r.hits w = false := by
  have hlow : w.toNat / 2 ^ 0 % 2 ^ 7 = 0b0101111 := by rw [Nat.pow_zero, Nat.div_one, hopcode]
  have haddi : rowAddi.hits w = false := OpcodeRow.hits_false_of_field 0 7 (by decide) (by rw [hlow]; decide)
  have hbne : rowBne.hits w = false := OpcodeRow.hits_false_of_field 0 7 (by decide) (by rw [hlow]; decide)
  have hjalr : rowJalr.hits w = false := OpcodeRow.hits_false_of_field 0 7 (by decide) (by rw [hlow]; decide)
  simp only [opcodeTable, List.forall_mem_cons, haddi, hbne, hjalr]
  rcases hreserved with ⟨hfunct5, hrs2⟩ | ⟨hword, hdouble⟩
  · have hnotSc : w.toNat / 2 ^ 27 % 2 ^ 5 ≠ 0b00011 := by rw [hfunct5]; decide
    exact ⟨OpcodeRow.hits_false_of_field 20 5 (by decide) hrs2, OpcodeRow.hits_false_of_field 20 5 (by decide) hrs2,
      OpcodeRow.hits_false_of_field 27 5 (by decide) hnotSc, OpcodeRow.hits_false_of_field 27 5 (by decide) hnotSc,
      by simp⟩
  · exact ⟨OpcodeRow.hits_false_of_field 12 3 (by decide) hword, OpcodeRow.hits_false_of_field 12 3 (by decide) hdouble,
      OpcodeRow.hits_false_of_field 12 3 (by decide) hword, OpcodeRow.hits_false_of_field 12 3 (by decide) hdouble,
      by simp⟩

end Sys2Proof

namespace Sys2Proof.Machine

/-! ### Words that fault and words that are refused (R63 to R66, R115) -/

theorem fetchedOf_of_illegal {x : Xlen} {w v : InstrWord} (h : decodeWord x w = .error (.illegal v)) :
    fetchedOf x w = .fault (.illegalInstruction v) := by
  simp [fetchedOf, h]

theorem fetchedOf_of_notInScope {x : Xlen} {w v : InstrWord} (h : decodeWord x w = .error (.notInScope v)) :
    fetchedOf x w = .refused (.notInScope v) := by
  simp [fetchedOf, h]

/-- Settles O5: such a word is of no row and in the LR/SC space. -/
theorem reservedLrScWordsAreIllegal : Obligations.ReservedLrScWordsAreIllegal := by
  intro x w hopcode hreserved
  have hrows : ∀ r ∈ opcodeTable, r.hits w = false := no_row_of_reserved hopcode (hreserved.imp_right And.right)
  have hspace : isLrScSpace w = true :=
    (isLrScSpace_iff w).mpr ⟨hopcode, hreserved.elim (fun h => .inl h.1) And.left⟩
  have hdecode : decodeWord x w = .error (.illegal w) := (decodeWord_of_no_row x hrows).trans (if_pos hspace)
  exact ⟨hdecode, fetchedOf_of_illegal hdecode⟩

/-- Settles O7: the decoder tells a word of no row by the LR/SC space. -/
theorem everyOtherWordIsRefused : Obligations.EveryOtherWordIsRefused := by
  intro x w hrows hspace
  have hmiss : ∀ r ∈ opcodeTable, r.hits w = false := fun r hr => beq_eq_false_iff_ne.mpr (hrows r hr)
  have hdecode : decodeWord x w = .error (.notInScope w) :=
    (decodeWord_of_no_row x hmiss).trans (if_neg (hspace ∘ (isLrScSpace_iff w).mp))
  exact ⟨hdecode, fetchedOf_of_notInScope hdecode⟩

section
variable (s : State) (rd rs2 rs1 : Reg) (aq rl : Bool)

theorem exec_lrD_of_rv32 (h : s.xlen = .rv32) : exec (.lrD rd rs1 aq rl) s =
    .fault (.illegalInstruction (encode (.lrD rd rs1 aq rl))) := by
  simp [exec, execLrD, h, State.raise]

theorem exec_scD_of_rv32 (h : s.xlen = .rv32) : exec (.scD rd rs2 rs1 aq rl) s =
    .fault (.illegalInstruction (encode (.scD rd rs2 rs1 aq rl))) := by
  simp [exec, execScD, h, State.raise]

end

/-- Settles O6: a fetched word is illegal by its row, and a decoded instruction by the width its meaning asks for. -/
theorem doublewordFormsAreIllegalOn32Bits : Obligations.DoublewordFormsAreIllegalOn32Bits := by
  refine ⟨fun w h => fetchedOf_of_illegal ?_, fun s rd rs2 rs1 aq rl hx =>
    ⟨exec_lrD_of_rv32 s rd rs1 aq rl hx, exec_scD_of_rv32 s rd rs2 rs1 aq rl hx⟩⟩
  rcases h with h | h
  · exact decodeWord_of_rowLrD .rv32 ((rowLrD.hits_iff w).mpr h)
  · exact decodeWord_of_rowScD .rv32 ((rowScD.hits_iff w).mpr h)

/-- Settles O8: the decoder run on the seven words. -/
theorem wordsOfTheSpecDecode : Obligations.WordsOfTheSpecDecode := by
  unfold Obligations.WordsOfTheSpecDecode
  decide

end Sys2Proof.Machine
end

section
/-! SUPPORT. The obligations on LR and SC (40_lrsc.md): which reservations stand and which SC they let succeed, what LR and SC do
once their checks hold, whose stores and writes take a reservation, and that no update is lost. -/

namespace Sys2Proof.Machine

/-! ### Reservations in a history (R75, R76, R90) -/

/-- The event is neither a foreign store to the set of hart `h`'s reservation nor a device's write to its LR's bytes (R90). -/
def Event.spares (e : Event) (h : Nat) (r : Reservation) : Prop :=
  e.foreignStoreTo h r.set = false ∧ e.deviceWriteTo r.lrAddr r.lrSize = false

/-- At the end of the history the reservation is that of hart `h`'s latest LR, and every event since has spared it. -/
def Reservation.stands (r : Reservation) (hist : List Event) (h : Nat) : Prop :=
  ∃ i, latestLr hist i hist.length h r.lrAddr r.lrSize r.set ∧ ∀ k e, i < k → hist[k]? = some e → e.spares h r

/-- Hart number `h` holds the reservation. -/
def State.holdsRes (s : State) (h : Nat) (r : Reservation) : Prop := ∃ u, s.harts[h]? = some u ∧ u.res = some r

theorem State.reservationsStand_iff (s : State) :
    s.reservationsStand ↔ ∀ h r, s.holdsRes h r → r.stands s.hist h :=
  ⟨fun hs h r ⟨u, hu, hr⟩ => hs h u r hu hr, fun hs h u r hu hr => hs h r ⟨u, hu, hr⟩⟩

/-- The place of an event of a history that has gone on by one event. -/
theorem getElem?_concat_cases {hist : List Event} {e f : Event} {k : Nat} (h : (hist ++ [e])[k]? = some f) :
    (k < hist.length ∧ hist[k]? = some f) ∨ (k = hist.length ∧ f = e) := by
  rcases Nat.lt_or_ge k hist.length with hlt | hge
  · rw [List.getElem?_append_left hlt] at h
    exact .inl ⟨hlt, h⟩
  · rw [List.getElem?_append_right hge, List.getElem?_singleton] at h
    split at h
    · exact .inr ⟨by omega, (Option.some.inj h).symm⟩
    · cases h

/-- The latest LR before a place of a history does not depend on what follows the place. -/
theorem latestLr_append {hist : List Event} {i j h a n : Nat} {set : List ByteRange} (hj : j ≤ hist.length)
    (hlr : latestLr hist i j h a n set) (later : List Event) : latestLr (hist ++ later) i j h a n set := by
  obtain ⟨⟨aq, rl, bytes, hi⟩, hij, hnone⟩ := hlr
  refine ⟨⟨aq, rl, bytes, ?_⟩, hij, fun k e hik hkj hk => hnone k e hik hkj ?_⟩
  · rwa [List.getElem?_append_left (hij.trans_le hj)]
  · rwa [List.getElem?_append_left (hkj.trans_le hj)] at hk

/-- The event registers the reservation for hart `h`: it is its LR (R74). -/
def Event.registers (e : Event) (h : Nat) (r : Reservation) : Prop :=
  ∃ aq rl bytes, e = .lr h r.lrAddr r.lrSize aq rl bytes r.set

theorem Reservation.stands_of_registers {r : Reservation} {e : Event} {h : Nat} (he : e.registers h r)
    (hist : List Event) : r.stands (hist ++ [e]) h := by
  obtain ⟨aq, rl, bytes, rfl⟩ := he
  refine ⟨hist.length, ⟨⟨aq, rl, bytes, List.getElem?_concat_length⟩, by simp, fun k f hk hlt _ => ?_⟩, fun k f hk hf => ?_⟩
  · rw [List.length_append, List.length_singleton] at hlt
    omega
  · rcases getElem?_concat_cases hf with ⟨hlt, -⟩ | ⟨rfl, -⟩ <;> omega

/-- A standing reservation stands past an event that spares it and is no LR or SC of its hart. -/
theorem Reservation.stands_concat {r : Reservation} {hist : List Event} {e : Event} {h : Nat} (hr : r.stands hist h)
    (hother : e.lrScOf h = false) (hspares : e.spares h r) : r.stands (hist ++ [e]) h := by
  obtain ⟨i, ⟨⟨aq, rl, bytes, hi⟩, hlt, hnone⟩, hspared⟩ := hr
  refine ⟨i, ⟨⟨aq, rl, bytes, ?_⟩, List.length_append ▸ Nat.lt_add_right _ hlt, fun k f hik _ hf => ?_⟩, fun k f hik hf => ?_⟩
  · rwa [List.getElem?_append_left hlt]
  · rcases getElem?_concat_cases hf with ⟨hk, hf⟩ | ⟨-, rfl⟩
    · exact hnone k f hik hk hf
    · exact hother
  · rcases getElem?_concat_cases hf with ⟨-, hf⟩ | ⟨-, rfl⟩
    · exact hspared k f hik hf
    · exact hspares

/-- The reservations held let the event happen: an SC that succeeds does so on one whose set holds its bytes, and an SC that fails
writes nothing (R75). -/
def State.grants (s : State) : Event → Prop
  | .sc h a n _ _ true _ => ∃ r, s.holdsRes h r ∧ coversBytes r.set a n = true
  | .sc _ _ _ _ _ false bytes => bytes = []
  | .lr _ _ _ _ _ _ _ => True
  | .deviceWrite _ _ _ => True

/-- Where the reservations held stand, a successful SC they grant is justified. -/
theorem scJustified_concat {s : State} {e : Event} (hs : s.reservationsStand)
    (hjust : scJustified s.hist (Witness.inOrder s.hist)) (hgrants : s.grants e) :
    scJustified (s.hist ++ [e]) (Witness.inOrder (s.hist ++ [e])) := by
  intro j h a n aq rl bytes hj
  rcases getElem?_concat_cases hj with ⟨hlt, hj⟩ | ⟨rfl, rfl⟩
  · obtain ⟨i, la, ln, set, hlr, hcovers, hclear⟩ := hjust j h a n aq rl bytes hj
    refine ⟨i, la, ln, set, latestLr_append hlt.le hlr [e], hcovers, fun k f hf ⟨g, hik, hkj⟩ => hclear k f ?_ ⟨g, hik, hkj⟩⟩
    rwa [List.getElem?_append_left (Nat.lt_trans hkj hlt)] at hf
  · obtain ⟨r, hr, hcovers⟩ := hgrants
    obtain ⟨i, hlr, hspared⟩ := s.reservationsStand_iff.mp hs h r hr
    refine ⟨i, r.lrAddr, r.lrSize, r.set, latestLr_append le_rfl hlr _, hcovers, fun k f hf ⟨g, hik, hkj⟩ => ?_⟩
    rw [List.getElem?_append_left hkj] at hf
    exact hspared k f hik hf

/-! ### What a step makes of the reservations -/

/-- A reservation held in `t` is one that the event registers, or it was held in `s` and the event leaves it: the event is no LR or
SC of its hart and, where writes are performed one at a time, spares it (R90). -/
def State.leftBy (s t : State) (e : Event) : Prop :=
  ∀ h r, t.holdsRes h r → e.registers h r ∨
    (s.holdsRes h r ∧ e.lrScOf h = false ∧ (s.params.memOrder = .interleaved → e.spares h r))

/-- Going from `s` to `t` records nothing and registers no reservation, or it records one event: the reservations of `s` grant it,
and those of `t` are what it leaves. -/
def State.handsOnRes (s t : State) : Prop :=
  (t.hist = s.hist ∧ ∀ h r, t.holdsRes h r → s.holdsRes h r) ∨
    ∃ e, t.hist = s.hist ++ [e] ∧ s.grants e ∧ s.leftBy t e

theorem State.holdsRes_self (s : State) (r : Reservation) : s.holdsRes s.self r ↔ s.hart.res = some r := by
  simp [State.holdsRes, s.harts_self]

theorem State.self_of_sameOthers {s t : State} (h : sameOthers s t) : t.self = s.self := congrArg List.length h.1

/-- Where the other harts are as before, so are their reservations. -/
theorem State.holdsRes_of_sameOthers {s t : State} (hothers : sameOthers s t) {h : Nat} {r : Reservation} (hne : h ≠ s.self)
    (hr : t.holdsRes h r) : s.holdsRes h r := by
  obtain ⟨u, hu, hr⟩ := hr
  exact ⟨u, (State.harts_ne hothers.1 hothers.2 hne).symm.trans hu, hr⟩

/-- Where no hart's reservation is new, none is held that was not. -/
theorem State.holdsRes_of_same {s t : State} (hothers : sameOthers s t) (hres : t.hart.res = s.hart.res) {h : Nat}
    {r : Reservation} (hr : t.holdsRes h r) : s.holdsRes h r := by
  by_cases hself : h = s.self
  · subst hself
    rw [s.holdsRes_self, ← hres]
    rwa [← State.self_of_sameOthers hothers, t.holdsRes_self] at hr
  · exact State.holdsRes_of_sameOthers hothers hself hr

/-- Where `f` has been done to every other hart, it has been done to every hart of another number than the one that moves. -/
theorem State.harts_map_ne {s t : State} {f : Hart → Hart} (hbefore : t.before = s.before.map f)
    (hafter : t.after = s.after.map f) {k : Nat} (hk : k ≠ s.self) : t.harts[k]? = s.harts[k]?.map f := by
  let u : State := { s with before := s.before.map f, hart := f s.hart, after := s.after.map f }
  have huharts : u.harts = s.harts.map f := by simp [u, State.harts]
  have huself : u.self = s.self := List.length_map f
  rw [State.harts_ne (s := u) hbefore hafter (huself ▸ hk), huharts, List.getElem?_map]

/-- Of another hart than the one that stores a reservation is still held only if it was, and the store missed its set. -/
theorem State.holdsRes_store {s : State} {a h : Nat} {bytes : List Byte} {r : Reservation} (hne : h ≠ s.self)
    (hr : (s.store a bytes).holdsRes h r) : s.holdsRes h r ∧
      (s.params.memOrder = .interleaved → meetsBytes r.set a bytes.length = false) := by
  cases ho : s.params.memOrder with
  | judged =>
    have hothers : sameOthers s (s.store a bytes) := by simp [sameOthers, State.store, ho]
    exact ⟨State.holdsRes_of_sameOthers hothers hne hr, fun h => by cases h⟩
  | interleaved =>
    obtain ⟨v, hv, hr⟩ := hr
    rw [State.harts_map_ne (s.store_before a bytes ho) (s.store_after a bytes ho) hne, Option.map_eq_some_iff] at hv
    obtain ⟨u, hu, rfl⟩ := hv
    obtain ⟨hres, hmiss⟩ := Hart.afterForeignStore_res hr
    exact ⟨⟨u, hu, hres⟩, fun _ => hmiss⟩

/-- A list of harts after a device's write, taken in two parts. -/
theorem afterDeviceWriteFrom_append (a n : Nat) (loses : List Nat) (k : Nat) (ts us : List Hart) :
    afterDeviceWriteFrom a n loses k (ts ++ us) =
      afterDeviceWriteFrom a n loses k ts ++ afterDeviceWriteFrom a n loses (k + ts.length) us := by
  induction ts generalizing k with
  | nil => rfl
  | cons t rest ih =>
    rw [List.cons_append, afterDeviceWriteFrom, ih, afterDeviceWriteFrom, List.cons_append, List.length_cons,
      show k + 1 + rest.length = k + (rest.length + 1) by omega]

/-- Where writes are performed one at a time, a device's write does to each hart what R90 says. -/
theorem State.deviceStore_harts {s : State} (d a : Nat) (bytes : List Byte) (loses : List Nat)
    (ho : s.params.memOrder = .interleaved) :
    (s.deviceStore d a bytes loses).harts = afterDeviceWriteFrom a bytes.length loses 0 s.harts := by
  simp [State.harts, State.deviceStore, ho, afterDeviceWriteFrom_append, afterDeviceWriteFrom, State.self]

/-- A reservation is still held after a device's write only if it was, and the write missed the LR's bytes. -/
theorem State.holdsRes_deviceStore {s : State} {d a h : Nat} {bytes : List Byte} {loses : List Nat} {r : Reservation}
    (hr : (s.deviceStore d a bytes loses).holdsRes h r) : s.holdsRes h r ∧
      (s.params.memOrder = .interleaved → meetsBytes [⟨r.lrAddr, r.lrSize⟩] a bytes.length = false) := by
  cases ho : s.params.memOrder with
  | judged =>
    have hharts : (s.deviceStore d a bytes loses).harts = s.harts := by simp [State.deviceStore, ho, State.harts]
    rw [State.holdsRes, hharts] at hr
    exact ⟨hr, fun h => by cases h⟩
  | interleaved =>
    obtain ⟨v, hv, hr⟩ := hr
    rw [State.deviceStore_harts d a bytes loses ho, afterDeviceWriteFrom_getElem?, Option.map_eq_some_iff] at hv
    obtain ⟨u, hu, rfl⟩ := hv
    obtain ⟨hres, hmiss⟩ := Hart.afterDeviceWrite_res hr
    exact ⟨⟨u, hu, hres⟩, fun _ => hmiss⟩

@[simp] theorem State.lrDone_hist (s : State) (n : Nat) (a : Word) (rd : Reg) (aq rl : Bool) :
    (s.lrDone n a rd aq rl).hist = s.hist ++
      [.lr s.self a.toNat n aq rl (s.lrBytes a.toNat n) (s.newReservation a.toNat n).set] := by
  simp [State.lrDone]

/-- An LR registers its reservation and leaves those of the other harts. -/
theorem State.lrDone_handsOnRes (s : State) (n : Nat) (a : Word) (rd : Reg) (aq rl : Bool) :
    s.handsOnRes (s.lrDone n a rd aq rl) := by
  obtain ⟨-, -, hothers, -⟩ := s.lrDone_frame n a rd aq rl
  refine .inr ⟨_, s.lrDone_hist n a rd aq rl, trivial, fun h r hr => ?_⟩
  by_cases hself : h = s.self
  · subst hself
    rw [← State.self_of_sameOthers hothers, State.holdsRes_self, State.lrDone_res] at hr
    cases hr
    exact .inl ⟨aq, rl, _, rfl⟩
  · exact .inr ⟨State.holdsRes_of_sameOthers hothers hself hr, beq_eq_false_iff_ne.mpr (Ne.symm hself), fun _ => ⟨rfl, rfl⟩⟩

/-- After an SC, successful or not, the hart that moves holds no reservation (R83). -/
theorem State.scDone_res (s : State) (n : Nat) (a : Word) (rd rs2 : Reg) (aq rl : Bool) :
    (s.scDone n a rd rs2 aq rl).hart.res = none := rfl

/-- The event of an SC says whether it succeeded, and holds the bytes stored if so (R23). -/
theorem State.scDone_hist (s : State) (n : Nat) (a : Word) (rd rs2 : Reg) (aq rl : Bool) :
    (s.scDone n a rd rs2 aq rl).hist = s.hist ++ [.sc s.self a.toNat n aq rl (s.scSucceeds a.toNat n)
      (if s.scSucceeds a.toNat n then s.storedBytes n rs2 else [])] := by
  unfold State.scDone
  split <;> simp_all

theorem State.scDone_self (s : State) (n : Nat) (a : Word) (rd rs2 : Reg) (aq rl : Bool) :
    (s.scDone n a rd rs2 aq rl).self = s.self := by
  simp only [State.scDone]
  split <;> simp

/-- An SC clears its hart's reservation; where it succeeds it has one that holds its bytes, and it takes those of the other harts
that its store meets (R75, R83, R90). -/
theorem State.scDone_handsOnRes (s : State) (n : Nat) (a : Word) (rd rs2 : Reg) (aq rl : Bool) :
    s.handsOnRes (s.scDone n a rd rs2 aq rl) := by
  have hne : ∀ {h r}, (s.scDone n a rd rs2 aq rl).holdsRes h r → h ≠ s.self := by
    rintro h r hr rfl
    rw [← s.scDone_self n a rd rs2 aq rl, State.holdsRes_self, State.scDone_res] at hr
    cases hr
  have hhist := s.scDone_hist n a rd rs2 aq rl
  cases hok : s.scSucceeds a.toNat n with
  | false =>
    obtain ⟨-, hothers⟩ := State.scDone_frame_of_failure rd rs2 aq rl hok
    rw [hok] at hhist
    refine .inr ⟨_, hhist, rfl, fun h r hr => .inr ⟨State.holdsRes_of_sameOthers hothers (hne hr) hr, ?_, fun _ => ?_⟩⟩
    · exact beq_eq_false_iff_ne.mpr (hne hr).symm
    · simp [Event.spares, Event.foreignStoreTo, Event.deviceWriteTo]
  | true =>
    obtain ⟨⟨r, hres, hcovers⟩, -⟩ := (s.scSucceeds_iff a.toNat n).mp hok
    rw [hok] at hhist
    refine .inr ⟨_, hhist, ⟨r, (s.holdsRes_self r).mpr hres, coversBytes_iff.mpr hcovers⟩, fun h r hr => .inr ?_⟩
    have hself := hne hr
    rw [State.scDone_of_success _ _ _ _ hok] at hr
    obtain ⟨hheld, hmiss⟩ := State.holdsRes_store (a := a.toNat) (bytes := s.storedBytes n rs2) hself
      (State.holdsRes_of_sameOthers (by simp [sameOthers]) (by simpa using hself) hr)
    refine ⟨hheld, beq_eq_false_iff_ne.mpr hself.symm, fun ho => ⟨?_, rfl⟩⟩
    have := hmiss ho
    rw [State.storedBytes, leBytes_length] at this
    simp [Event.foreignStoreTo, this]

/-- What a completed instruction makes of the reservations: one that is no LR or SC records nothing and registers none. -/
theorem exec_handsOnRes {i : Instr} {s t : State} (h : exec i s = .next t) : s.handsOnRes t := by
  rcases exec_next_cases h with ⟨n, a, rd, aq, rl, -, -, rfl⟩ | ⟨n, a, rd, rs2, aq, rl, -, -, rfl⟩ | ⟨rd, v, rfl⟩ |
    ⟨p, -, rfl⟩ | rfl | ⟨rd, v, p, -, rfl⟩
  · exact s.lrDone_handsOnRes n a rd aq rl
  · exact s.scDone_handsOnRes n a rd rs2 aq rl
  all_goals exact .inl ⟨by simp, fun h r => State.holdsRes_of_same (by simp [sameOthers]) (by simp)⟩

/-- A device's write takes the reservations whose LR's bytes it meets (R81, R90). -/
theorem State.deviceStep_handsOnRes (s : State) (d : Nat) : s.handsOnRes (s.deviceStep d) := by
  rcases s.deviceStep_cases d with he | ⟨a, bytes, loses, -, he⟩ <;> rw [he]
  · exact .inl ⟨rfl, fun _ _ hr => hr⟩
  · obtain ⟨-, -, hhist⟩ := s.deviceStore_other d a bytes loses
    refine .inr ⟨_, hhist, trivial, fun h r hr => .inr ?_⟩
    obtain ⟨hheld, hmiss⟩ := State.holdsRes_deviceStore hr
    exact ⟨hheld, rfl, fun ho => ⟨rfl, hmiss ho⟩⟩

theorem State.endStep_handsOnRes {s t : State} (h : s.handsOnRes t) : s.handsOnRes t.endStep := by
  simpa [State.handsOnRes, State.leftBy, State.holdsRes] using h

/-- A reservation held after a fault was held before it (R72). -/
theorem State.holdsRes_of_kept {s : State} {f : Fault} {h : Nat} {r : Reservation} (hr : (s.kept f).holdsRes h r) :
    s.holdsRes h r := by
  by_cases hself : h = s.self
  · subst hself
    rw [← s.kept_self f, State.holdsRes_self] at hr
    simp only [State.kept] at hr
    split at hr
    · cases hr
    · exact (s.holdsRes_self r).mpr hr
  · exact State.holdsRes_of_sameOthers (s := s) (t := s.kept f) ⟨rfl, rfl⟩ hself hr

/-- What one step of the whole machine makes of the reservations, past a fault or a refusal too. -/
theorem advance_handsOnRes (s : State) : s.handsOnRes (advance s) := by
  rcases advance_cases s with ⟨_, _, i, t, -, -, -, -, hexec, -, ha⟩ |
    ⟨-, ⟨f, -, -, ha⟩ | ⟨q, -, -, ha⟩ | ⟨-, -, ha⟩ | ⟨d, -, ha⟩⟩ <;> rw [ha] <;> apply State.endStep_handsOnRes
  · exact exec_handsOnRes hexec
  · exact .inl ⟨rfl, fun _ _ => State.holdsRes_of_kept⟩
  · exact .inl ⟨rfl, fun _ _ => State.holdsRes_of_same (s := s) (t := s.keptRefused q) ⟨rfl, rfl⟩ rfl⟩
  · exact .inl ⟨rfl, fun _ _ hr => hr⟩
  · exact s.deviceStep_handsOnRes d

theorem step_handsOnRes {s t : State} (h : step s = .next t) : s.handsOnRes t := by
  have ht : advance s = t := by simp [advance, h]
  exact ht ▸ advance_handsOnRes s

/-- Settles O49: a step's event registers or spares each reservation held after it, and a successful SC has one that stood. -/
theorem stepKeepsEverySuccessfulScJustified : Obligations.StepKeepsEverySuccessfulScJustified := by
  intro s t ho hs hjust h
  have hstand := s.reservationsStand_iff.mp hs
  rw [State.reservationsStand_iff]
  rcases step_handsOnRes h with ⟨hhist, hheld⟩ | ⟨e, hhist, hgrants, hleft⟩ <;> rw [hhist]
  · exact ⟨fun h r hr => hstand h r (hheld h r hr), hjust⟩
  · refine ⟨fun h r hr => ?_, scJustified_concat hs hjust hgrants⟩
    rcases hleft h r hr with hreg | ⟨hheld, hother, hspares⟩
    · exact Reservation.stands_of_registers hreg s.hist
    · exact Reservation.stands_concat (hstand h r hheld) hother (hspares ho)

/-! ### A second SC fails (R76 item 4, R83) -/

/-- A step that records an event adds that event only. -/
theorem Execution.added_of_hist {r : Execution} {n : Nat} {es : List Event}
    (h : (r.state (n + 1)).hist = (r.state n).hist ++ es) : r.added n = es := by
  rw [Execution.added, h, List.drop_left]

theorem Execution.handsOnRes {r : Execution} (hv : r.valid) (n : Nat) : (r.state n).handsOnRes (r.state (n + 1)) :=
  (hv n).symm ▸ advance_handsOnRes (r.moment n)

/-- The reservations after a step of an execution that records an event are what the event leaves, and those before it grant
it. -/
theorem Execution.event_of_added {r : Execution} (hv : r.valid) {n : Nat} {e : Event} (he : e ∈ r.added n) :
    (r.state n).grants e ∧ (r.state n).leftBy (r.state (n + 1)) e := by
  rcases Execution.handsOnRes hv n with ⟨hhist, -⟩ | ⟨f, hhist, hgrants, hleft⟩
  · rw [Execution.added, hhist, List.drop_length] at he
    cases he
  · rw [Execution.added_of_hist hhist, List.mem_singleton] at he
    exact he ▸ ⟨hgrants, hleft⟩

/-- A hart without a reservation has none after a step that is no LR of it. -/
theorem Execution.not_holdsRes_succ {r : Execution} (hv : r.valid) {n h : Nat}
    (hlr : ∀ a k aq rl bytes set, Event.lr h a k aq rl bytes set ∉ r.added n)
    (hnone : ∀ q, ¬ (r.state n).holdsRes h q) (q : Reservation) : ¬ (r.state (n + 1)).holdsRes h q := by
  intro hq
  rcases Execution.handsOnRes hv n with ⟨-, hheld⟩ | ⟨e, hhist, -, hleft⟩
  · exact hnone q (hheld h q hq)
  · rcases hleft h q hq with ⟨aq, rl, bytes, rfl⟩ | ⟨hheld, -⟩
    · exact hlr _ _ _ _ _ _ (by rw [Execution.added_of_hist hhist]; exact List.mem_singleton_self _)
    · exact hnone q hheld

/-- From an SC of a hart on the hart holds no reservation until its next LR. -/
theorem Execution.not_holdsRes_after_sc {r : Execution} (hv : r.valid) {n h a size : Nat} {aq rl ok : Bool}
    {bytes : List Byte} (hsc : Event.sc h a size aq rl ok bytes ∈ r.added n) (k : Nat)
    (hlr : ∀ i, n < i → i < n + 1 + k → ∀ a k aq rl bytes set, Event.lr h a k aq rl bytes set ∉ r.added i)
    (q : Reservation) : ¬ (r.state (n + 1 + k)).holdsRes h q := by
  induction k generalizing q with
  | zero =>
    intro hq
    obtain ⟨-, hleft⟩ := Execution.event_of_added hv hsc
    rcases hleft h q hq with ⟨_, _, _, he⟩ | ⟨-, hother, -⟩
    · cases he
    · simp [Event.lrScOf] at hother
  | succ k ih =>
    exact Execution.not_holdsRes_succ hv (hlr (n + 1 + k) (by omega) (by omega))
      (ih fun i hi hik => hlr i hi (by omega)) q

/-- An SC that the hart's lack of a reservation grants has failed and written nothing. -/
theorem State.grants_sc_of_not_holdsRes {s : State} {h a n : Nat} {aq rl ok : Bool} {bytes : List Byte}
    (hgrants : s.grants (.sc h a n aq rl ok bytes)) (hnone : ∀ q, ¬ s.holdsRes h q) : ok = false ∧ bytes = [] := by
  cases ok with
  | false => exact ⟨rfl, hgrants⟩
  | true =>
    obtain ⟨q, hq, -⟩ := hgrants
    exact absurd hq (hnone q)

/-! ### What a failed SC leaves (R77, R79) -/

theorem State.scDone_readReg_of_failure {s : State} {n : Nat} {a : Word} {rd : Reg} (rs2 : Reg) (aq rl : Bool)
    (hrd : rd ≠ 0) (h : s.scSucceeds a.toNat n = false) :
    (s.scDone n a rd rs2 aq rl).readReg rd = truncTo s.xlen (s.failureCode n) := by
  rw [State.scDone_of_failure _ _ _ _ h]
  simp [hrd]

/-- A failed SC changes no memory and leaves a nonzero code. -/
theorem State.scDone_result_of_failure {s : State} {n : Nat} {a : Word} (rd rs2 : Reg) (aq rl : Bool)
    (hn : n = 4 ∨ s.xlen = .rv64) (h : s.scSucceeds a.toNat n = false) :
    sameMem s (s.scDone n a rd rs2 aq rl) ∧ (rd ≠ 0 → (s.scDone n a rd rs2 aq rl).readReg rd ≠ 0) := by
  obtain ⟨hmem, -⟩ := State.scDone_frame_of_failure rd rs2 aq rl h
  refine ⟨hmem, fun hrd => ?_⟩
  rw [State.scDone_readReg_of_failure rs2 aq rl hrd h]
  exact s.failureCode_ne_zero hn

/-- An SC of a hart without a reservation fails, whatever its address, its size and the draw. -/
theorem State.scSucceeds_of_res_none {s : State} (h : s.hart.res = none) (a n : Nat) : s.scSucceeds a n = false := by
  simp [State.scSucceeds, State.maySucceed, h]

/-- The state that a completed SC of either size leaves. -/
theorem exec_sc_next {s t : State} {rd rs2 rs1 : Reg} {aq rl : Bool}
    (h : exec (.scW rd rs2 rs1 aq rl) s = .next t ∨ exec (.scD rd rs2 rs1 aq rl) s = .next t) :
    ∃ n, (n = 4 ∨ s.xlen = .rv64) ∧ t = s.scDone n (s.readReg rs1) rd rs2 aq rl := by
  rcases h with h | h
  · exact ⟨4, .inl rfl, (exec_scW_next h).2⟩
  · obtain ⟨hx, -, ht⟩ := exec_scD_next h
    exact ⟨8, .inr hx, ht⟩

/-- Settles O22: the last but one of an SC's writes clears the reservation. -/
theorem everyScClearsTheReservation : Obligations.EveryScClearsTheReservation := by
  intro s t rd rs2 rs1 aq rl h
  obtain ⟨n, -, rfl⟩ := exec_sc_next h
  exact s.scDone_res n _ rd rs2 aq rl

/-- Settles O25: the first SC leaves no reservation, and only an LR registers one. -/
theorem secondScFails : Obligations.SecondScFails := by
  constructor
  · intro s t u rd rs2 rs1 rd' rs2' rs1' aq rl aq' rl' later h h'
    have hres : t.hart.res = none := everyScClearsTheReservation s t rd rs2 rs1 aq rl h
    obtain ⟨n, hn, rfl⟩ := exec_sc_next h'
    exact State.scDone_result_of_failure rd' rs2' aq' rl' hn
      (State.scSucceeds_of_res_none (s := { t with script := later }) hres _ n)
  · intro r h n m a size a' size' aq rl ok aq' rl' ok' bytes bytes' hv hnm hsc hlr hsc'
    obtain ⟨k, rfl⟩ : ∃ k, m = n + 1 + k := ⟨m - (n + 1), by omega⟩
    obtain ⟨hgrants, -⟩ := Execution.event_of_added hv hsc'
    exact State.grants_sc_of_not_holdsRes hgrants (Execution.not_holdsRes_after_sc hv hsc k hlr)

/-! ### Whose reservation a store or a device's write takes (R80, R81, R90) -/

theorem meetsBytes_iff_byte {set : List ByteRange} {a n : Nat} :
    meetsBytes set a n = true ↔ ∃ b, a ≤ b ∧ b < a + n ∧ inSet set b = true := by
  rw [meetsBytes_iff]
  constructor
  · rintro ⟨k, hk, hb⟩
    exact ⟨a + k, by omega, by omega, hb⟩
  · rintro ⟨b, hlo, hhi, hb⟩
    exact ⟨b - a, by omega, by rwa [Nat.add_sub_cancel' hlo]⟩

theorem inSet_singleton_iff {lo len b : Nat} : inSet [⟨lo, len⟩] b = true ↔ lo ≤ b ∧ b < lo + len := by
  simp [inSet, inRange]

theorem Hart.afterForeignStore_res_of_some {t : Hart} {r : Reservation} (hr : t.res = some r) (a n : Nat) :
    (t.afterForeignStore a n).res = if meetsBytes r.set a n then none else some r := by
  simp only [Hart.afterForeignStore, hr, apply_ite Hart.res]

theorem Hart.afterForeignStore_of_none {t : Hart} (hr : t.res = none) (a n : Nat) : t.afterForeignStore a n = t := by
  rw [Hart.afterForeignStore, hr]

theorem Hart.afterDeviceWrite_res_of_some {t : Hart} {r : Reservation} (hr : t.res = some r) (a n : Nat) (drawn : Bool) :
    (t.afterDeviceWrite a n drawn).res =
      if meetsBytes [⟨r.lrAddr, r.lrSize⟩] a n then none
      else if meetsBytes r.set a n && drawn then none else some r := by
  simp only [Hart.afterDeviceWrite, hr, apply_ite Hart.res]

theorem Hart.afterDeviceWrite_of_none {t : Hart} (hr : t.res = none) (a n : Nat) (drawn : Bool) :
    t.afterDeviceWrite a n drawn = t := by
  rw [Hart.afterDeviceWrite, hr]

/-- Settles O23: a successful SC does to each other hart what a foreign store of its bytes does. -/
theorem scStoreTakesForeignReservations : Obligations.ScStoreTakesForeignReservations := by
  intro s t rd rs2 rs1 aq rl n ho h hok k u hu
  obtain rfl : t = s.scDone n (s.readReg rs1) rd rs2 aq rl := by
    rcases h with ⟨rfl, h⟩ | ⟨rfl, h⟩
    · exact (exec_scW_next h).2
    · exact (exec_scD_next h).2.2
  refine ⟨u.afterForeignStore (s.readReg rs1).toNat n, ?_, fun hnone => ?_, fun r hr => ?_⟩
  · rw [State.scDone_of_success _ _ _ _ hok]
    simp [ho, State.store_before, State.store_after, State.storedBytes, ← List.map_append, hu]
  · rw [Hart.afterForeignStore_of_none hnone, hnone]
  · rw [Hart.afterForeignStore_res_of_some hr, ← meetsBytes_iff_byte]
    exact ⟨fun hmeets => if_pos hmeets, fun hmiss => if_neg hmiss⟩

/-- Settles O41: a device's write does to the hart of each number what R90 says, with what is drawn for that number. -/
theorem deviceWriteTakesReservations : Obligations.DeviceWriteTakesReservations := by
  intro s d a bytes loses h u ho hu
  refine ⟨u.afterDeviceWrite a bytes.length (loses.contains h), ?_, u.afterDeviceWrite_x _ _ _, u.afterDeviceWrite_pc _ _ _,
    u.afterDeviceWrite_status _ _ _, fun hnone => ?_, fun r hr => ?_⟩
  · rw [State.deviceStore_harts d a bytes loses ho, afterDeviceWriteFrom_getElem?, hu, Nat.zero_add]
    rfl
  · rw [Hart.afterDeviceWrite_of_none hnone, hnone]
  · simp only [← inSet_singleton_iff, ← meetsBytes_iff_byte]
    rw [Hart.afterDeviceWrite_res_of_some hr]
    refine ⟨fun hmeets => if_pos hmeets, fun hmiss hset => ?_, fun hmiss hset => ?_⟩
    · simp [if_neg hmiss, hset]
    · rw [if_neg hmiss, if_neg fun hdrawn => hset (Bool.and_eq_true_iff.mp hdrawn).1]

/-! ### No update is lost (R40, R76 item 2) -/

/-- An SC of one hart whose store some observer sees before that of another hart's SC does not leave the LR of the latter a byte
older than it, if both write that byte. -/
theorem OrderItems.source_ne_of_before {hist : List Event} {w : Witness} (hitems : OrderItems hist w)
    {o h g i j i' j' a n b m a' n' b' m' x : Nat} {aq rl aq' rl' : Bool} {set set' : List ByteRange}
    {bytes bytes' : List Byte} (hhg : h ≠ g) (hlr : latestLr hist i j h a n set)
    (hj : hist[j]? = some (.sc h b m aq rl true bytes)) (hlr' : latestLr hist i' j' g a' n' set')
    (hj' : hist[j']? = some (.sc g b' m' aq' rl' true bytes')) (hjx : writesAt hist j x) (hj'x : writesAt hist j' x)
    (hx : a ≤ x ∧ x < a + n) (hxb : b ≤ x ∧ x < b + m) (hx' : a' ≤ x ∧ x < a' + n') (hxb' : b' ≤ x ∧ x < b' + m')
    (hjj' : w.before o j j') : w.source i x ≠ w.source i' x := by
  intro hsame
  have hw := hitems.observed
  obtain ⟨aq₀, rl₀, bytes₀, hi⟩ := hlr.1
  obtain ⟨aq₁, rl₁, bytes₁, hi'⟩ := hlr'.1
  obtain ⟨q, la, ln, lset, hq, hcovers, hclear⟩ := hitems.justified j' g b' m' aq' rl' bytes' hj'
  obtain ⟨rfl, -, -, rfl⟩ := latestLr_unique hlr' hq
  have hxset : inSet set' x = true := by
    have := coversBytes_iff.mp hcovers (x - b') (by omega)
    rwa [Nat.add_sub_cancel' hxb'.1] at this
  have hnot : ¬ w.before g i' j := by
    intro hi'j
    obtain ⟨hforeign, -⟩ := hclear j _ hj ⟨g, hi'j, hw.coherent o g j j' x hjx hj'x hjj'⟩
    simp [Event.foreignStoreTo, hhg, meetsBytes_iff_byte.mpr ⟨x, hxb.1, hxb.2, hxset⟩] at hforeign
  have hji' : w.before g j i' := by
    have hne : i' ≠ j := by
      rintro rfl
      rw [hi'] at hj
      cases hj
    exact (hw.total g i' j ⟨_, hi', rfl⟩ ⟨_, hj, rfl⟩ hne).resolve_left hnot
  obtain ⟨p, hp, hnewer⟩ := hw.source_of_observed hi' hx' hjx hji'
  have hpi := (hw.source i h a n aq₀ rl₀ bytes₀ set x p hi hx.1 hx.2 (hsame.trans hp)).2 g
  have hpj := hw.trans g p i j hpi (hitems.lrFirst i j h a n set b m aq rl bytes hlr hj g)
  rcases hnewer g with rfl | hjp
  · exact hw.irrefl g _ hpj
  · exact hw.asymm hpj hjp

/-- Settles O53: of the two stores one comes first, and the SC of the other is not justified past it. -/
theorem noUpdateIsLost : Obligations.NoUpdateIsLost := by
  intro hist w h g i j i' j' a n b m a' n' b' m' x aq rl aq' rl' set set' bytes bytes' hitems hhg hlr hj hlr' hj' hjx hj'x hx
    hxb hx' hxb'
  have hne : j ≠ j' := by
    rintro rfl
    rw [hj] at hj'
    cases hj'
    exact hhg rfl
  rcases hitems.observed.total 0 j j' ⟨_, hj, rfl⟩ ⟨_, hj', rfl⟩ hne with hbefore | hbefore
  · exact hitems.source_ne_of_before hhg hlr hj hlr' hj' hjx hj'x hx hxb hx' hxb' hbefore
  · exact (hitems.source_ne_of_before hhg.symm hlr' hj' hlr hj hj'x hjx hx' hxb' hx hxb hbefore).symm

/-! ### The checks of LR and SC, said of the regions and the text (R50, R73) -/

theorem State.lrscOk_iff (s : State) (a : Nat) :
    s.lrscOk a = true ↔ ∃ r ∈ s.params.regions, r.lrscOk = true ∧ r.bytes.lo ≤ a ∧ a < r.bytes.lo + r.bytes.len := by
  simp [State.lrscOk, inRange]

theorem State.accessible_iff (s : State) (a n : Nat) : s.accessible a n = true ↔ allLrsc s.params a n := by
  simp [State.accessible, State.lrscOk_iff]

/-- Bytes none of which is a byte of the text do not meet it. -/
theorem State.meetsText_of_misses {s : State} {a n : Nat} (hn : 0 < n) (h : missesText s.params a n) :
    s.meetsText a n = false := by
  rw [Bool.eq_false_iff]
  intro hmeets
  simp only [State.meetsText, List.any_eq_true, Bool.and_eq_true, decide_eq_true_eq] at hmeets
  obtain ⟨e, he, hlo, hhi⟩ := hmeets
  exact h e he (e.1 - a) (by omega) (by omega)

section
variable {s : State} {a : Word} {n : Nat} (hn : 0 < n) (halign : a.toNat % n = 0) (htext : missesText s.params a.toNat n)
include hn halign htext

theorem State.withAccess_of_outside (kind : AccessKind) (go : Host.Outcome State Fault Refusal)
    (hout : ∃ k, k < n ∧ ∀ r ∈ s.params.regions, r.lrscOk = true →
      ¬(r.bytes.lo ≤ a.toNat + k ∧ a.toNat + k < r.bytes.lo + r.bytes.len)) :
    s.withAccess kind a n go = .fault (.accessFault kind a) := by
  obtain ⟨k, hk, hout⟩ := hout
  have hacc : s.accessible a.toNat n = false := by
    rw [Bool.eq_false_iff, ne_eq, s.accessible_iff]
    intro hall
    obtain ⟨r, hr, hok, hin⟩ := hall k hk
    exact hout r hr hok hin
  simp [State.withAccess, aligned, halign, State.meetsText_of_misses hn htext, hacc, State.raise]

theorem State.withAccess_of_checks (kind : AccessKind) (go : Host.Outcome State Fault Refusal)
    (hregions : allLrsc s.params a.toNat n) : s.withAccess kind a n go = go :=
  State.withAccess_admits <| (s.admits_iff a n).mpr
    ⟨by simp [aligned, halign], State.meetsText_of_misses hn htext, (s.accessible_iff _ n).mpr hregions⟩

end

/-- The next instruction's address as a number (R15). -/
theorem State.nextPc_toNat (s : State) : s.nextPc.toNat = (s.pc.toNat + 4) % 2 ^ s.xlen.bits := by
  have hdvd : 2 ^ s.xlen.bits ∣ 2 ^ 64 := by cases s.xlen <;> decide
  rw [State.nextPc, truncTo_toNat, BitVec.toNat_add]
  exact Nat.mod_mod_of_dvd _ hdvd

/-! ### The value an LR loads (R25, R85, R86) -/

/-- One more byte below a value, in the sum and in the concatenation. -/
theorem shiftLeft_or_toNat {v : Word} (hv : v.toNat < 256 ^ 7) (b : Byte) :
    (v <<< 8 ||| b.setWidth 64).toNat = v.toNat * 256 + b.toNat := by
  have hb := b.isLt
  have hor := Nat.shiftLeft_add_eq_or_of_lt hb v.toNat
  rw [BitVec.toNat_or, BitVec.toNat_shiftLeft, BitVec.toNat_setWidth, Nat.mod_eq_of_lt (a := b.toNat) (by omega),
    Nat.mod_eq_of_lt (by rw [Nat.shiftLeft_eq]; omega), ← hor, Nat.shiftLeft_eq]

theorem leValue_toNat_lt {bytes : List Byte} (h : bytes.length ≤ 8) : (leValue bytes).toNat < 256 ^ bytes.length := by
  induction bytes with
  | nil => simp [leValue]
  | cons b rest ih =>
    rw [List.length_cons] at h ⊢
    have hrest := ih (by omega)
    have hb := b.isLt
    rw [leValue, shiftLeft_or_toNat (hrest.trans_le (Nat.pow_le_pow_right (by decide) (by omega))), Nat.pow_succ]
    omega

/-- A little-endian value is its first byte and 256 times the value of the rest. -/
theorem leValue_cons_toNat {rest : List Byte} (h : rest.length < 8) (b : Byte) :
    (leValue (b :: rest)).toNat = (leValue rest).toNat * 256 + b.toNat := by
  have hrest := leValue_toNat_lt (show rest.length ≤ 8 by omega)
  rw [leValue, shiftLeft_or_toNat (hrest.trans_le (Nat.pow_le_pow_right (by decide) (by omega)))]

theorem leValue_nil_toNat : (leValue []).toNat = 0 := rfl

theorem toNat_append_eq_add {m n : Nat} (v : BitVec m) (w : BitVec n) : (v ++ w).toNat = v.toNat * 2 ^ n + w.toNat := by
  rw [BitVec.toNat_append, ← Nat.shiftLeft_add_eq_or_of_lt w.isLt, Nat.shiftLeft_eq]

/-- The value of four bytes is their concatenation, the first the lowest. -/
theorem leValue_toNat_of_four (b0 b1 b2 b3 : Byte) :
    (leValue [b0, b1, b2, b3]).toNat = (b3 ++ (b2 ++ (b1 ++ b0))).toNat := by
  simp only [toNat_append_eq_add]
  simp only [leValue_cons_toNat, leValue_nil_toNat, List.length_cons, List.length_nil, Nat.reduceAdd, Nat.reduceLT]
  omega

/-- The value of eight bytes is their concatenation, the first the lowest. -/
theorem leValue_toNat_of_eight (b0 b1 b2 b3 b4 b5 b6 b7 : Byte) :
    (leValue [b0, b1, b2, b3, b4, b5, b6, b7]).toNat =
      (b7 ++ (b6 ++ (b5 ++ (b4 ++ (b3 ++ (b2 ++ (b1 ++ b0))))))).toNat := by
  simp only [toNat_append_eq_add]
  simp only [leValue_cons_toNat, leValue_nil_toNat, List.length_cons, List.length_nil, Nat.reduceAdd, Nat.reduceLT]
  omega

/-- A loaded word is the sign extension of its four bytes. -/
theorem loadedValue_word (x : Xlen) (b0 b1 b2 b3 : Byte) :
    loadedValue x 4 [b0, b1, b2, b3] = sextTo x (b3 ++ (b2 ++ (b1 ++ b0)) : BitVec 32) := by
  rw [loadedValue, if_pos rfl]
  congr 1
  apply BitVec.eq_of_toNat_eq
  rw [BitVec.toNat_setWidth, leValue_toNat_of_four]
  exact Nat.mod_eq_of_lt (BitVec.isLt _)

/-- A loaded doubleword is its eight bytes. -/
theorem loadedValue_doubleword (x : Xlen) (b0 b1 b2 b3 b4 b5 b6 b7 : Byte) :
    loadedValue x 8 [b0, b1, b2, b3, b4, b5, b6, b7] =
      (b7 ++ (b6 ++ (b5 ++ (b4 ++ (b3 ++ (b2 ++ (b1 ++ b0)))))) : BitVec 64) :=
  BitVec.eq_of_toNat_eq (leValue_toNat_of_eight b0 b1 b2 b3 b4 b5 b6 b7)

/-- On the 32-bit variant a sign-extended word is the word. -/
theorem sextTo_rv32 (v : BitVec 32) : sextTo .rv32 v = v.setWidth 64 := by
  have hlow : (v.signExtend 64).setWidth 32 = v := by
    ext k hk
    have hk64 : k < 64 := by omega
    simp [BitVec.getElem_signExtend, hk, hk64]
  rw [sextTo, truncTo, hlow]

/-- What a register holds after a word is sign-extended into it, on either variant (R7). -/
theorem sextTo_word_cases {x : Xlen} {value : Word} {v : BitVec 32} (h : value = sextTo x v) :
    (x = .rv64 → value = v.signExtend 64) ∧ (x = .rv32 → value = v.setWidth 64) := by
  subst h
  refine ⟨?_, ?_⟩ <;> rintro rfl
  · rfl
  · exact sextTo_rv32 v

theorem truncTo_sextTo {n : Nat} (x : Xlen) (v : BitVec n) : truncTo x (sextTo x v) = sextTo x v :=
  truncTo_truncTo x _

/-! ### What a completed LR leaves (R74, R85, R86) -/

@[simp] theorem State.lrBytes_length (s : State) (a n : Nat) : (s.lrBytes a n).length = n := by
  unfold State.lrBytes
  split <;> simp

theorem State.lrBytes_of_interleaved {s : State} (h : s.params.memOrder = .interleaved) (a n : Nat) :
    s.lrBytes a n = s.mem.readBytes a n := by
  simp [State.lrBytes, h]

theorem State.lrDone_readReg (s : State) (n : Nat) (a : Word) {rd : Reg} (aq rl : Bool) (hrd : rd ≠ 0) :
    (s.lrDone n a rd aq rl).readReg rd = truncTo s.xlen (loadedValue s.xlen n (s.lrBytes a.toNat n)) := by
  simp [State.lrDone, hrd]

theorem State.lrDone_pc (s : State) (n : Nat) (a : Word) (rd : Reg) (aq rl : Bool) :
    (s.lrDone n a rd aq rl).pc = s.nextPc := by
  simp [State.lrDone]

/-- Settles O15: the three checks in their order, and then what `lrDone` leaves, with the four bytes read. -/
theorem lrWLoadsAndReserves : Obligations.LrWLoadsAndReserves := by
  intro s rd rs1 aq rl
  rw [exec_lrW_eq]
  refine ⟨s.withAccess_of_misaligned _ _, fun halign htext => State.withAccess_of_outside (by decide) halign htext _ _,
    fun halign htext hregions => ?_⟩
  obtain ⟨b0, b1, b2, b3, hbytes⟩ := List.length_eq_four.mp (s.lrBytes_length (s.readReg rs1).toNat 4)
  refine ⟨_, b0, b1, b2, b3, State.withAccess_of_checks (by decide) halign htext _ _ hregions, ?_, ?_, fun ho => ?_,
    fun hrd => sextTo_word_cases ?_⟩
  · rw [State.lrDone_pc, s.nextPc_toNat]
  · exact ⟨_, s.lrDone_res 4 _ rd aq rl, s.newReservation_covers _ 4, hbytes ▸ s.lrDone_hist 4 _ rd aq rl⟩
  · rw [← hbytes, State.lrBytes_of_interleaved ho]
  · rw [State.lrDone_readReg _ _ _ _ _ hrd, hbytes, loadedValue_word, truncTo_sextTo]

/-- A list of eight bytes, byte by byte. -/
theorem eq_of_length_eight {bytes : List Byte} (h : bytes.length = 8) :
    ∃ b0 b1 b2 b3 b4 b5 b6 b7, bytes = [b0, b1, b2, b3, b4, b5, b6, b7] := by
  match bytes, h with
  | [b0, b1, b2, b3, b4, b5, b6, b7], _ => exact ⟨b0, b1, b2, b3, b4, b5, b6, b7, rfl⟩

/-- Settles O16: as for LR.W, with eight bytes and the value taken whole. -/
theorem lrDLoadsAndReserves : Obligations.LrDLoadsAndReserves := by
  intro s rd rs1 aq rl hx
  rw [exec_lrD_eq s _ _ _ _ hx]
  refine ⟨s.withAccess_of_misaligned _ _, fun halign htext => State.withAccess_of_outside (by decide) halign htext _ _,
    fun halign htext hregions => ?_⟩
  obtain ⟨b0, b1, b2, b3, b4, b5, b6, b7, hbytes⟩ := eq_of_length_eight (s.lrBytes_length (s.readReg rs1).toNat 8)
  refine ⟨_, b0, b1, b2, b3, b4, b5, b6, b7, State.withAccess_of_checks (by decide) halign htext _ _ hregions, ?_, ?_,
    fun ho => ?_, fun hrd => ?_⟩
  · rw [State.lrDone_pc, s.nextPc_toNat, hx]
    rfl
  · exact ⟨_, s.lrDone_res 8 _ rd aq rl, s.newReservation_covers _ 8, hbytes ▸ s.lrDone_hist 8 _ rd aq rl⟩
  · rw [← hbytes, State.lrBytes_of_interleaved ho]
  · rw [State.lrDone_readReg _ _ _ _ _ hrd, hbytes, loadedValue_doubleword, hx]
    rfl

/-- An LR of either size is its checks and then `lrDone`. -/
theorem exec_lr_eq {s : State} {i : Instr} {rd rs1 : Reg} {aq rl : Bool} {n : Nat}
    (hi : (n = 4 ∧ i = .lrW rd rs1 aq rl) ∨ (n = 8 ∧ i = .lrD rd rs1 aq rl ∧ s.xlen = .rv64)) :
    0 < n ∧ exec i s = s.withAccess .load (s.readReg rs1) n (.next (s.lrDone n (s.readReg rs1) rd aq rl)) := by
  rcases hi with ⟨rfl, rfl⟩ | ⟨rfl, rfl, hx⟩
  · exact ⟨by decide, exec_lrW_eq s rd rs1 aq rl⟩
  · exact ⟨by decide, exec_lrD_eq s rd rs1 aq rl hx⟩

/-- A choice whose LR registers the bytes read and those of `wanted`. -/
def choiceOfSet (wanted : List ByteRange) : Choice := { Choice.reference with extraSet := wanted }

/-- Bytes that a set holds add nothing to it. -/
theorem inSet_cons_of_covers {set : List ByteRange} {a n : Nat} (h : coversBytes set a n = true) (b : Nat) :
    inSet (⟨a, n⟩ :: set) b = inSet set b := by
  cases hb : inRange ⟨a, n⟩ b with
  | false => simp [inSet, hb]
  | true =>
    obtain ⟨hlo, hhi⟩ : a ≤ b ∧ b < a + n := by simpa [inRange] using hb
    have := coversBytes_iff.mp h (b - a) (by omega)
    rw [Nat.add_sub_cancel' hlo] at this
    rw [this]
    simp [inSet, hb]

/-- Settles O18: the set is the bytes read and what is drawn, and drawing the wanted set adds nothing to it. -/
theorem anyCoveringReservationSetIsPossible : Obligations.AnyCoveringReservationSetIsPossible := by
  intro s i rd rs1 aq rl n hi
  refine ⟨fun t ht => ?_, fun wanted halign htext hregions hcovers => ?_⟩
  · rw [(exec_lr_eq hi).2] at ht
    obtain ⟨-, hdone⟩ := State.withAccess_next ht
    cases hdone
    exact ⟨_, s.lrDone_res n _ rd aq rl, rfl, rfl, coversBytes_iff.mp (s.newReservation_covers _ n)⟩
  · obtain ⟨hn, hexec⟩ := exec_lr_eq (s := { s with script := [choiceOfSet wanted] }) hi
    have hchecks := State.withAccess_of_checks (s := { s with script := [choiceOfSet wanted] }) hn halign htext .load
    exact ⟨_, _, _, hexec.trans (hchecks _ hregions), State.lrDone_res _ n _ rd aq rl, rfl, rfl, inSet_cons_of_covers hcovers⟩

/-! ### What a completed SC leaves (R78, R79, R87, R88) -/

/-- After an SC that succeeded memory holds the bytes of its event. -/
theorem State.scDone_readBytes_of_success {s : State} {n : Nat} {a : Word} (rd rs2 : Reg) (aq rl : Bool)
    (h : s.scSucceeds a.toNat n = true) :
    (s.scDone n a rd rs2 aq rl).mem.readBytes a.toNat n = s.storedBytes n rs2 := by
  have hread := s.mem.readBytes_writeBytes a.toNat (s.storedBytes n rs2)
  rw [State.storedBytes, leBytes_length] at hread
  rw [State.scDone_of_success _ _ _ _ h]
  simpa [State.storedBytes] using hread

/-- What a completed SC of either size leaves where it succeeds. -/
theorem State.scDone_success {s : State} {n : Nat} {a : Word} (rd rs2 : Reg) (aq rl : Bool)
    (h : s.scSucceeds a.toNat n = true) :
    (∀ k, k < n → (s.scDone n a rd rs2 aq rl).mem.readByte (a.toNat + k) =
        BitVec.ofNat 8 ((s.readReg rs2).toNat / 256 ^ k)) ∧
      (rd ≠ 0 → (s.scDone n a rd rs2 aq rl).readReg rd = 0) ∧
      ∃ bytes, (s.scDone n a rd rs2 aq rl).hist = s.hist ++ [.sc s.self a.toNat n aq rl true bytes] ∧
        bytes = (s.scDone n a rd rs2 aq rl).mem.readBytes a.toNat n := by
  obtain ⟨hzero, hbytes⟩ := State.scDone_result_of_success rd rs2 aq rl h
  refine ⟨hbytes, fun _ => hzero, _, ?_, (State.scDone_readBytes_of_success rd rs2 aq rl h).symm⟩
  rw [s.scDone_hist, h, if_pos rfl]

theorem State.scDone_hist_of_failure {s : State} {n : Nat} {a : Word} (rd rs2 : Reg) (aq rl : Bool)
    (h : s.scSucceeds a.toNat n = false) :
    (s.scDone n a rd rs2 aq rl).hist = s.hist ++ [.sc s.self a.toNat n aq rl false []] := by
  rw [s.scDone_hist, h]
  rfl

/-- An SC that does not meet the conditions of success fails. -/
theorem State.scSucceeds_eq_false {s : State} {a n : Nat}
    (h : ¬((∃ r, s.hart.res = some r ∧ ∀ k, k < n → inSet r.set (a + k) = true) ∧ s.choice.spurious = false)) :
    s.scSucceeds a n = false :=
  Bool.eq_false_iff.mpr (h ∘ (s.scSucceeds_iff a n).mp)

/-- Settles O19: the three checks in their order, and then what `scDone` leaves in success and in failure. -/
theorem scWStoresOrFails : Obligations.ScWStoresOrFails := by
  intro s rd rs2 rs1 aq rl
  rw [exec_scW_eq]
  refine ⟨s.withAccess_of_misaligned _ _, fun halign htext => State.withAccess_of_outside (by decide) halign htext _ _,
    fun halign htext hregions => ?_⟩
  refine ⟨_, State.withAccess_of_checks (by decide) halign htext _ _ hregions, ?_, s.scDone_res 4 _ rd rs2 aq rl,
    fun hok => State.scDone_success rd rs2 aq rl ((s.scSucceeds_iff _ 4).mpr hok), fun hnot => ?_⟩
  · rw [State.scDone_pc, s.nextPc_toNat]
  · have hfail := State.scSucceeds_eq_false hnot
    obtain ⟨hmem, -⟩ := State.scDone_frame_of_failure rd rs2 aq rl hfail
    refine ⟨hmem, fun hrd => ⟨_, nonzero_ne_zero (by decide) (s.choice.failCode.setWidth 32), sextTo_word_cases ?_⟩,
      State.scDone_hist_of_failure rd rs2 aq rl hfail⟩
    rw [State.scDone_readReg_of_failure rs2 aq rl hrd hfail, State.failureCode, if_pos rfl, truncTo_sextTo]

/-- Settles O20: as for SC.W, with eight bytes and a code of 64 bits. -/
theorem scDStoresOrFails : Obligations.ScDStoresOrFails := by
  intro s rd rs2 rs1 aq rl hx
  rw [exec_scD_eq s _ _ _ _ _ hx]
  refine ⟨s.withAccess_of_misaligned _ _, fun halign htext => State.withAccess_of_outside (by decide) halign htext _ _,
    fun halign htext hregions => ?_⟩
  refine ⟨_, State.withAccess_of_checks (by decide) halign htext _ _ hregions, ?_, s.scDone_res 8 _ rd rs2 aq rl,
    fun hok => State.scDone_success rd rs2 aq rl ((s.scSucceeds_iff _ 8).mpr hok), fun hnot => ?_⟩
  · rw [State.scDone_pc, s.nextPc_toNat, hx]
    rfl
  · have hfail := State.scSucceeds_eq_false hnot
    obtain ⟨hmem, hcode⟩ := State.scDone_result_of_failure rd rs2 aq rl (.inr hx) hfail
    exact ⟨hmem, hcode, State.scDone_hist_of_failure rd rs2 aq rl hfail⟩

/-- An SC of either size whose checks hold completes. -/
theorem exec_sc_completes {s : State} {i : Instr} {rd rs2 rs1 : Reg} {aq rl : Bool} {n : Nat}
    (hi : (n = 4 ∧ i = .scW rd rs2 rs1 aq rl) ∨ (n = 8 ∧ i = .scD rd rs2 rs1 aq rl ∧ s.xlen = .rv64))
    (halign : (s.readReg rs1).toNat % n = 0) (htext : missesText s.params (s.readReg rs1).toNat n)
    (hregions : allLrsc s.params (s.readReg rs1).toNat n) :
    (n = 4 ∨ s.xlen = .rv64) ∧ exec i s = .next (s.scDone n (s.readReg rs1) rd rs2 aq rl) := by
  rcases hi with ⟨rfl, rfl⟩ | ⟨rfl, rfl, hx⟩
  · rw [exec_scW_eq, State.withAccess_of_checks (by decide) halign htext _ _ hregions]
    exact ⟨.inl rfl, rfl⟩
  · rw [exec_scD_eq s _ _ _ _ _ hx, State.withAccess_of_checks (by decide) halign htext _ _ hregions]
    exact ⟨.inr hx, rfl⟩

/-- Settles O24: without a reservation that holds the bytes the conditions of success are not met. -/
theorem scOutsideTheReservationFails : Obligations.ScOutsideTheReservationFails := by
  intro s i rd rs2 rs1 aq rl n hi halign htext hregions hlacks
  obtain ⟨hn, hexec⟩ := exec_sc_completes hi halign htext hregions
  refine ⟨_, hexec, State.scDone_result_of_failure rd rs2 aq rl hn (State.scSucceeds_eq_false ?_)⟩
  rintro ⟨⟨r, hr, hholds⟩, -⟩
  obtain ⟨k, hk, hlack⟩ := hlacks r hr
  exact Bool.false_ne_true (hlack.symm.trans (hholds k hk))

/-! ### The draws of an SC (R77, R79) -/

/-- A choice under which an SC fails, with the code drawn. -/
def choiceOfFailure (code : Word) : Choice := { Choice.reference with spurious := true, failCode := code }

theorem State.scSucceeds_choiceOfFailure (s : State) (code : Word) (a n : Nat) :
    ({ s with script := [choiceOfFailure code] } : State).scSucceeds a n = false := by
  simp [State.scSucceeds, State.choice, choiceOfFailure]

/-- Settles O26: the reference choice does not fail an SC that may succeed, and another choice does. -/
theorem scThatMaySucceedMayAlsoFail : Obligations.ScThatMaySucceedMayAlsoFail := by
  intro s i rd rs2 rs1 aq rl n hi halign htext hregions
  have hcompletes (c : Choice) := exec_sc_completes (s := { s with script := [c] }) hi halign htext hregions
  refine ⟨⟨fun hmay => ?_, ?_⟩, ?_⟩
  · obtain ⟨-, hexec⟩ := hcompletes Choice.reference
    have hok := (State.scSucceeds_iff { s with script := [Choice.reference] } _ n).mpr ⟨hmay, rfl⟩
    obtain ⟨-, -, bytes, hhist, -⟩ := State.scDone_success rd rs2 aq rl hok
    exact ⟨_, _, bytes, hexec, hhist, (State.scDone_result_of_success rd rs2 aq rl hok).1⟩
  · rintro ⟨c, t, bytes, hexec, hhist, -⟩
    rw [(hcompletes c).2] at hexec
    cases hexec
    have hevent := List.append_cancel_left ((State.scDone_hist _ n _ rd rs2 aq rl).symm.trans hhist)
    have hok : ({ s with script := [c] } : State).scSucceeds (s.readReg rs1).toNat n = true := by
      injection hevent with hsc
      injection hsc
    exact ((State.scSucceeds_iff _ _ n).mp hok).1
  · obtain ⟨hn, hexec⟩ := hcompletes (choiceOfFailure 1)
    have hfail := s.scSucceeds_choiceOfFailure 1 (s.readReg rs1).toNat n
    exact ⟨_, _, hexec, State.scDone_hist_of_failure rd rs2 aq rl hfail,
      State.scDone_result_of_failure rd rs2 aq rl hn hfail⟩

/-- Settles O27: the failure code drawn, where it is not zero, is the one left. -/
theorem anyNonzeroFailureCodeIsPossible : Obligations.AnyNonzeroFailureCodeIsPossible := by
  intro s rd rs2 rs1 aq rl hrd
  refine ⟨fun halign htext hregions v hv => ?_, fun hx halign htext hregions v hv => ?_⟩
  · obtain ⟨-, hexec⟩ := exec_sc_completes (s := { s with script := [choiceOfFailure (v.setWidth 64)] })
      (.inl ⟨rfl, rfl⟩) halign htext hregions
    refine ⟨_, _, hexec, ?_⟩
    have hcode : nonzero ((v.setWidth 64).setWidth 32) = v := by
      rw [BitVec.setWidth_setWidth_of_le v (by decide), BitVec.setWidth_eq]
      exact if_neg hv
    rw [State.scDone_readReg_of_failure rs2 aq rl hrd (s.scSucceeds_choiceOfFailure _ _ 4), State.failureCode, if_pos rfl,
      truncTo_sextTo]
    exact congrArg (sextTo s.xlen) hcode
  · obtain ⟨-, hexec⟩ := exec_sc_completes (s := { s with script := [choiceOfFailure v] })
      (.inr ⟨rfl, rfl, hx⟩) halign htext hregions
    refine ⟨_, _, hexec, ?_⟩
    rw [State.scDone_readReg_of_failure rs2 aq rl hrd (s.scSucceeds_choiceOfFailure _ _ 8), State.failureCode,
      if_neg (by decide), show ({ s with script := [choiceOfFailure v] } : State).xlen = .rv64 from hx]
    exact if_neg hv

/-! ### Other addresses and sizes (R84) -/

/-- A part of the bytes a set holds is held. -/
theorem coversBytes_part {set : List ByteRange} {a n d m : Nat} (h : coversBytes set a n = true) (hm : d + m ≤ n) :
    coversBytes set (a + d) m = true :=
  coversBytes_iff.mpr fun k hk => by
    rw [Nat.add_assoc]
    exact coversBytes_iff.mp h (d + k) (by omega)

/-- After an LR an SC may succeed exactly where the new set holds its bytes (R75). -/
theorem State.maySucceed_lrDone (s : State) (n : Nat) (a : Word) (rd : Reg) (aq rl : Bool) (b m : Nat) :
    (s.lrDone n a rd aq rl).maySucceed b m = coversBytes (s.newReservation a.toNat n).set b m := rfl

/-- The reference simulator's set is the bytes read (R52). -/
theorem State.newReservation_set_of_reference {s : State} (h : s.choice.isReference = true) (a n : Nat) :
    (s.newReservation a n).set = [⟨a, n⟩] := by
  have hextra : s.choice.extraSet = [] := by
    simp only [Choice.isReference, Bool.and_eq_true, List.isEmpty_iff] at h
    exact h.2
  rw [State.newReservation, hextra]

/-- Settles O28: the new set holds every part of the bytes read, and the smallest one nothing else. -/
theorem scPairsAcrossAddressesAndSizes : Obligations.ScPairsAcrossAddressesAndSizes := by
  intro s t rd rs1 aq rl
  constructor
  · intro h
    obtain ⟨-, -, rfl⟩ := exec_lrD_next h
    have hcovers := s.newReservation_covers (s.readReg rs1).toNat 8
    simp only [State.maySucceed_lrDone]
    exact ⟨coversBytes_part (d := 0) hcovers (by decide), coversBytes_part hcovers (by decide), hcovers⟩
  · intro h href
    obtain ⟨-, rfl⟩ := exec_lrW_next h
    refine ⟨s.newReservation_covers _ 4, ?_⟩
    rw [State.maySucceed_lrDone, State.newReservation_set_of_reference href, Bool.eq_false_iff, ne_eq, coversBytes_iff]
    intro hall
    have := inSet_singleton_iff.mp (hall 4 (by decide))
    omega

end Sys2Proof.Machine
end

section
/-! SUPPORT. The obligations on constrained loops (41_lrsc_eventual_success.md): what a phase says of the attempt that led to it, how
long an attempt can be, and from that which harts leave their loops. -/

namespace Sys2Proof.Machine

/-! ### The code of a loop (R92) -/

theorem CodeLoop.holds_iff (l : CodeLoop) (a : Word) :
    l.holds a = true ↔ l.base ≤ a.toNat ∧ a.toNat < l.base + 4 * l.len := by
  simp [CodeLoop.holds, inRange]

/-- What the placement of a loop says of its length, its LR, its words and its SC. -/
theorem CodeLoop.placed_iff (p : Params) (l : CodeLoop) : l.placed p = true ↔
    l.len ≤ 16 ∧ (l.base ≤ l.lr ∧ l.lr < l.base + 4 * l.len) ∧
    (∀ k, k < l.len → ∃ w, textAt p.text (l.base + 4 * k) = some w ∧ l.wordOk p.xlen (l.base + 4 * k) w = true) ∧
    (List.range l.len).countP (fun k => ((textAt p.text (l.base + 4 * k)).bind (scSizeOf p.xlen)).isSome) = 1 := by
  simp [CodeLoop.placed, inRange, Option.any_eq_true, and_assoc]

theorem CodeLoop.holds_lr {p : Params} {l : CodeLoop} (h : l.placed p = true) {a : Word} (ha : a.toNat = l.lr) :
    l.holds a = true := by
  obtain ⟨-, hlr, -⟩ := (l.placed_iff p).mp h
  exact (l.holds_iff a).mpr (ha ▸ hlr)

/-- A word that may stand in a loop is the LR at its place, and elsewhere an SC or of one of three classes. -/
theorem CodeLoop.wordOk_iff (x : Xlen) (l : CodeLoop) (a : Nat) (w : InstrWord) : l.wordOk x a w = true ↔
    if a = l.lr then (lrSizeOf x w).isSome = true
    else (scSizeOf x w).isSome = true ∨ classOf x w = .baseOther ∨ classOf x w = .branch ∨ classOf x w = .jump := by
  unfold CodeLoop.wordOk
  split <;> simp [or_assoc]

/-- Where one number of a range has a property, it is the only one. -/
theorem eq_of_countP_range {len k k' : Nat} {f : Nat → Bool} (h : (List.range len).countP f = 1) (hk : k < len)
    (hk' : k' < len) (hf : f k = true) (hf' : f k' = true) : k = k' := by
  obtain ⟨j, hj⟩ := List.length_eq_one_iff.mp (List.countP_eq_length_filter.symm.trans h)
  have only : ∀ i, i < len → f i = true → i = j := fun i hi hfi =>
    List.mem_singleton.mp (hj ▸ List.mem_filter.mpr ⟨List.mem_range.mpr hi, hfi⟩)
  rw [only k hk hf, only k' hk' hf']

theorem eventual_iff (p : Params) (a n : Nat) : eventual p a n = true ↔
    ∀ k, k < n → ∃ r ∈ p.regions, r.eventuality = true ∧ r.bytes.lo ≤ a + k ∧ a + k < r.bytes.lo + r.bytes.len := by
  simp [eventual, inRange]

/-! ### The moves from phase to phase (R92 to R96) -/

/-- No word is both an LR and an SC. -/
theorem lrSizeOf_of_sc {x : Xlen} {w : InstrWord} (h : (scSizeOf x w).isSome = true) : lrSizeOf x w = none := by
  have notLr : ∀ r, r = rowScW ∨ r = rowScD → r.hits w = true → rowLrW.hits w = false ∧ rowLrD.hits w = false := by
    rintro r (rfl | rfl) hit <;>
      exact ⟨OpcodeRow.hits_false_of_disjoint hit (by decide), OpcodeRow.hits_false_of_disjoint hit (by decide)⟩
  have hsc : rowScW.hits w = true ∨ rowScD.hits w = true := by
    unfold scSizeOf at h
    split at h
    · exact .inl ‹_›
    · split at h
      · rename_i hd
        exact .inr (Bool.and_eq_true_iff.mp hd).2
      · cases h
  obtain ⟨hw, hd⟩ := hsc.elim (notLr _ (.inl rfl)) (notLr _ (.inr rfl))
  simp [lrSizeOf, hw, hd]

/-- Everything one executed instruction can make of the phase of an attempt: each move with what it says of the instruction. -/
inductive Phase.Moves (p : Params) (l : CodeLoop) (e : Executed) : Phase → Phase → Prop where
  | reads {n : Nat} (pc : e.pc.toNat = l.lr) (size : lrSizeOf p.xlen e.word = some n)
      (inEventual : eventual p e.addr.toNat n = true) (stays : l.holds e.next = true) :
      Moves p l e .atLr (.between e.addr n [e.pc])
  | goesOn {a : Word} {n : Nat} {seen : List Word} (held : l.holds e.pc = true) (new : e.pc ∉ seen)
      (noSc : scSizeOf p.xlen e.word = none) (allowed : e.betweenOk p.xlen = true) (stays : l.holds e.next = true) :
      Moves p l e (.between a n seen) (.between a n (e.pc :: seen))
  | writes {a : Word} {n : Nat} {seen : List Word} (held : l.holds e.pc = true) (new : e.pc ∉ seen)
      (size : scSizeOf p.xlen e.word = some n) (addr : e.addr = a) (stays : l.holds e.next = true) :
      Moves p l e (.between a n seen) (.after e.stored (e.pc :: seen))
  | retries {ok : Bool} {seen : List Word} (held : l.holds e.pc = true) (new : e.pc ∉ seen)
      (allowed : e.retryOk p.xlen l = true) (stays : l.holds e.next = true) :
      Moves p l e (.after ok seen) (.after ok (e.pc :: seen))
  | comesBack {seen : List Word} (held : l.holds e.pc = true) (new : e.pc ∉ seen)
      (allowed : e.retryOk p.xlen l = true) (back : e.next.toNat = l.lr) : Moves p l e (.after false seen) .back
  | repeats {seen : List Word} (allowed : e.retryOk p.xlen l = true) : Moves p l e (.after true seen) .again
  | begins (pc : e.pc.toNat = l.lr) (size : (lrSizeOf p.xlen e.word).isSome = true) : Moves p l e .back .ended
  | leaves {ph : Phase} (out : e.leaves p.xlen l = true) : Moves p l e ph .left
  | breaks {ph : Phase} : Moves p l e ph .broken
  | repeated : Moves p l e .again .again
  | left : Moves p l e .left .left
  | ended : Moves p l e .ended .ended

/-- Where control lands is a move, if it is one at the LR and in the loop. -/
theorem Phase.land_moves {p : Params} {l : CodeLoop} {e : Executed} {start atTheLr ph : Phase}
    (hlr : e.next.toNat = l.lr → Moves p l e start atTheLr) (hin : l.holds e.next = true → Moves p l e start ph) :
    Moves p l e start (Phase.land p.xlen l e atTheLr ph) := by
  unfold Phase.land
  split
  · exact hlr ‹_›
  · split
    · exact hin ‹_›
    · split
      · exact .leaves ‹_›
      · exact .breaks

theorem Phase.next_moves (p : Params) (l : CodeLoop) (ph : Phase) (e : Executed) : ph.Moves p l e (ph.next p l e) := by
  cases ph with
  | atLr =>
    simp only [Phase.next]
    repeat' split
    · exact land_moves (fun _ => .breaks) (.reads ‹_› ‹_› ‹_›)
    all_goals exact .breaks
  | between a n seen =>
    simp only [Phase.next]
    split
    · rename_i hpc
      obtain ⟨held, new⟩ : l.holds e.pc = true ∧ e.pc ∉ seen := by simpa using hpc
      repeat' split
      · rename_i hsize heq
        exact land_moves (fun _ => .breaks) (.writes held new (heq.1 ▸ hsize) heq.2)
      · exact .breaks
      · exact land_moves (fun _ => .breaks) (.goesOn held new ‹_› ‹_›)
      · exact .breaks
    · exact .breaks
  | after ok seen =>
    simp only [Phase.next]
    split
    · rename_i hpc
      obtain ⟨⟨held, new⟩, allowed⟩ : (l.holds e.pc = true ∧ e.pc ∉ seen) ∧ e.retryOk p.xlen l = true := by simpa using hpc
      refine land_moves (fun hlr => ?_) (.retries held new allowed)
      cases ok with
      | false => exact .comesBack held new allowed hlr
      | true => exact .repeats allowed
    · exact .breaks
  | back =>
    simp only [Phase.next]
    split
    · rename_i h
      exact .begins h.1 h.2
    · exact .breaks
  | again => exact .repeated
  | left => exact .left
  | ended => exact .ended
  | broken => exact .breaks

/-! ### What a phase says of the attempt (R92 to R96) -/

/-- The executed instructions are instructions of the loop, each executed once, and their addresses are among those seen. -/
def CodeLoop.runsOnce (l : CodeLoop) (seen : List Word) (es : List Executed) : Prop :=
  (∀ e ∈ es, l.holds e.pc = true ∧ e.pc ∈ seen) ∧ (es.map Executed.pc).Nodup

theorem CodeLoop.runsOnce_concat {l : CodeLoop} {seen : List Word} {es : List Executed} {e : Executed}
    (h : l.runsOnce seen es) (held : l.holds e.pc = true) (new : e.pc ∉ seen) :
    l.runsOnce (e.pc :: seen) (es ++ [e]) := by
  obtain ⟨hes, hnodup⟩ := h
  refine ⟨fun f hf => ?_, ?_⟩
  · rcases List.mem_append.mp hf with hf | hf
    · exact ⟨(hes f hf).1, List.mem_cons_of_mem _ (hes f hf).2⟩
    · rw [List.mem_singleton.mp hf]
      exact ⟨held, List.mem_cons_self⟩
  · rw [List.map_append, List.map_singleton, ← List.concat_eq_append]
    refine hnodup.concat fun hmem => ?_
    obtain ⟨f, hf, hpc⟩ := List.mem_map.mp hmem
    exact new (hpc ▸ (hes f hf).2)

/-- An attempt is no longer than the loop has addresses. -/
theorem CodeLoop.runsOnce_length_le {l : CodeLoop} {seen : List Word} {es : List Executed} (h : l.runsOnce seen es) :
    es.length ≤ 4 * l.len := by
  obtain ⟨hes, hnodup⟩ := h
  have hsub : (es.map Executed.pc).map BitVec.toNat ⊆ List.range' l.base (4 * l.len) := by
    intro a ha
    obtain ⟨_, hpc, rfl⟩ := List.mem_map.mp ha
    obtain ⟨e, he, rfl⟩ := List.mem_map.mp hpc
    exact List.mem_range'_1.mpr ((l.holds_iff _).mp (hes e he).1)
  have := ((hnodup.map fun _ _ => BitVec.eq_of_toNat_eq).subperm hsub).length_le
  simpa using this

/-- The executed instructions are the LR of the loop, of that address and size, and instructions that R93 allows. -/
def CodeLoop.opensWith (p : Params) (l : CodeLoop) (a : Word) (n : Nat) (es : List Executed) : Prop :=
  ∃ lr between, es = lr :: between ∧ lr.pc.toNat = l.lr ∧ lrSizeOf p.xlen lr.word = some n ∧ lr.addr = a ∧
    eventual p a.toNat n = true ∧ ∀ e ∈ between, e.betweenOk p.xlen = true

/-- The executed instructions are such an opening, an SC of its size to its address, and instructions that R94 allows. -/
def CodeLoop.pairsWith (p : Params) (l : CodeLoop) (ok : Bool) (es : List Executed) : Prop :=
  ∃ opening sc retry a n, es = opening ++ sc :: retry ∧ l.opensWith p a n opening ∧ scSizeOf p.xlen sc.word = some n ∧
    sc.addr = a ∧ sc.stored = ok ∧ ∀ e ∈ retry, e.retryOk p.xlen l = true

theorem CodeLoop.pairsWith_concat {p : Params} {l : CodeLoop} {ok : Bool} {es : List Executed} {e : Executed}
    (h : l.pairsWith p ok es) (allowed : e.retryOk p.xlen l = true) : l.pairsWith p ok (es ++ [e]) := by
  obtain ⟨opening, sc, retry, a, n, rfl, hopens, hsize, haddr, hstored, hretry⟩ := h
  refine ⟨opening, sc, retry ++ [e], a, n, by simp, hopens, hsize, haddr, hstored, fun f hf => ?_⟩
  rcases List.mem_append.mp hf with hf | hf
  · exact hretry f hf
  · exact List.mem_singleton.mp hf ▸ allowed

/-- What each phase says of the instructions executed since the LR; of an attempt that is over or broken nothing. -/
def Phase.Describes (p : Params) (l : CodeLoop) (es : List Executed) : Phase → Prop
  | .atLr => es = []
  | .between a n seen => l.runsOnce seen es ∧ l.opensWith p a n es
  | .after ok seen => l.runsOnce seen es ∧ l.pairsWith p ok es
  | .back => (∃ seen, l.runsOnce seen es) ∧ l.pairsWith p false es ∧ ∃ e ∈ es.getLast?, e.next.toNat = l.lr
  | .again => True
  | .left => True
  | .ended => True
  | .broken => True

theorem Phase.describes_of_moves {p : Params} {l : CodeLoop} (hl : l.placed p = true) {e : Executed} {ph ph' : Phase}
    (hm : ph.Moves p l e ph') {es : List Executed} (h : ph.Describes p l es) : ph'.Describes p l (es ++ [e]) := by
  cases hm with
  | reads pc size inEventual =>
    obtain rfl : es = [] := h
    refine ⟨CodeLoop.runsOnce_concat (seen := []) ⟨by simp, by simp⟩ (CodeLoop.holds_lr hl pc) (by simp), ?_⟩
    exact ⟨e, [], rfl, pc, size, rfl, inEventual, by simp⟩
  | goesOn held new noSc allowed =>
    obtain ⟨honce, lr, between, rfl, pc, size, addr, inEventual, hbetween⟩ := h
    refine ⟨CodeLoop.runsOnce_concat honce held new, lr, between ++ [e], rfl, pc, size, addr, inEventual, fun f hf => ?_⟩
    rcases List.mem_append.mp hf with hf | hf
    · exact hbetween f hf
    · exact List.mem_singleton.mp hf ▸ allowed
  | writes held new size addr =>
    obtain ⟨honce, hopens⟩ := h
    exact ⟨CodeLoop.runsOnce_concat honce held new, es, e, [], _, _, rfl, hopens, size, addr, rfl, by simp⟩
  | retries held new allowed =>
    obtain ⟨honce, hpairs⟩ := h
    exact ⟨CodeLoop.runsOnce_concat honce held new, CodeLoop.pairsWith_concat hpairs allowed⟩
  | comesBack held new allowed back =>
    obtain ⟨honce, hpairs⟩ := h
    exact ⟨⟨_, CodeLoop.runsOnce_concat honce held new⟩, CodeLoop.pairsWith_concat hpairs allowed, e, by simp, back⟩
  | repeats | begins | leaves | breaks | repeated | left | ended => trivial

theorem phaseAfter_concat (p : Params) (l : CodeLoop) (es : List Executed) (e : Executed) :
    phaseAfter p l (es ++ [e]) = (phaseAfter p l es).next p l e := by
  simp [phaseAfter, List.foldl_append]

theorem phaseAfter_describes {p : Params} {l : CodeLoop} (hl : l.placed p = true) (es : List Executed) :
    (phaseAfter p l es).Describes p l es := by
  induction es using List.reverseRecOn with
  | nil => rfl
  | append_singleton es e ih =>
    rw [phaseAfter_concat]
    exact Phase.describes_of_moves hl (Phase.next_moves p l _ e) ih

/-- Settles O58: the list has led to the phase back at the LR, and the placement of the loop says the rest. -/
theorem constrainedPassHasTheFiveProperties : Obligations.ConstrainedPassHasTheFiveProperties := by
  intro p l es h
  obtain ⟨hl, hback⟩ : l.placed p = true ∧ phaseAfter p l es = .back := by simpa [constrainedPass] using h
  have hdescribes := phaseAfter_describes hl es
  rw [hback] at hdescribes
  obtain ⟨⟨seen, hheld, hnodup⟩, ⟨opening, sc, retry, a, n, rfl, hopens, hscSize, hscAddr, hstored, hretry⟩, hlast⟩ :=
    hdescribes
  obtain ⟨lr, between, rfl, hpc, hlrSize, rfl, heventual, hbetween⟩ := hopens
  obtain ⟨hlen, -, hwords, hone⟩ := (l.placed_iff p).mp hl
  refine ⟨hlen, fun k hk => ?_, fun k k' w w' hk hk' hw hw' hsc hsc' => ?_, fun e he => (l.holds_iff _).mp (hheld e he).1,
    hnodup, hlast, between, retry, lr, sc, n, rfl, hpc, hlrSize, hscSize, hscAddr, hstored,
    (eventual_iff p _ n).mp heventual, hbetween, hretry⟩
  · obtain ⟨w, hw, hok⟩ := hwords k hk
    exact ⟨w, hw, (l.wordOk_iff _ _ w).mp hok⟩
  · exact eq_of_countP_range hone hk hk' (by rw [hw]; exact hsc) (by rw [hw']; exact hsc')

end Sys2Proof.Machine
end

section
/-! SUPPORT. The eventuality guarantee over executions (R99 to R104): how the phase of an attempt moves in an execution, that a hart
whose SC has succeeded leaves its loop, and that a lone hart of the reference simulator does. -/

namespace Sys2Proof.Machine

/-! ### The moves of an attempt in an execution -/

section

variable {r : Execution} {h : Nat} {l : CodeLoop} {n k : Nat}

theorem Execution.moment_params (hv : r.valid) (n i : Nat) : (r.moment i).params = (r.state n).params :=
  (Execution.params_const hv i).trans (Execution.params_const hv n).symm

theorem Execution.moment_xlen (hv : r.valid) (n i : Nat) : (r.moment i).xlen = (r.state n).params.xlen :=
  congrArg Params.xlen (Execution.moment_params hv n i)

/-- An instruction the hart completes moves the phase. -/
theorem Execution.phase_moves {e : Executed} (hself : (r.moment (n + k)).self = h)
    (he : (r.moment (n + k)).executed = some e) :
    (r.phase h l n k).Moves (r.state n).params l e (r.phase h l n (k + 1)) :=
  Execution.phase_succ_of_executed l hself he ▸ Phase.next_moves _ l _ e

/-- In every step the phase stays as it is, or it moves by an instruction the hart completes. -/
theorem Execution.phase_succ_cases (r : Execution) (h : Nat) (l : CodeLoop) (n k : Nat) :
    r.phase h l n (k + 1) = r.phase h l n k ∨
      ∃ e, (r.moment (n + k)).self = h ∧ (r.moment (n + k)).executed = some e ∧
        (r.phase h l n k).Moves (r.state n).params l e (r.phase h l n (k + 1)) := by
  by_cases hself : (r.moment (n + k)).self = h
  · cases he : (r.moment (n + k)).executed with
    | none => exact .inl (Execution.phase_succ_of_not l fun _ => he)
    | some e => exact .inr ⟨e, hself, rfl, Execution.phase_moves hself he⟩
  · exact .inl (Execution.phase_succ_of_not l fun hs => absurd hs hself)

theorem Phase.moves_left {p : Params} {e : Executed} {ph : Phase} (hm : ph.Moves p l e .left) :
    ph = .left ∨ e.leaves p.xlen l = true := by
  cases hm with
  | leaves out => exact .inr out
  | left => exact .inl rfl

theorem Phase.moves_ended {p : Params} {e : Executed} {ph : Phase} (hm : ph.Moves p l e .ended) :
    ph = .ended ∨ ph = .back ∧ e.pc.toNat = l.lr ∧ (lrSizeOf p.xlen e.word).isSome = true := by
  cases hm with
  | begins pc size => exact .inr ⟨rfl, pc, size⟩
  | ended => exact .inl rfl

theorem Execution.not_exits_of_stays (hstays : ∀ m, r.stays h l n m) {i : Nat} (hi : n ≤ i) : ¬ r.exits h l i :=
  (hstays (i + 1) i hi i.lt_succ_self).1

/-- An attempt is left only where the hart exits its loop. -/
theorem Execution.phase_ne_left (hv : r.valid) (hstays : ∀ i, i < k → ¬ r.exits h l (n + i)) :
    r.phase h l n k ≠ .left := by
  induction k with
  | zero => simp
  | succ k ih =>
    intro hleft
    have ih := ih fun i hi => hstays i (hi.trans k.lt_succ_self)
    rcases r.phase_succ_cases h l n k with heq | ⟨e, hself, he, hm⟩
    · exact ih (heq ▸ hleft)
    · rcases Phase.moves_left (hleft ▸ hm) with hph | hout
      · exact ih hph
      · exact hstays k k.lt_succ_self ⟨hself, e, he, by rwa [Execution.moment_xlen hv n]⟩

/-- An attempt ends only where the hart executes the LR of its loop again. -/
theorem Execution.phase_ne_ended (hv : r.valid) (henters : ∀ i, 0 < i → i < k → ¬ r.enters h l (n + i)) :
    r.phase h l n k ≠ .ended := by
  induction k with
  | zero => simp
  | succ k ih =>
    intro hended
    have ih := ih fun i hi hik => henters i hi (hik.trans k.lt_succ_self)
    rcases r.phase_succ_cases h l n k with heq | ⟨e, hself, he, hm⟩
    · exact ih (heq ▸ hended)
    · rcases Phase.moves_ended (hended ▸ hm) with hph | ⟨hback, hpc, hsize⟩
      · exact ih hph
      · have hpos : 0 < k := Nat.pos_of_ne_zero fun hk => by simp [hk] at hback
        exact henters k hpos k.lt_succ_self ⟨hself, e, he, hpc, by rwa [Execution.moment_xlen hv n]⟩

/-- Before its SC and after it an attempt has executed no more instructions than the loop has addresses. -/
theorem Execution.trace_length_le (hl : l.placed (r.state n).params = true)
    (hph : (∃ a m seen, r.phase h l n k = .between a m seen) ∨ ∃ ok seen, r.phase h l n k = .after ok seen) :
    (r.trace h n k).length ≤ 4 * l.len := by
  have hdescribes : (r.phase h l n k).Describes _ l _ := phaseAfter_describes hl (r.trace h n k)
  rcases hph with ⟨a, m, seen, hph⟩ | ⟨ok, seen, hph⟩ <;> rw [hph] at hdescribes <;>
    exact CodeLoop.runsOnce_length_le hdescribes.1

theorem Execution.trace_length_succ (hc : r.completes h (n + k)) :
    (r.trace h n (k + 1)).length = (r.trace h n k).length + 1 := by
  obtain ⟨hself, he⟩ := hc
  obtain ⟨e, he⟩ := Option.isSome_iff_exists.mp he
  simp [Execution.trace, hself, he]

theorem Execution.trace_length_mono (r : Execution) (h n : Nat) : Monotone fun k => (r.trace h n k).length :=
  monotone_nat_of_le_succ fun k => by simp [Execution.trace]

/-- A hart that completes instructions again and again executes as many as one likes. -/
theorem Execution.trace_length_unbounded (hc : ∀ i, k ≤ i → ∃ j, r.completes h (n + i + j)) (N : Nat) :
    ∃ i, k ≤ i ∧ N ≤ (r.trace h n i).length := by
  induction N with
  | zero => exact ⟨k, le_rfl, Nat.zero_le _⟩
  | succ N ih =>
    obtain ⟨i, hki, hN⟩ := ih
    obtain ⟨j, hj⟩ := hc i hki
    refine ⟨i + j + 1, by omega, ?_⟩
    rw [Execution.trace_length_succ (Nat.add_assoc n i j ▸ hj)]
    have : (r.trace h n i).length ≤ (r.trace h n (i + j)).length := r.trace_length_mono h n (Nat.le_add_right i j)
    omega

/-! ### An attempt whose SC has succeeded (R92) -/

/-- What an executed SC makes of an attempt that is not over. -/
theorem Phase.moves_of_sc {p : Params} {e : Executed} {ph ph' : Phase} (hm : ph.Moves p l e ph')
    (hsc : (scSizeOf p.xlen e.word).isSome = true) :
    ph' = .broken ∨ ph' = .again ∨ ph' = .left ∨ ph' = .ended ∨ ∃ seen, ph' = .after e.stored seen := by
  obtain ⟨-, -, hretry, hleaves⟩ := Executed.class_of_lrSc (.inr hsc)
  cases hm with
  | reads _ size => rw [lrSizeOf_of_sc hsc] at size; cases size
  | goesOn _ _ noSc => rw [noSc] at hsc; cases hsc
  | writes => exact .inr (.inr (.inr (.inr ⟨_, rfl⟩)))
  | retries _ _ allowed | comesBack _ _ allowed | repeats allowed => rw [hretry] at allowed; cases allowed
  | begins | leaves | breaks | repeated | left | ended => simp

/-- After an SC that succeeded the attempt goes on past it, comes back, is left, or breaks a property. -/
theorem Phase.moves_after_success {p : Params} {e : Executed} {seen : List Word} {ph : Phase}
    (hm : (Phase.after true seen).Moves p l e ph) :
    ph = .broken ∨ ph = .again ∨ ph = .left ∨ ∃ seen', ph = .after true seen' := by
  cases hm with
  | retries => exact .inr (.inr (.inr ⟨_, rfl⟩))
  | repeats | leaves | breaks => simp

/-- A hart that does not exit its loop stays past an SC that succeeded. -/
theorem Execution.phase_after_success (hv : r.valid) (hok : r.attemptOk h l n) (hstays : ∀ i, ¬ r.exits h l (n + i))
    {seen : List Word} (hk : r.phase h l n k = .after true seen) (j : Nat) :
    ∃ seen', r.phase h l n (k + j) = .after true seen' := by
  induction j with
  | zero => exact ⟨seen, hk⟩
  | succ j ih =>
    obtain ⟨seen', hph⟩ := ih
    rcases r.phase_succ_cases h l n (k + j) with heq | ⟨e, -, -, hm⟩
    · exact ⟨seen', heq.trans hph⟩
    · obtain ⟨hbroken, hagain⟩ := Execution.attemptOk_here hv hok (k + j + 1)
      rcases Phase.moves_after_success (hph ▸ hm) with hb | ha | hl | hafter
      · exact absurd hb hbroken
      · exact absurd ha hagain
      · exact absurd hl (Execution.phase_ne_left hv fun i _ => hstays i)
      · exact hafter

/-- A hart that goes on completing instructions exits its loop once the SC of an attempt has succeeded. -/
theorem Execution.exits_of_success (hv : r.valid) (hl : l.placed (r.state n).params = true) (hok : r.attemptOk h l n)
    (hc : ∀ i, k ≤ i → ∃ j, r.completes h (n + i + j)) {seen : List Word} (hk : r.phase h l n k = .after true seen) :
    ∃ i, r.exits h l (n + i) := by
  by_contra hstays
  obtain ⟨i, hki, hlong⟩ := Execution.trace_length_unbounded hc (4 * l.len + 1)
  obtain ⟨j, rfl⟩ := Nat.exists_eq_add_of_le hki
  have hafter := Execution.phase_after_success hv hok (not_exists.mp hstays) hk j
  have := Execution.trace_length_le hl (.inr ⟨true, hafter⟩)
  omega

/-- A successful SC that a hart executes in a constrained loop belongs to an attempt, which it leads past its SC. -/
theorem Execution.attempt_of_success (hv : r.valid) {start : Nat} (hconstrained : r.constrainedFrom h l start)
    (hstays : ∀ m, r.stays h l start m) {a m : Nat} {aq rl : Bool} {bytes : List Byte} (hn : start ≤ n)
    (hsc : Event.sc h a m aq rl true bytes ∈ r.added n) :
    ∃ j, start ≤ j ∧ j ≤ n ∧ r.attemptOk h l j ∧ ∃ seen, r.phase h l j (n - j + 1) = .after true seen := by
  obtain ⟨henters, -, hattempts⟩ := hconstrained
  classical
  let j := Nat.findGreatest (fun i => start ≤ i ∧ r.enters h l i) n
  obtain ⟨hj, hjenters⟩ : start ≤ j ∧ r.enters h l j :=
    Nat.findGreatest_spec (P := fun i => start ≤ i ∧ r.enters h l i) hn ⟨le_rfl, henters⟩
  have hjn : j ≤ n := Nat.findGreatest_le n
  have hlast : ∀ i, j < i → i ≤ n → ¬ r.enters h l i := fun i hji hin hi =>
    Nat.findGreatest_is_greatest hji hin ⟨hj.trans hji.le, hi⟩
  have hok := hattempts j hj hjenters (hstays j)
  refine ⟨j, hj, hjn, hok, ?_⟩
  obtain ⟨k, hk⟩ := Nat.exists_eq_add_of_le hjn
  obtain ⟨hself, e, he, hsize, -, hstored⟩ := Execution.executed_of_sc hv hsc
  rw [hk] at hself he
  obtain ⟨hbroken, hagain⟩ := Execution.attemptOk_here hv hok (k + 1)
  have hleft : r.phase h l j (k + 1) ≠ .left := Execution.phase_ne_left hv fun i _ =>
    Execution.not_exits_of_stays hstays (by omega)
  have hended : r.phase h l j (k + 1) ≠ .ended := Execution.phase_ne_ended hv fun i hi hik => hlast _ (by omega) (by omega)
  have hm := Phase.moves_of_sc (Execution.phase_moves (l := l) hself he) (by
    rw [← Execution.moment_xlen hv j n, hsize]; rfl)
  rw [hstored] at hm
  rw [show n - j + 1 = k + 1 by omega]
  exact (((hm.resolve_left hbroken).resolve_left hagain).resolve_left hleft).resolve_left hended

end

/-! ### Harts that have stopped (R116, R132) -/

/-- Hart `h` has faulted or been refused. -/
def State.hasStopped (s : State) (h : Nat) : Prop := ∃ u, s.harts[h]? = some u ∧ u.status ≠ .running

theorem exec_hart_status {i : Instr} {s t : State} (h : exec i s = .next t) : t.hart.status = s.hart.status := by
  obtain ⟨w, rd, v, o, p, hw, -, -, rfl⟩ := exec_next_shape h
  simp [(State.accesses_hart hw).1]

/-- A completed instruction leaves the status of every hart as it is. -/
theorem exec_statuses {i : Instr} {s t : State} (h : exec i s = .next t) :
    t.harts.map Hart.status = s.harts.map Hart.status := by
  obtain ⟨w, rd, v, o, p, hw, -, -, rfl⟩ := exec_next_shape h
  have hothers : w.before.map Hart.status = s.before.map Hart.status ∧
      w.after.map Hart.status = s.after.map Hart.status := by
    rcases hw with rfl | ⟨e, rfl⟩ | ⟨a, bytes, e, rfl⟩
    · exact ⟨rfl, rfl⟩
    · exact ⟨rfl, rfl⟩
    · exact s.map_store_others Hart.status a bytes fun u => u.afterForeignStore_status a bytes.length
  simp [State.harts, hothers, (State.accesses_hart hw).1]

theorem State.hasStopped_of_statuses {s t : State} (h : t.harts.map Hart.status = s.harts.map Hart.status) {k : Nat}
    (hs : s.hasStopped k) : t.hasStopped k := by
  obtain ⟨u, hu, hstatus⟩ := hs
  have hk : (t.harts.map Hart.status)[k]? = some u.status := by rw [h, List.getElem?_map, hu]; rfl
  obtain ⟨v, hv, heq⟩ := Option.map_eq_some_iff.mp (List.getElem?_map.symm.trans hk)
  exact ⟨v, hv, heq ▸ hstatus⟩

/-- Where the hart that moves stops and the others are as before, every hart that had stopped still has. -/
theorem State.hasStopped_of_mover {s t : State} (hothers : sameOthers s t) (hmover : t.hart.status ≠ .running) {k : Nat}
    (hs : s.hasStopped k) : t.hasStopped k := by
  by_cases hk : k = s.self
  · rw [hk, ← State.self_of_sameOthers hothers]
    exact ⟨t.hart, t.harts_self, hmover⟩
  · obtain ⟨u, hu, hstatus⟩ := hs
    exact ⟨u, (State.harts_ne hothers.1 hothers.2 hk).trans hu, hstatus⟩

/-- A stopped hart stays stopped. -/
theorem advance_hasStopped {s : State} {h : Nat} (hs : s.hasStopped h) : (advance s).hasStopped h := by
  have hend : ∀ {t : State}, t.hasStopped h → t.endStep.hasStopped h := fun ht => by
    rwa [State.hasStopped, State.endStep_harts]
  rcases advance_cases s with ⟨_, _, i, t, -, -, -, -, hexec, -, ha⟩ |
    ⟨-, ⟨f, -, -, ha⟩ | ⟨q, -, -, ha⟩ | ⟨-, -, ha⟩ | ⟨d, -, ha⟩⟩ <;> rw [ha] <;> apply hend
  · exact State.hasStopped_of_statuses (exec_statuses hexec) hs
  · exact State.hasStopped_of_mover (s := s) (t := s.kept f) ⟨rfl, rfl⟩ nofun hs
  · exact State.hasStopped_of_mover (s := s) (t := s.keptRefused q) ⟨rfl, rfl⟩ nofun hs
  · exact hs
  · refine State.hasStopped_of_statuses ?_ hs
    have hkept := congrArg (List.map fun u => u.2.2) (s.deviceStep_harts_kept d)
    rw [List.map_map, List.map_map] at hkept
    exact hkept

/-- A hart that is refused completes no later instruction. -/
theorem Execution.not_completes_of_refuses {r : Execution} (hv : r.valid) {h n : Nat} (hr : r.refuses h n) (k : Nat) :
    ¬ r.completes h (n + 1 + k) := by
  have hstopped : (r.state (n + 1 + k)).hasStopped h := by
    induction k with
    | zero =>
      obtain ⟨⟨-, hself⟩, q, hq⟩ := hr
      have ha : r.state (n + 1) = ((r.moment n).keptRefused q).endStep := by
        rw [hv n]; simp [advance, hq]
      rw [Nat.add_zero, ha, State.hasStopped, State.endStep_harts, ← hself]
      exact ⟨_, ((r.moment n).keptRefused q).harts_self, nofun⟩
    | succ k ih =>
      rw [show n + 1 + (k + 1) = n + 1 + k + 1 by omega, hv]
      exact advance_hasStopped (s := r.moment (n + 1 + k)) ih
  rintro ⟨hself, he⟩
  obtain ⟨e, he⟩ := Option.isSome_iff_exists.mp he
  obtain ⟨-, hmove, -⟩ := State.executed_some he
  obtain ⟨u, hu, hstatus⟩ := hstopped
  have : some u = some (r.moment (n + 1 + k)).hart := by
    rw [← State.harts_self, hself]; exact hu.symm
  obtain rfl := Option.some.inj this
  simp [State.canMove, hstatus] at hmove

/-! ### Of some harts in constrained loops one leaves (R101) -/

/-- A hart in a constrained loop has an LR event at its start. -/
theorem Execution.lr_of_enters {r : Execution} (hv : r.valid) {h n : Nat} {l : CodeLoop} (henters : r.enters h l n) :
    ∃ a k aq rl bytes set, Event.lr h a k aq rl bytes set ∈ r.added n := by
  obtain ⟨hself, e, he, -, hsize⟩ := henters
  have he : (r.moment n).executed = some e := he
  rcases r.added_cases hv n with ⟨e', he', hevent⟩ | ⟨hnone, -⟩
  · obtain rfl : e = e' := Option.some.inj (he.symm.trans he')
    rcases hevent with ⟨k, aq, rl, -, -, -, hadded⟩ | ⟨k, aq, rl, bytes, hnone, -⟩ | ⟨hnone, -⟩
    · rw [hself] at hadded
      exact ⟨_, _, _, _, _, _, hadded ▸ List.mem_singleton_self _⟩
    all_goals rw [hnone] at hsize; cases hsize
  · rw [hnone] at he; cases he

/-- A hart that stays in its loop is inside it, with the set of its latest LR. -/
theorem Execution.inside_of_stays {r : Execution} (hv : r.valid) {h n m : Nat} {l : CodeLoop} (henters : r.enters h l n)
    (hnm : n ≤ m) (hstays : r.stays h l n (m + 1)) : ∃ set, r.inside h l n m set := by
  classical
  let P := fun j => n ≤ j ∧ ∃ a k aq rl bytes set, Event.lr h a k aq rl bytes set ∈ r.added j
  obtain ⟨hj, a, k, aq, rl, bytes, set, hlr⟩ : P (Nat.findGreatest P m) :=
    Nat.findGreatest_spec hnm ⟨le_rfl, Execution.lr_of_enters hv henters⟩
  refine ⟨set, hnm, hstays, _, hj, Nat.findGreatest_le m, ⟨a, k, aq, rl, bytes, hlr⟩,
    fun i hji him a k aq rl bytes s hi => ?_⟩
  exact Nat.findGreatest_is_greatest hji him ⟨hj.trans hji.le, a, k, aq, rl, bytes, s, hi⟩

/-- Settles O59: the guarantee gives an SC of one of the harts that succeeds, and that hart then runs out of code that it has not
executed in its attempt. -/
theorem someHartLeavesItsLoop : Obligations.SomeHartLeavesItsLoop := by
  intro r looping l start now hv heventuality hne hloops hgo
  by_contra hnone
  have hexits : ∀ h ∈ looping, ∀ n, now < n → ¬ r.exits h (l h) n := fun h hh n hn he => hnone ⟨h, hh, n, hn, he⟩
  have hstays : ∀ n, now < n → ∀ h ∈ looping, r.stays h (l h) (start h) n := by
    intro n hn
    induction n, hn using Nat.le_induction with
    | base => exact fun h hh => (hloops h hh).2.2
    | succ n hn ih =>
      intro h hh i hi hin
      rcases Nat.lt_succ_iff_lt_or_eq.mp hin with hlt | rfl
      · exact ih h hh i hi hlt
      · exact ⟨hexits h hh i hn, (hgo i hn ih h hh).1⟩
  have hcompletes : ∀ h ∈ looping, ∀ n, now < n → ∃ k, r.completes h (n + k) := fun h hh n hn =>
    (hgo n hn (hstays n hn) h hh).2.1
  obtain ⟨h, hh⟩ := List.exists_mem_of_ne_nil looping hne
  obtain ⟨hstart, hconstrained, hsofar⟩ := hloops h hh
  obtain ⟨set, hinside⟩ := Execution.inside_of_stays hv hconstrained.1 hstart hsofar
  have hrefuses : ∀ k, ¬ r.refuses h (start h + k) := by
    intro k hr
    obtain ⟨i, hi⟩ := hcompletes h hh (start h + k + 1 + now) (by omega)
    exact Execution.not_completes_of_refuses hv hr (now + i) (by rwa [← Nat.add_assoc])
  obtain ⟨k, hsc | hwrite | hexit | htrap⟩ := heventuality h (l h) (start h) now set hconstrained hinside hrefuses
  all_goals
    have hn : now < now + 1 + k := by omega
    obtain ⟨htraps, -, hset⟩ := hgo _ hn (hstays _ hn) h hh
    obtain ⟨hwrites, hstores⟩ := hset now set le_rfl hn hinside
  · obtain ⟨g, a, m, aq, rl, bytes, hsc, hmeets⟩ := hsc
    have hg := hstores g a m aq rl bytes hsc hmeets
    obtain ⟨hgstart, hgconstrained, -⟩ := hloops g hg
    have hgstays : ∀ m, r.stays g (l g) (start g) m := fun m i hi him =>
      hstays (m + now + 1) (by omega) g hg i hi (by omega)
    obtain ⟨j, hj, hjn, hok, seen, hafter⟩ :=
      Execution.attempt_of_success hv hgconstrained hgstays (hgstart.trans hn.le) hsc
    have hl : (l g).placed (r.state j).params = true := by
      rw [Execution.params_const hv j, ← Execution.params_const hv (start g)]
      exact hgconstrained.2.1.1
    obtain ⟨i, hi⟩ := Execution.exits_of_success hv hl hok (fun i hi => hcompletes g hg (j + i) (by omega)) hafter
    exact Execution.not_exits_of_stays hgstays (by omega) hi
  · exact hwrites hwrite
  · exact hexits h hh _ hn hexit
  · exact htraps htrap

end Sys2Proof.Machine
end

section
/-! SUPPORT. The eventuality guarantee under the reference simulator (R104): a lone hart in a constrained loop completes an instruction
in every step and its SC succeeds, so that it leaves the loop in its first attempt. -/

namespace Sys2Proof.Machine

/-! ### A machine of one hart and no devices -/

/-- The hart that moves is the only one, and there is no device. -/
def State.alone (s : State) : Prop := s.before = [] ∧ s.after = [] ∧ s.params.devices = 0

theorem State.alone_iff (s : State) : s.alone ↔ s.harts.length = 1 ∧ s.params.devices = 0 := by
  rw [State.alone, s.harts_length, ← List.length_eq_zero_iff, ← List.length_eq_zero_iff]
  omega

/-- A step of the whole machine is the end of a step from a state with the same parameters and number of harts. -/
theorem advance_eq_endStep (s : State) :
    ∃ t : State, advance s = t.endStep ∧ t.params = s.params ∧ t.harts.length = s.harts.length := by
  rcases advance_cases s with ⟨_, _, i, t, -, -, -, -, hexec, -, ha⟩ |
    ⟨-, ⟨f, -, -, ha⟩ | ⟨q, -, -, ha⟩ | ⟨-, -, ha⟩ | ⟨d, -, ha⟩⟩
  · exact ⟨t, ha, exec_params_and_harts hexec⟩
  · exact ⟨s.kept f, ha, rfl, by simp [State.harts_length]⟩
  · exact ⟨s.keptRefused q, ha, rfl, by simp [State.harts_length, State.keptRefused]⟩
  · exact ⟨s, ha, rfl, rfl⟩
  · exact ⟨s.deviceStep d, ha, s.deviceStep_params_and_harts d⟩

/-- After a step of a lone hart the hart is alone and has the turn. -/
theorem advance_alone {s : State} (hs : s.alone) : (advance s).alone ∧ (advance s).turn = .hart := by
  obtain ⟨t, ha, hparams, hharts⟩ := advance_eq_endStep s
  have ht : t.alone := by
    rw [State.alone_iff, hparams, hharts]
    exact s.alone_iff.mp hs
  obtain ⟨hbefore, hafter, hdevices⟩ := ht
  rw [ha, State.endStep_alone hbefore hafter hdevices]
  exact ⟨⟨hbefore, hafter, hdevices⟩, rfl⟩

/-- A lone hart that completes an instruction goes on as the instruction says, and is running; its reservation is that of the LR, or
it is kept by an instruction that is no LR or SC. -/
theorem advance_alone_executed {s : State} {e : Executed} (hs : s.alone) (he : s.executed = some e) :
    (advance s).pc = e.next ∧ (advance s).hart.status = .running ∧
      (∀ n, lrSizeOf s.xlen e.word = some n → (advance s).maySucceed e.addr.toNat n = true) ∧
      (lrSizeOf s.xlen e.word = none → scSizeOf s.xlen e.word = none →
        ∀ a n, (advance s).maySucceed a n = s.maySucceed a n) := by
  rcases advance_cases s with ⟨e', w, i, t, he', -, hmove, hf, hexec, rfl, ha⟩ | ⟨hnone, -⟩
  · obtain rfl : e = _ := Option.some.inj (he.symm.trans he')
    obtain ⟨hbefore, hafter, hdevices⟩ : t.alone := by
      obtain ⟨hparams, hharts⟩ := exec_params_and_harts hexec
      rw [State.alone_iff, hparams, hharts]
      exact s.alone_iff.mp hs
    have hmoved : (advance s).params = t.params ∧ (advance s).hart = t.hart := by
      rw [ha, State.endStep_alone hbefore hafter hdevices]
      exact ⟨rfl, rfl⟩
    have hmay : ∀ a n, (advance s).maySucceed a n = t.maySucceed a n := fun a n => by
      rw [State.maySucceed, hmoved.2]; rfl
    refine ⟨by rw [State.pc, State.xlen, hmoved.1, hmoved.2]; rfl, ?_, ?_, ?_⟩
    · rw [hmoved.2, exec_hart_status hexec]
      simpa using (Bool.and_eq_true_iff.mp hmove).1
    · intro n hn
      rcases exec_by_word (State.fetch_instr hf).1 hexec with ⟨k, aq, rl, hlr, -, -, rfl⟩ | ⟨k, aq, rl, hlr, -⟩ | ⟨hlr, -⟩ <;>
        rw [hlr] at hn <;> cases hn
      rw [hmay, State.maySucceed_lrDone]
      exact s.newReservation_covers _ n
    · intro hlr hsc a n
      rcases exec_by_word (State.fetch_instr hf).1 hexec with ⟨k, aq, rl, hlr', -⟩ | ⟨k, aq, rl, -, hsc', -⟩ |
        ⟨-, -, -, -, hres, -⟩
      · rw [hlr] at hlr'; cases hlr'
      · rw [hsc] at hsc'; cases hsc'
      · rw [hmay, State.maySucceed, hres]; rfl
  · rw [hnone] at he; cases he

/-- An executed SC has stored exactly where it succeeds. -/
theorem State.executed_stored {s : State} {e : Executed} {n : Nat} (he : s.executed = some e)
    (hsc : scSizeOf s.xlen e.word = some n) : e.stored = s.scSucceeds e.addr.toNat n := by
  obtain ⟨-, -, w, i, t, -, -, rfl⟩ := State.executed_some he
  simp only [State.storesWith]
  rw [hsc]

theorem Executed.lrSizeOf_of_betweenOk {x : Xlen} {e : Executed} (h : e.betweenOk x = true) : lrSizeOf x e.word = none := by
  rw [← Option.not_isSome_iff_eq_none]
  intro hlr
  rw [(Executed.class_of_lrSc (.inl hlr)).2.1] at h
  cases h

/-- No SC of the reference simulator fails that may succeed (R52). -/
theorem Choice.not_spurious_of_isReference {c : Choice} (h : c.isReference = true) : (!c.spurious) = true := by
  simp only [Choice.isReference, Bool.and_eq_true] at h
  exact h.1.1

/-! ### The exit lies outside every loop (R92, R132) -/

theorem textAt_mem {t : Text} {a : Nat} {w : InstrWord} (h : textAt t a = some w) : (a, w) ∈ t := by
  induction t with
  | nil => cases h
  | cons c rest ih =>
    obtain ⟨k, v⟩ := c
    simp only [textAt] at h
    split at h
    · rename_i hk
      cases h
      exact hk ▸ List.mem_cons_self
    · exact List.mem_cons_of_mem _ (ih h)

/-- Every aligned address of a loop of an admitted launch is that of a word of the text. -/
theorem CodeLoop.textAt_of_holds {p : Params} {l : CodeLoop} (hadmitted : launchAdmits p) (hl : l.placed p = true) {a : Word}
    (ha : l.holds a = true) (haligned : a.toNat % 4 = 0) : textAt p.text a.toNat ≠ none := by
  obtain ⟨-, htext, -⟩ := hadmitted
  obtain ⟨-, -, hwords, -⟩ := (l.placed_iff p).mp hl
  obtain ⟨hlo, hhi⟩ := (l.holds_iff a).mp ha
  obtain ⟨w, hw, -⟩ := hwords 0 (by omega)
  have hbase : l.base % 4 = 0 := (htext _ (textAt_mem hw)).1
  obtain ⟨v, hv, -⟩ := hwords ((a.toNat - l.base) / 4) (by omega)
  rw [show l.base + 4 * ((a.toNat - l.base) / 4) = a.toNat by omega] at hv
  rw [hv]
  nofun

/-- A hart in a loop of an admitted launch has not finished. -/
theorem State.atExit_of_holds {s : State} {l : CodeLoop} (hadmitted : launchAdmits s.params) (hl : l.placed s.params = true)
    (hpc : l.holds s.pc = true) : s.atExit = false := by
  rw [Bool.eq_false_iff]
  intro hexit
  have hexit : s.params.exit = some s.pc := by simpa [State.atExit] using hexit
  obtain ⟨-, -, -, -, -, hout⟩ := id hadmitted
  obtain ⟨haligned, -, hnone⟩ := hout s.pc hexit
  exact CodeLoop.textAt_of_holds hadmitted hl hpc haligned hnone

/-! ### The first attempt of a lone hart (R104) -/

/-- The hart is in the first attempt of its loop: it runs, it stands in the loop, it has completed an instruction in every step since
it entered, and its SC is still to come and may succeed, or has succeeded. -/
structure Execution.onCourse (r : Execution) (h : Nat) (l : CodeLoop) (n k : Nat) : Prop where
  running : (r.state (n + k)).hart.status = .running
  held : l.holds (r.state (n + k)).pc = true
  executed : (r.trace h n k).length = k
  phase : (∃ a m seen, r.phase h l n k = .between a m seen ∧ (r.state (n + k)).maySucceed a.toNat m = true) ∨
    ∃ seen, r.phase h l n k = .after true seen

section

variable {r : Execution} {h : Nat} {l : CodeLoop} {n k : Nat}

theorem Execution.alone_of_start (hv : r.valid) (halone : (r.state 0).alone) (n : Nat) : (r.state n).alone := by
  induction n with
  | zero => exact halone
  | succ n ih => exact hv n ▸ (advance_alone (s := r.moment n) ih).1

/-- After one completed instruction the hart is on course where its phase says so. -/
theorem Execution.onCourse_succ (hv : r.valid) (halone : (r.state 0).alone) {e : Executed}
    (hself : (r.moment (n + k)).self = h) (he : (r.moment (n + k)).executed = some e)
    (hexecuted : (r.trace h n k).length = k) (hheld : l.holds e.next = true)
    (hphase : (∃ a m seen, r.phase h l n (k + 1) = .between a m seen ∧ (r.state (n + k + 1)).maySucceed a.toNat m = true) ∨
      ∃ seen, r.phase h l n (k + 1) = .after true seen) : r.onCourse h l n (k + 1) := by
  obtain ⟨hpc, hrunning, -⟩ := advance_alone_executed (s := r.moment (n + k)) (Execution.alone_of_start hv halone (n + k)) he
  rw [← hv] at hpc hrunning
  exact ⟨hrunning, by rw [← Nat.add_assoc, hpc]; exact hheld,
    by rw [Execution.trace_length_succ ⟨hself, he ▸ rfl⟩, hexecuted], hphase⟩

/-- The LR puts the hart on course. -/
theorem Execution.onCourse_of_enters (hv : r.valid) (halone : (r.state 0).alone) (henters : r.enters h l n)
    (hok : r.attemptOk h l n) (hstays : ∀ m, r.stays h l n m) : r.onCourse h l n 1 := by
  obtain ⟨hself, e, he, -, hsize⟩ := henters
  obtain ⟨-, -, hreserves, -⟩ := advance_alone_executed (s := r.moment n) (Execution.alone_of_start hv halone n) he
  have hbroken := (Execution.attemptOk_here hv hok 1).1
  have hleft : r.phase h l n 1 ≠ .left := Execution.phase_ne_left hv fun i _ =>
    Execution.not_exits_of_stays hstays (Nat.le_add_right n i)
  have hm : Phase.atLr.Moves _ l e (r.phase h l n 1) := Execution.phase_moves (k := 0) hself he
  generalize hq : r.phase h l n 1 = q at hm hbroken hleft
  cases hm with
  | reads _ size _ stays =>
    refine Execution.onCourse_succ (k := 0) hv halone hself he rfl stays (.inl ⟨_, _, _, hq, ?_⟩)
    rw [Nat.add_zero, hv n]
    exact hreserves _ size
  | leaves => exact absurd rfl hleft
  | breaks => exact absurd rfl hbroken

/-- On course in a loop of an admitted launch, a lone hart that is neither stopped nor refused completes an instruction. -/
theorem Execution.executed_of_onCourse (hv : r.valid) (halone : (r.state 0).alone) (hadmitted : launchAdmits (r.state 0).params)
    (hl : l.placed (r.state 0).params = true) (hk : 0 < k) (hcourse : r.onCourse 0 l n k) (htraps : ¬ r.traps 0 (n + k))
    (hrefuses : ¬ r.refuses 0 (n + k)) : ∃ e, (r.moment (n + k)).executed = some e := by
  obtain ⟨j, rfl⟩ := Nat.exists_eq_succ_of_ne_zero hk.ne'
  have hturn : (r.moment (n + (j + 1))).turn = .hart := by
    show (r.state (n + j + 1)).turn = .hart
    rw [hv]
    exact (advance_alone (s := r.moment (n + j)) (Execution.alone_of_start hv halone (n + j))).2
  have hself : (r.moment (n + (j + 1))).self = 0 :=
    List.length_eq_zero_iff.mpr (Execution.alone_of_start hv halone (n + (j + 1))).1
  have hparams := Execution.params_const hv (n + (j + 1))
  have hexit : (r.state (n + (j + 1))).atExit = false :=
    State.atExit_of_holds (hparams ▸ hadmitted) (hparams ▸ hl) hcourse.held
  have hmove : (r.moment (n + (j + 1))).canMove = true :=
    Bool.and_eq_true_iff.mpr ⟨beq_iff_eq.mpr hcourse.running, congrArg not hexit⟩
  rcases advance_cases (r.moment (n + (j + 1))) with ⟨e, -, -, -, he, -⟩ |
    ⟨-, ⟨f, -, hf, -⟩ | ⟨q, -, hq, -⟩ | ⟨-, hc, -⟩ | ⟨d, hd, -⟩⟩
  · exact ⟨e, he⟩
  · exact absurd ⟨⟨hturn, hself⟩, f, hf⟩ htraps
  · exact absurd ⟨⟨hturn, hself⟩, q, hq⟩ hrefuses
  · rw [hmove] at hc; cases hc
  · rw [hturn] at hd; cases hd

/-- The next instruction keeps the hart on course: code between the LR and the SC keeps the reservation, and an SC that may succeed
does in the reference simulator (R52). -/
theorem Execution.onCourse_next (hv : r.valid) (halone : (r.state 0).alone) (href : r.isReference) (hok : r.attemptOk h l n)
    (hstays : ∀ m, r.stays h l n m) (hcourse : r.onCourse h l n k) {e : Executed} (hself : (r.moment (n + k)).self = h)
    (he : (r.moment (n + k)).executed = some e) : r.onCourse h l n (k + 1) := by
  obtain ⟨hbroken, hagain⟩ := Execution.attemptOk_here hv hok (k + 1)
  have hleft : r.phase h l n (k + 1) ≠ .left := Execution.phase_ne_left hv fun i _ =>
    Execution.not_exits_of_stays hstays (Nat.le_add_right n i)
  have hxlen := Execution.moment_xlen hv n (n + k)
  have hm := Execution.phase_moves (l := l) hself he
  have honward := Execution.onCourse_succ (l := l) hv halone hself he hcourse.executed
  generalize hq : r.phase h l n (k + 1) = q at hm hbroken hagain hleft
  rcases hcourse.phase with ⟨a, m, seen, hph, hmay⟩ | ⟨seen, hph⟩ <;> rw [hph] at hm
  · cases hm with
    | goesOn _ _ noSc allowed stays =>
      obtain ⟨-, -, -, hkeeps⟩ := advance_alone_executed (s := r.moment (n + k)) (Execution.alone_of_start hv halone (n + k)) he
      have noLr : lrSizeOf (r.state n).params.xlen e.word = none := Executed.lrSizeOf_of_betweenOk allowed
      refine honward stays (.inl ⟨a, m, _, hq, ?_⟩)
      rw [hv (n + k), hkeeps (hxlen ▸ noLr) (hxlen ▸ noSc)]
      exact hmay
    | writes _ _ size addr stays =>
      have hstored : e.stored = true := by
        rw [State.executed_stored he (hxlen ▸ size), addr]
        exact Bool.and_eq_true_iff.mpr ⟨hmay, Choice.not_spurious_of_isReference (href.2 (n + k))⟩
      exact honward stays (.inr ⟨_, hstored ▸ hq⟩)
    | leaves => exact absurd rfl hleft
    | breaks => exact absurd rfl hbroken
  · cases hm with
    | retries _ _ _ stays => exact honward stays (.inr ⟨_, hq⟩)
    | repeats => exact absurd rfl hagain
    | leaves => exact absurd rfl hleft
    | breaks => exact absurd rfl hbroken

end

/-- Settles O60: entering, the hart is on course; as long as it neither exits nor traps it stays so; and the course is bounded. -/
theorem loneReferenceHartMakesProgress : Obligations.LoneReferenceHartMakesProgress := by
  intro r hv hlaunched href hharts hdevices h l n m set hconstrained hinside hrefuses
  obtain ⟨henters, hloop, hattempts⟩ := hconstrained
  obtain ⟨hnm, hstays, -⟩ := hinside
  by_contra hnone
  simp only [not_exists, not_or] at hnone
  have hstays : ∀ i, r.stays h l n i := fun i j hj _ => by
    rcases Nat.lt_or_ge j (m + 1) with hjm | hjm
    · exact hstays j hj hjm
    · obtain ⟨-, -, hexits, htraps⟩ := hnone (j - (m + 1))
      rw [Nat.add_sub_cancel' hjm] at hexits htraps
      exact ⟨hexits, htraps⟩
  have halone : (r.state 0).alone := (State.alone_iff _).mpr ⟨hharts, hdevices⟩
  obtain rfl : 0 = h := (List.length_eq_zero_iff.mpr (Execution.alone_of_start hv halone n).1).symm.trans henters.1
  have hok := hattempts n le_rfl henters (hstays n)
  have hl : l.placed (r.state 0).params = true := Execution.params_const hv n ▸ hloop.1
  have hcourse : ∀ k, r.onCourse 0 l n (k + 1) := by
    intro k
    induction k with
    | zero => exact Execution.onCourse_of_enters hv halone henters hok hstays
    | succ k ih =>
      have htraps := (hstays (n + (k + 1) + 1) (n + (k + 1)) (by omega) (by omega)).2
      obtain ⟨e, he⟩ := Execution.executed_of_onCourse hv halone hlaunched.1 hl k.succ_pos ih htraps (hrefuses (k + 1))
      have hself := List.length_eq_zero_iff.mpr (Execution.alone_of_start hv halone (n + (k + 1))).1
      exact Execution.onCourse_next hv halone href hok hstays ih hself he
  obtain ⟨-, -, hexecuted, hphase⟩ := hcourse (4 * l.len)
  have := Execution.trace_length_le hloop.1 (hphase.imp (fun ⟨a, m, seen, hph, _⟩ => ⟨a, m, seen, hph⟩)
    fun hafter => ⟨true, hafter⟩)
  omega

end Sys2Proof.Machine
end

section
/-! SUPPORT. The obligations on ADDI, BNE and JALR (42_aux_base_for_figure_8_1.md): which words they are and what their fields are,
what they compute, where they go on, and what they leave unchanged. -/

namespace Sys2Proof

/-! ### The words of ADDI, BNE and JALR (R106 to R108) -/

/-- A word of one of the three rows is of no row of LR and SC. -/
theorem lrSc_rows_miss {r : OpcodeRow} {w : InstrWord} (hr : r ∈ [rowAddi, rowBne, rowJalr]) (h : r.hits w = true) :
    ∀ q ∈ [rowLrW, rowLrD, rowScW, rowScD], q.hits w = false := by
  have hdisjoint : ∀ r ∈ [rowAddi, rowBne, rowJalr], ∀ q ∈ [rowLrW, rowLrD, rowScW, rowScD], r.disjoint q = true := by decide
  exact fun q hq => OpcodeRow.hits_false_of_disjoint h (hdisjoint r hr q hq)

/-- A word of no row of LR and SC is told by the rows of ADDI, BNE and JALR, in this order. -/
theorem decodeWord_of_lrSc_rows_miss (x : Xlen) {w : InstrWord}
    (h : ∀ q ∈ [rowLrW, rowLrD, rowScW, rowScD], q.hits w = false) : decodeWord x w =
      if rowAddi.hits w then .ok (.addi (fieldRd w) (fieldRs1 w) (fieldImmI w))
      else if rowBne.hits w then .ok (.bne (fieldRs1 w) (fieldRs2 w) (fieldImmB w))
      else if rowJalr.hits w then .ok (.jalr (fieldRd w) (fieldRs1 w) (fieldImmI w))
      else if isLrScSpace w then .error (.illegal w)
      else .error (.notInScope w) := by
  simp only [List.forall_mem_cons] at h
  obtain ⟨hlrW, hlrD, hscW, hscD, -⟩ := h
  simp [decodeWord, hlrW, hlrD, hscW, hscD]

theorem decodeWord_of_rowAddi (x : Xlen) {w : InstrWord} (h : rowAddi.hits w = true) :
    decodeWord x w = .ok (.addi (fieldRd w) (fieldRs1 w) (fieldImmI w)) := by
  rw [decodeWord_of_lrSc_rows_miss x (lrSc_rows_miss (by decide) h), if_pos h]

theorem decodeWord_of_rowBne (x : Xlen) {w : InstrWord} (h : rowBne.hits w = true) :
    decodeWord x w = .ok (.bne (fieldRs1 w) (fieldRs2 w) (fieldImmB w)) := by
  have haddi : rowAddi.hits w = false := opcodeTable_hits_unique (by decide) (by decide) (by decide) h
  simp [decodeWord_of_lrSc_rows_miss x (lrSc_rows_miss (by decide) h), haddi, h]

theorem decodeWord_of_rowJalr (x : Xlen) {w : InstrWord} (h : rowJalr.hits w = true) :
    decodeWord x w = .ok (.jalr (fieldRd w) (fieldRs1 w) (fieldImmI w)) := by
  have haddi : rowAddi.hits w = false := opcodeTable_hits_unique (by decide) (by decide) (by decide) h
  have hbne : rowBne.hits w = false := opcodeTable_hits_unique (by decide) (by decide) (by decide) h
  simp [decodeWord_of_lrSc_rows_miss x (lrSc_rows_miss (by decide) h), haddi, hbne, h]

theorem fieldImmI_toNat (w : InstrWord) : (fieldImmI w).toNat = w.toNat / 2 ^ 20 := by
  have hlt := w.isLt
  rw [fieldImmI, extractLsb'_toNat_div]
  omega

/-- The five pieces of a branch offset at their places (R107). -/
theorem fieldImmB_toNat (w : InstrWord) : (fieldImmB w).toNat =
    w.toNat / 2 ^ 31 * 2 ^ 12 + w.toNat / 2 ^ 7 % 2 * 2 ^ 11 + w.toNat / 2 ^ 25 % 64 * 2 ^ 5 + w.toNat / 2 ^ 8 % 16 * 2 := by
  have hlt := w.isLt
  simp only [fieldImmB, Machine.toNat_append_eq_add, extractLsb'_toNat_div, BitVec.toNat_ofNat]
  omega

/-- Settles O4: a word of the row has its answer, a decoded word is of its instruction's row, and its fields are the word's bits
as numbers. -/
theorem auxiliaryWordsAndTheirFields : Obligations.AuxiliaryWordsAndTheirFields := by
  intro x w
  refine ⟨⟨fun h => ?_, ?_⟩, ⟨fun h => ?_, ?_⟩, ⟨fun h => ?_, ?_⟩, ?_, ?_⟩
  · exact ⟨_, _, _, decodeWord_of_rowAddi x ((rowAddi.hits_iff w).mpr h)⟩
  · rintro ⟨rd, rs1, imm, h⟩
    obtain ⟨-, hit, -⟩ := decodeWord_ok h
    exact (rowAddi.hits_iff w).mp hit
  · exact ⟨_, _, _, decodeWord_of_rowBne x ((rowBne.hits_iff w).mpr h)⟩
  · rintro ⟨rs1, rs2, off, h⟩
    obtain ⟨-, hit, -⟩ := decodeWord_ok h
    exact (rowBne.hits_iff w).mp hit
  · exact ⟨_, _, _, decodeWord_of_rowJalr x ((rowJalr.hits_iff w).mpr h)⟩
  · rintro ⟨rd, rs1, imm, h⟩
    obtain ⟨-, hit, -⟩ := decodeWord_ok h
    exact (rowJalr.hits_iff w).mp hit
  · rintro rd rs1 imm (h | h)
    all_goals
      obtain ⟨-, -, rfl, rfl, rfl⟩ := decodeWord_ok h
      exact ⟨fieldRd_val w, fieldRs1_val w, fieldImmI_toNat w⟩
  · intro rs1 rs2 off h
    obtain ⟨-, -, rfl, rfl, rfl⟩ := decodeWord_ok h
    exact ⟨fieldRs1_val w, fieldRs2_val w, fieldImmB_toNat w⟩

end Sys2Proof

namespace Sys2Proof.Machine

/-! ### Sums modulo `2^XLEN` (R7) -/

theorem two_pow_bits_dvd (x : Xlen) : 2 ^ x.bits ∣ 2 ^ 64 := by
  cases x <;> decide

/-- Sign extension to XLEN bits is the signed value modulo `2^XLEN`. -/
theorem sextTo_toNat {n : Nat} (x : Xlen) (v : BitVec n) : ((sextTo x v).toNat : Int) = v.toInt % 2 ^ x.bits := by
  rw [sextTo, truncTo_toNat, BitVec.signExtend, BitVec.toNat_ofInt, Int.natCast_mod,
    Int.toNat_of_nonneg (Int.emod_nonneg _ (by decide)),
    Int.emod_emod_of_dvd _ (Int.natCast_dvd_natCast.mpr (two_pow_bits_dvd x)), Nat.cast_pow, Nat.cast_ofNat]

/-- A register value and an immediate are added as integers, modulo `2^XLEN`. -/
theorem truncTo_add_sextTo_toNat {n : Nat} (x : Xlen) (v : Word) (imm : BitVec n) :
    ((truncTo x (v + sextTo x imm)).toNat : Int) = (v.toNat + imm.toInt) % 2 ^ x.bits := by
  rw [truncTo_toNat, BitVec.toNat_add, Nat.mod_mod_of_dvd _ (two_pow_bits_dvd x)]
  push_cast
  rw [sextTo_toNat, Int.add_emod_emod]

/-! ### The targets of BNE and JALR (R107, R108) -/

theorem aligned_iff (a : Word) (n : Nat) : aligned a n = true ↔ a.toNat % n = 0 := beq_iff_eq

theorem State.branchTarget_toNat (s : State) (off : BitVec 13) :
    ((s.branchTarget off).toNat : Int) = (s.pc.toNat + off.toInt) % 2 ^ s.xlen.bits :=
  truncTo_add_sextTo_toNat s.xlen s.pc off

/-- Clearing bit 0 gives the even number at or below. -/
theorem and_not_one_toNat (v : Word) : (v &&& ~~~1#64).toNat = v.toNat - v.toNat % 2 := by
  have hshift : v &&& ~~~1#64 = v >>> 1 <<< 1 := by
    ext k hk
    cases k with
    | zero => simp
    | succ k => simp [-BitVec.reduceNot, Nat.add_comm 1 k, BitVec.getLsbD_eq_getElem hk]
  have hlt := v.isLt
  rw [hshift, BitVec.toNat_shiftLeft, BitVec.toNat_ushiftRight, Nat.shiftLeft_eq, Nat.shiftRight_eq_div_pow]
  omega

/-- The target of JALR is the sum brought to an even number. -/
theorem State.jumpTarget_toNat {s : State} {rs1 : Reg} {imm : BitVec 12} {v : Nat}
    (h : (v : Int) = ((s.readReg rs1).toNat + imm.toInt) % 2 ^ s.xlen.bits) :
    (s.jumpTarget rs1 imm).toNat = v - v % 2 := by
  have hsum : (truncTo s.xlen (s.readReg rs1 + sextTo s.xlen imm)).toNat = v :=
    Int.ofNat_inj.mp ((truncTo_add_sextTo_toNat _ _ _).trans h.symm)
  rw [State.jumpTarget, and_not_one_toNat, hsum]

theorem State.truncTo_branchTarget (s : State) (off : BitVec 13) :
    truncTo s.xlen (s.branchTarget off) = s.branchTarget off :=
  truncTo_truncTo _ _

theorem State.truncTo_jumpTarget (s : State) (rs1 : Reg) (imm : BitVec 12) :
    truncTo s.xlen (s.jumpTarget rs1 imm) = s.jumpTarget rs1 imm := by
  apply truncTo_of_lt
  rw [State.jumpTarget, and_not_one_toNat]
  exact (Nat.sub_le _ _).trans_lt (truncTo_lt _ _)

/-! ### What ADDI, BNE and JALR answer -/

section
variable (s : State) (rd rs1 rs2 : Reg) (imm : BitVec 12) (off : BitVec 13)

theorem exec_addi : exec (.addi rd rs1 imm) s =
    .next (s.writeReg rd (s.readReg rs1 + sextTo s.xlen imm)).advancePc := rfl

theorem exec_jalr : exec (.jalr rd rs1 imm) s =
    if aligned (s.jumpTarget rs1 imm) 4 then .next ((s.writeReg rd s.nextPc).setPc (s.jumpTarget rs1 imm))
    else .fault (.instructionAddressMisaligned (s.jumpTarget rs1 imm)) := rfl

variable {s rs1 rs2}

theorem exec_bne_of_eq (h : s.readReg rs1 = s.readReg rs2) : exec (.bne rs1 rs2 off) s = .next s.advancePc := by
  simp [exec, execBne, State.regsDiffer, h]

theorem exec_bne_of_ne (h : s.readReg rs1 ≠ s.readReg rs2) : exec (.bne rs1 rs2 off) s =
    if aligned (s.branchTarget off) 4 then .next (s.setPc (s.branchTarget off))
    else .fault (.instructionAddressMisaligned (s.branchTarget off)) := by
  simp [exec, execBne, State.regsDiffer, State.raise, h]

end

/-- Settles O35: the sum of the registers' and the immediate's integers, brought to XLEN bits. -/
theorem addiAddsModulo : Obligations.AddiAddsModulo := by
  intro s rd rs1 imm
  refine ⟨_, exec_addi s rd rs1 imm, ?_, fun hrd => ?_⟩
  · rw [State.advancePc_pc, State.writeReg_nextPc, State.nextPc_toNat]
  · rw [State.advancePc_readReg, State.writeReg_readReg, if_pos ⟨rfl, hrd⟩, truncTo_add_sextTo_toNat]

/-- Settles O36: the address named is the branch's target, which is checked only where the registers differ. -/
theorem bneBranchesWhenUnequal : Obligations.BneBranchesWhenUnequal := by
  intro s rs1 rs2 off a ha
  obtain rfl : s.branchTarget off = a :=
    BitVec.eq_of_toNat_eq (Int.ofNat_inj.mp ((s.branchTarget_toNat off).trans ha.symm))
  refine ⟨fun heq => ?_, fun hne haligned => ?_, fun hne hmisaligned => ?_⟩
  · exact ⟨_, exec_bne_of_eq off heq, by rw [State.advancePc_pc, State.nextPc_toNat]⟩
  · refine ⟨_, (exec_bne_of_ne off hne).trans (if_pos ((aligned_iff _ 4).mpr haligned)), ?_⟩
    rw [State.setPc_pc, State.truncTo_branchTarget]
  · exact (exec_bne_of_ne off hne).trans (if_neg (mt (aligned_iff _ 4).mp hmisaligned))

/-- Settles O37: the address named is the jump's target, read before the link is written. -/
theorem jalrJumpsAndLinks : Obligations.JalrJumpsAndLinks := by
  rintro s rd rs1 imm a ⟨v, hv, ha⟩
  obtain rfl : s.jumpTarget rs1 imm = a := BitVec.eq_of_toNat_eq ((State.jumpTarget_toNat hv).trans ha.symm)
  refine ⟨fun haligned => ?_, fun hmisaligned => ?_⟩
  · refine ⟨_, (exec_jalr s rd rs1 imm).trans (if_pos ((aligned_iff _ 4).mpr haligned)), ?_, fun hrd => ?_⟩
    · rw [State.setPc_pc, State.writeReg_xlen, State.truncTo_jumpTarget]
    · rw [State.setPc_readReg, State.writeReg_readReg, if_pos ⟨rfl, hrd⟩, truncTo_toNat, State.nextPc_toNat, Nat.mod_mod]
  · exact (exec_jalr s rd rs1 imm).trans (if_neg (mt (aligned_iff _ 4).mp hmisaligned))

/-! ### The frame of ADDI, BNE and JALR (R82, R106 to R108) -/

section
variable {s t : State} {rd rs1 rs2 : Reg} {imm : BitVec 12} {off : BitVec 13}

/-- A completed ADDI or JALR has written `rd` and the pc. -/
theorem exec_addi_or_jalr_next (h : exec (.addi rd rs1 imm) s = .next t ∨ exec (.jalr rd rs1 imm) s = .next t) :
    ∃ v a, t = (s.writeReg rd v).setPc a := by
  rcases h with h | h
  · cases h
    exact ⟨_, _, rfl⟩
  · rw [exec_jalr] at h
    split at h <;> cases h
    exact ⟨_, _, rfl⟩

/-- A completed BNE, taken or not, has written the pc. -/
theorem exec_bne_next (h : exec (.bne rs1 rs2 off) s = .next t) : ∃ a, t = s.setPc a := by
  by_cases hregs : s.readReg rs1 = s.readReg rs2
  · rw [exec_bne_of_eq off hregs] at h
    cases h
    exact ⟨_, rfl⟩
  · rw [exec_bne_of_ne off hregs] at h
    split at h <;> cases h
    exact ⟨_, rfl⟩

end

/-- A write of a register and of the pc changes nothing else. -/
theorem State.writeReg_setPc_frame (s : State) (rd : Reg) (v a : Word) :
    sameRegsBut rd s ((s.writeReg rd v).setPc a) ∧ sameMem s ((s.writeReg rd v).setPc a) ∧
      sameOthers s ((s.writeReg rd v).setPc a) ∧ sameMachine s ((s.writeReg rd v).setPc a) ∧
      ((s.writeReg rd v).setPc a).hist = s.hist ∧ ((s.writeReg rd v).setPc a).hart.res = s.hart.res :=
  ⟨fun _ hq => State.readReg_writeReg_of_ne hq s v, fun _ => by simp, by simp [sameOthers], by simp [sameMachine],
    by simp, by simp⟩

/-- Settles O38: a completed ADDI or JALR is a write of `rd` and the pc, a completed BNE one of register 0 and the pc. -/
theorem auxiliaryChangesNothingElse : Obligations.AuxiliaryChangesNothingElse := by
  intro s t rd rs1 rs2 imm off
  refine ⟨fun h => ?_, fun h => ?_⟩
  · obtain ⟨v, a, rfl⟩ := exec_addi_or_jalr_next h
    exact s.writeReg_setPc_frame rd v a
  · obtain ⟨a, rfl⟩ := exec_bne_next h
    have hframe := s.writeReg_setPc_frame 0 0 a
    rw [State.writeReg_zero] at hframe
    obtain ⟨hregs, hrest⟩ := hframe
    exact ⟨fun q => hregs q (em (q = 0)).symm, hrest⟩

end Sys2Proof.Machine
end

section
/-! SUPPORT. The obligations on exceptions (60_exceptions.md): what a fetch answers before anything is executed, what a fault leaves
behind, and that a hart that has stopped takes no step and stays as it is. -/

namespace Sys2Proof.Machine

/-! ### What a fetch answers, and the step that has fetched it (R115) -/

section
variable {s : State}

theorem State.fetch_of_misaligned (hpc : s.pc.toNat % 4 ≠ 0) :
    s.fetch = .fault (.instructionAddressMisaligned s.pc) := by
  simp [State.fetch, hpc]

theorem State.fetch_of_outside_text (hpc : s.pc.toNat % 4 = 0) (htext : textAt s.params.text s.pc.toNat = none) :
    s.fetch = .fault (.instructionAccessFault s.pc) := by
  simp [State.fetch, hpc, htext]

theorem State.fetch_of_text {w : InstrWord} (hpc : s.pc.toNat % 4 = 0)
    (htext : textAt s.params.text s.pc.toNat = some w) : s.fetch = fetchedOf s.xlen w := by
  simp [State.fetch, hpc, htext]

theorem step_of_fetch_fault {f : Fault} (hturn : s.turn = .hart) (hmove : s.canMove = true) (hfetch : s.fetch = .fault f) :
    step s = .fault f := by
  simp [step, hturn, hartStep, hmove, hfetch, State.raise]

theorem step_of_fetch_refused {q : Refusal} (hturn : s.turn = .hart) (hmove : s.canMove = true)
    (hfetch : s.fetch = .refused q) : step s = .refused q := by
  simp [step, hturn, hartStep, hmove, hfetch]

end

/-- Settles O12: a step stops with what its fetch answers, and a fetch checks the pc, then the text, then the word. -/
theorem fetchChecksInOrder : Obligations.FetchChecksInOrder := by
  intro s hturn hmove
  have hfault : ∀ f, s.fetch = .fault f → step s = .fault f := fun _ => step_of_fetch_fault hturn hmove
  refine ⟨fun hpc => hfault _ (State.fetch_of_misaligned hpc),
    fun hpc htext => hfault _ (State.fetch_of_outside_text hpc htext), fun w hpc htext => ?_⟩
  have hfetch := State.fetch_of_text hpc htext
  exact ⟨fun hdecode => hfault _ (hfetch.trans (fetchedOf_of_illegal hdecode)),
    fun hdecode => step_of_fetch_refused hturn hmove (hfetch.trans (fetchedOf_of_notInScope hdecode))⟩

/-! ### Harts that take no step (R116, R132) -/

theorem State.canMove_eq_false_iff (s : State) :
    s.canMove = false ↔ s.hart.status ≠ .running ∨ s.params.exit = some s.pc := by
  rw [State.canMove, State.atExit, Bool.and_eq_false_iff, beq_eq_false_iff_ne, Bool.not_eq_false', beq_iff_eq]

theorem step_of_canMove_false {s : State} (hturn : s.turn = .hart) (hmove : s.canMove = false) :
    step s = .next s.endStep := by
  simp [step, hturn, hartStep, hmove]

/-- Settles O13: these are the harts that cannot move. -/
theorem stoppedOrFinishedHartTakesNoStep : Obligations.StoppedOrFinishedHartTakesNoStep :=
  fun s hturn hstops => step_of_canMove_false hturn (s.canMove_eq_false_iff.mpr hstops)

/-! ### What a fault leaves (R72, R116 to R118) -/

theorem losesReservation_iff (f : Fault) :
    losesReservation f = true ↔ ∃ kind a, f = .addressMisaligned kind a ∨ f = .accessFault kind a := by
  cases f <;> simp [losesReservation]

theorem State.kept_res (s : State) (f : Fault) :
    (s.kept f).hart.res = if losesReservation f && s.choice.trapLoses then none else s.hart.res := rfl

theorem State.kept_res_of_not_loses (s : State) {f : Fault} (h : losesReservation f = false) :
    (s.kept f).hart.res = s.hart.res := by
  simp [State.kept_res, h]

/-- After an exception of an LR or SC the draw decides between the reservation held and none. -/
theorem State.kept_res_of_loses (s : State) {f : Fault} (h : losesReservation f = true) (c : Choice) :
    (State.kept { s with script := [c] } f).hart.res = if c.trapLoses then none else s.hart.res := by
  simp [State.kept_res, h, State.choice]

theorem advance_of_fault {s : State} {f : Fault} (h : step s = .fault f) : advance s = (s.kept f).endStep := by
  simp [advance, h]

/-- Settles O33: the draw `trapLoses` alone decides on the reservation, and the end of the step changes none of this. -/
theorem faultLeavesAllButTheReservation : Obligations.FaultLeavesAllButTheReservation := by
  intro s f
  refine ⟨rfl, rfl, ⟨rfl, rfl⟩, rfl, s.kept_readReg f, s.kept_pc f, s.kept_status f, ?_, fun kind a hf => ?_,
    fun hf => ?_, fun hstep => ?_⟩
  · rw [State.kept_res]
    split
    · exact .inr rfl
    · exact .inl rfl
  · have hloses := s.kept_res_of_loses ((losesReservation_iff f).mpr ⟨kind, a, hf⟩)
    exact ⟨⟨{ Choice.reference with trapLoses := false }, hloses _⟩,
      ⟨{ Choice.reference with trapLoses := true }, hloses _⟩⟩
  · refine s.kept_res_of_not_loses (Bool.eq_false_iff.mpr fun hloses => ?_)
    obtain ⟨kind, a, h⟩ := (losesReservation_iff f).mp hloses
    exact h.elim (hf kind a).1 (hf kind a).2
  · rw [advance_of_fault hstep]
    exact ⟨State.endStep_harts _, State.endStep_mem _, State.endStep_hist _⟩

/-! ### What a step leaves of a hart that takes none (R116) -/

/-- All of a hart but its reservation, which the writes of others can take. -/
def Hart.butRes (t : Hart) : Vector Word 32 × Word × Status := (t.x, t.pc, t.status)

/-- Where `f` of the other harts is as before, only `f` of the hart that moves can differ. -/
theorem State.map_harts_eq_set {α : Type} {f : Hart → α} {s t : State} (hbefore : t.before.map f = s.before.map f)
    (hafter : t.after.map f = s.after.map f) : t.harts.map f = (s.harts.map f).set s.self (f t.hart) := by
  simp [State.harts, State.self, hbefore, hafter]

theorem State.harts_getElem?_map_ne {α : Type} {f : Hart → α} {s t : State} (hbefore : t.before.map f = s.before.map f)
    (hafter : t.after.map f = s.after.map f) {k : Nat} (hk : k ≠ s.self) : t.harts[k]?.map f = s.harts[k]?.map f := by
  rw [← List.getElem?_map, State.map_harts_eq_set hbefore hafter, List.getElem?_set_ne hk.symm, List.getElem?_map]

/-- A completed instruction leaves every other hart but its reservation. -/
theorem exec_others_butRes {i : Instr} {s t : State} (h : exec i s = .next t) :
    t.before.map Hart.butRes = s.before.map Hart.butRes ∧ t.after.map Hart.butRes = s.after.map Hart.butRes := by
  obtain ⟨w, rd, v, o, p, hw, -, -, rfl⟩ := exec_next_shape h
  simp only [State.setPc_before, State.setPc_after, State.setRes_before, State.setRes_after, State.writeReg_before,
    State.writeReg_after]
  rcases hw with rfl | ⟨e, rfl⟩ | ⟨a, bytes, e, rfl⟩
  · exact ⟨rfl, rfl⟩
  · exact ⟨rfl, rfl⟩
  · exact s.map_store_others Hart.butRes a bytes fun u => by simp [Hart.butRes]

/-- A step of the whole machine leaves every hart but its reservation, save the hart that takes the step. -/
theorem advance_keeps_butRes {s : State} {k : Nat} (hk : s.turn = .hart → s.canMove = true → k ≠ s.self) :
    (advance s).harts[k]?.map Hart.butRes = s.harts[k]?.map Hart.butRes := by
  have hmoves : s.turn = .hart → (∀ t, step s ≠ .next t) → k ≠ s.self := fun hturn hstep =>
    hk hturn (Bool.eq_true_of_not_eq_false fun hmove => hstep _ (step_of_canMove_false hturn hmove))
  rcases advance_cases s with ⟨_, _, i, t, -, hturn, hmove, -, hexec, -, ha⟩ |
    ⟨-, ⟨f, hturn, hstep, ha⟩ | ⟨q, hturn, hstep, ha⟩ | ⟨-, -, ha⟩ | ⟨d, -, ha⟩⟩ <;> rw [ha, State.endStep_harts]
  · exact State.harts_getElem?_map_ne (exec_others_butRes hexec).1 (exec_others_butRes hexec).2 (hk hturn hmove)
  · exact congrArg _ (State.harts_ne (s := s) (t := s.kept f) rfl rfl (hmoves hturn (by simp [hstep])))
  · exact congrArg _ (State.harts_ne (s := s) (t := s.keptRefused q) rfl rfl (hmoves hturn (by simp [hstep])))
  · rw [← List.getElem?_map, ← List.getElem?_map]
    exact congrArg (·[k]?) (s.deviceStep_harts_kept d)

/-- Settles O34: a stopped hart cannot move, so it is not the one that takes the step. -/
theorem stoppedHartStaysStopped : Obligations.StoppedHartStaysStopped := by
  intro s k t ht hstopped
  have hne : s.turn = .hart → s.canMove = true → k ≠ s.self := by
    rintro - hmove rfl
    obtain rfl : s.hart = t := Option.some.inj (s.harts_self.symm.trans ht)
    rw [s.canMove_eq_false_iff.mpr (.inl hstopped)] at hmove
    cases hmove
  have hkept := advance_keeps_butRes hne
  rw [ht] at hkept
  obtain ⟨u, hu, hbutRes⟩ := Option.map_eq_some_iff.mp hkept
  injection hbutRes with hx hrest
  injection hrest with hpc hstatus
  exact ⟨u, hu, hx, hpc, hstatus⟩

end Sys2Proof.Machine
end

section
/-! SUPPORT. The obligation on a placed word (70_reset_and_hazards.md): what `State.placeFetchWord` makes of the pc, the exit and the
text, so that the checks of the next fetch hold (R115). -/

namespace Sys2Proof.Machine

/-! ### The pc brought to a multiple of 4 -/

theorem and_not_three_toNat_mod_four (v : Word) : (v &&& ~~~3#64).toNat % 4 = 0 := by
  rw [BitVec.toNat_and]
  exact (Nat.and_mod_two_pow (n := 2)).trans (Nat.and_zero _)

/-- Masking a value of XLEN bits leaves one of XLEN bits. -/
theorem truncTo_truncTo_and (x : Xlen) (v m : Word) : truncTo x (truncTo x v &&& m) = truncTo x v &&& m := by
  apply truncTo_of_lt
  rw [BitVec.toNat_and]
  exact Nat.and_le_left.trans_lt (truncTo_lt x v)

/-! ### The state with a placed word -/

section
variable (s : State) (w : InstrWord)

@[simp] theorem State.placeFetchWord_turn : (s.placeFetchWord w).turn = .hart := rfl

@[simp] theorem State.placeFetchWord_xlen : (s.placeFetchWord w).xlen = s.xlen := rfl

@[simp] theorem State.placeFetchWord_status : (s.placeFetchWord w).hart.status = .running := rfl

@[simp] theorem State.placeFetchWord_pc : (s.placeFetchWord w).pc = s.pc &&& ~~~3#64 :=
  truncTo_truncTo_and s.xlen s.hart.pc _

theorem State.placeFetchWord_pc_aligned : (s.placeFetchWord w).pc.toNat % 4 = 0 := by
  rw [State.placeFetchWord_pc]
  exact and_not_three_toNat_mod_four s.pc

theorem State.placeFetchWord_exit_ne_pc : (s.placeFetchWord w).params.exit ≠ some (s.placeFetchWord w).pc := by
  rw [State.placeFetchWord_pc, State.placeFetchWord]
  split
  · exact nofun
  · assumption

theorem State.placeFetchWord_canMove : (s.placeFetchWord w).canMove = true := by
  refine Bool.eq_true_of_not_eq_false fun hstops => ?_
  rcases (State.canMove_eq_false_iff _).mp hstops with hstatus | hexit
  · exact hstatus (s.placeFetchWord_status w)
  · exact s.placeFetchWord_exit_ne_pc w hexit

theorem State.placeFetchWord_textAt :
    textAt (s.placeFetchWord w).params.text (s.placeFetchWord w).pc.toNat = some w := by
  rw [State.placeFetchWord_pc]
  exact textAt_placeText _ w s.params.text

end

/-- A placed word that decodes is what the hart fetches. -/
theorem State.placeFetchWord_fetch {s : State} {w : InstrWord} {i : Instr} (hdec : decodeWord s.xlen w = .ok i) :
    (s.placeFetchWord w).fetch = .instr w i :=
  State.fetch_of_decodes (s.placeFetchWord_pc_aligned w) (s.placeFetchWord_textAt w) (by simpa using hdec)

/-- Settles O14: the hart has the turn, can move and fetches the placed word. -/
theorem placedWordIsWhatTheStepRuns : Obligations.PlacedWordIsWhatTheStepRuns :=
  fun s nbits w _ hdec =>
    step_of_fetch (s.placeFetchWord_turn (tableWord nbits w)) (s.placeFetchWord_canMove (tableWord nbits w))
      (State.placeFetchWord_fetch hdec)

end Sys2Proof.Machine
end
